-- ==== Sys2Proof/Word.lean ====
section
/-! DEFINITION. The word types of the machine: bytes, 32-bit words, 5-bit register indexes, and a field in its place. -/

namespace Sys2Proof

/-- One byte of memory (R31). -/
abbrev Byte := BitVec 8

/-- An XLEN-bit value: an address, an integer operand or an instruction word (R1, R53). -/
abbrev Word := BitVec 32

/-- The 5-bit index field that names a general register (R55). -/
abbrev RegIdx := BitVec 5

/-- A field placed with its lowest bit at position `lo` of a word of width `w`, every other bit 0. -/
def place (w : Nat) {n : Nat} (lo : Nat) (v : BitVec n) : BitVec w := v.setWidth w <<< lo

end Sys2Proof
end

