-- ==== Sys2Proof/Config.lean ====
section
/-! DEFINITION. What an implementation fixes: the names the parameters range over, the parameters of
92_eei_decisions.md as plain data, and the opaque constants that stand for what the spec leaves open. An
opaque constant has no body, so nothing proved here depends on its value. -/

namespace Sys2Proof

/-- The twelve permissions of a capability, in the order of the source's table, and GL (R69). -/
inductive Perm where
  | R | W | C | SL | LM | LG | X | ASR | SDP0 | SE | US | GL
  deriving DecidableEq, Repr

/-- Every permission once, in the order of R69. -/
def Perm.all : List Perm := [.R, .W, .C, .SL, .LM, .LG, .X, .ASR, .SDP0, .SE, .US, .GL]

/-- The control and status registers the spec describes (R25 to R28, R30). -/
inductive Csr where
  | mstatus | mtvec | mscratch | mtidc | mepc | mcause | mtval
  deriving DecidableEq, Repr

/-- Every CSR once. -/
def Csr.all : List Csr := [.mstatus, .mtvec, .mscratch, .mtidc, .mepc, .mcause, .mtval]

/-- The checks a CHERI fault can report, in their priority order (R117). -/
inductive CheriCheck where
  | tag | seal | permission | bounds
  deriving DecidableEq, Repr

/-- The capability a CHERI fault blames: `pcc` or a general register (R117). -/
inductive CapSource where
  | pcc
  | reg (i : RegIdx)
  deriving DecidableEq, Repr

/-- The parameter `NREGS`: 16 or 32 general registers (R21, D4). -/
inductive RegCount where
  | x16 | x32
  deriving DecidableEq, Repr, Inhabited

/-- One range of `MEM_MAP` (R46): a backed range of addresses, whether its granules hold tags, and whether it
belongs to `IO_REGIONS` (a read of it has side effects). DESIGN CHOICE: no kind of range is read-only, so ROM is written
as RAM is (R31, log 32). -/
structure Region where
  base : Nat
  size : Nat
  tagged : Bool
  io : Bool
  deriving DecidableEq, Repr

/-- The parameters that decide what a step does, as plain data: `NREGS`, `MEM_MAP` with `IO_REGIONS`, and
`IFETCH_COHERENT` (92_eei_decisions.md, summary). A run never changes them. -/
structure Platform where
  nregs : RegCount
  regions : List Region
  fetchCoherent : Bool
  deriving DecidableEq, Repr

/-- A bit pattern of an instruction: a word `w` is the row's instruction when `w &&& mask = value` (R59). -/
structure Pattern where
  mask : Word
  value : Word
  deriving DecidableEq, Repr, Inhabited

/-- The parameter `ENC`: for each instruction the spec gives no bits to, a pattern or "absent" (R60, D32). -/
structure Enc where
  addiy : Option Pattern
  scbnds : Option Pattern
  clrperm : Option Pattern
  gcperm : Option Pattern
  deriving DecidableEq, Repr, Inhabited

/-- `NREGS` of this machine; the spec gives no default (D4). -/
opaque Config.regCount : RegCount

/-- `ENC` of this machine, as given; the decoder uses it when it is well-formed (R60, D32). -/
opaque Config.enc : Enc

/-- `PERM_BIT` of this machine, as given; used when it is injective (D21). -/
opaque Config.permBit : Perm → BitVec 5

/-- Whether GL is in `PERM_BIT`'s domain for `GCPERM` (R85). -/
opaque Config.gcpermShowsGl : Bool

/-- `CSR_NUM` of this machine, as given; used when it is injective (D31). -/
opaque Config.csrNum : Csr → BitVec 12

/-- `CAUSE_CHERI`: the exception code of a CHERI fault (R117, D9). -/
opaque Config.causeCheri : BitVec 31

/-- `CHERI_TVAL`: the trap value a CHERI fault records (R117, D9). -/
opaque Config.cheriTval : CheriCheck → CapSource → Word

/-- What the n-th free draw of the run reads from a byte of `IO_REGIONS` (U18). -/
opaque Config.ioByte : Nat → Byte

/-- What the n-th free draw of the run reads in the `mstatus` fields that no source names (U21). -/
opaque Config.mstatusOther : Nat → Word

/-- The platform at reset: every parameter at the spec's default (all RAM, no I/O, coherent fetch), and `NREGS`,
which has none, left open (92_eei_decisions.md, summary). -/
def Config.platform : Platform where
  nregs := Config.regCount
  regions := [{ base := 0, size := 0x100000000, tagged := true, io := false }]
  fetchCoherent := true

end Sys2Proof
end

