-- ==== Sys2Proof/Syntax.lean ====
section
/-! DEFINITION. The instruction set: one constructor per row of spec/opcode_table.json. -/

namespace Sys2Proof

/-- The seven instructions of the opcode table, decoded. Immediates are the fields' bits; what they mean as numbers
is in Machine/Operands.lean. -/
inductive Instr where
  /-- `auipc rd, imm20` (R112). -/
  | auipc (rd : RegIdx) (imm20 : BitVec 20)
  /-- `jal rd, imm`: the 21-bit byte offset of the J format, its bit 0 always 0 in a word (R93, R58). -/
  | jal (rd : RegIdx) (imm : BitVec 21)
  /-- `jalr rd, imm12(rs1)` (R94). -/
  | jalr (rd rs1 : RegIdx) (imm12 : BitVec 12)
  /-- `addiy rd, rs1, imm12` (R110). -/
  | addiy (rd rs1 : RegIdx) (imm12 : BitVec 12)
  /-- `scbnds rd, rs1, rs2` (R109). -/
  | scbnds (rd rs1 rs2 : RegIdx)
  /-- `clrperm rd, rs1, rs2` (R83). -/
  | clrperm (rd rs1 rs2 : RegIdx)
  /-- `gcperm rd, rs1` (R85). -/
  | gcperm (rd rs1 : RegIdx)
  deriving DecidableEq, Repr

end Sys2Proof
end

