-- ==== Sys2Proof/Decode.lean ====
section
/-! DEFINITION. The instruction words: the patterns of R59, the parameter ENC for the other four rows (R60), the
decoder (total on any bytes, rejecting by name) and the encoder, both from the formats of R54 and R55. -/

namespace Sys2Proof

/-- Why bytes are not an instruction of this spec; both cases are safe (the run stops, R61). -/
inductive Reject where
  /-- Fewer than the four bytes of an instruction (R53). -/
  | truncated
  /-- The word matches no row of the opcode table (R61). -/
  | noRow (w : Word)
  deriving DecidableEq, Repr

/-- `AUIPC`: U format, opcode 0010111 (R59). -/
def auipcPattern : Pattern := { mask := 0x0000007F, value := 0x00000017 }

/-- `JAL`: J format, opcode 1101111 (R59). -/
def jalPattern : Pattern := { mask := 0x0000007F, value := 0x0000006F }

/-- `JALR`: I format, opcode 1100111, funct3 000 (R59). -/
def jalrPattern : Pattern := { mask := 0x0000707F, value := 0x00000067 }

/-- A word is the row's instruction when it agrees with the pattern on the mask (R59). -/
def Pattern.matches (p : Pattern) (w : Word) : Bool :=
  w &&& p.mask == p.value

/-- The operand bits of an I-format word: imm12, rs1, rd (R54, opcode_table.json ADDIY). -/
def iFields : Word := 0xFFF00000 ||| 0x000F8000 ||| 0x00000F80

/-- The operand bits of an R-format word: rs2, rs1, rd (R55, R60, opcode_table.json SCBNDS and CLRPERM). -/
def rFields : Word := 0x01F00000 ||| 0x000F8000 ||| 0x00000F80

/-- The operand bits of `GCPERM`: rs1, rd (R60, opcode_table.json GCPERM). -/
def gFields : Word := 0x000F8000 ||| 0x00000F80

/-- A pattern an instruction with these operand bits can have: its value lies in its mask, its mask leaves the operand
bits alone, and it fixes the two low bits to 11 (R53). -/
def Pattern.ok (fields : Word) (p : Pattern) : Bool :=
  (p.value &&& p.mask == p.value) && (p.mask &&& fields == 0) && (p.mask &&& 3 == 3) && (p.value &&& 3 == 3)

/-- No word matches both patterns: they differ on a bit both fix. -/
def Pattern.disjoint (p q : Pattern) : Bool :=
  (p.value ^^^ q.value) &&& p.mask &&& q.mask != 0

/-- A pattern, if there is one, shares no word with any of the list. -/
def Pattern.apart (p : Option Pattern) (qs : List (Option Pattern)) : Bool :=
  p.all fun a => qs.all fun q => q.all fun b => a.disjoint b

/-- `ENC` is well-formed: each pattern present is one its operand shape allows, and no two rows of the opcode table
share a word. -/
def Enc.ok (e : Enc) : Bool :=
  e.addiy.all (Pattern.ok iFields) && e.scbnds.all (Pattern.ok rFields) && e.clrperm.all (Pattern.ok rFields) &&
  e.gcperm.all (Pattern.ok gFields) &&
  Pattern.apart e.addiy [auipcPattern, jalPattern, jalrPattern, e.scbnds, e.clrperm, e.gcperm] &&
  Pattern.apart e.scbnds [auipcPattern, jalPattern, jalrPattern, e.clrperm, e.gcperm] &&
  Pattern.apart e.clrperm [auipcPattern, jalPattern, jalrPattern, e.gcperm] &&
  Pattern.apart e.gcperm [auipcPattern, jalPattern, jalrPattern]

/-- The default of `ENC`: all four patterns absent (92_eei_decisions.md, summary). -/
def Enc.absent : Enc := { addiy := none, scbnds := none, clrperm := none, gcperm := none }

/-- The `ENC` the machine decodes with: the one given, when it is well-formed; DESIGN CHOICE: an ill-formed one counts
as absent (log 2). -/
def machineEnc : Enc := if Config.enc.ok then Config.enc else Enc.absent

/-- The register index field `rd`, bits 11:7 (R55). -/
def rdField (w : Word) : RegIdx := w.extractLsb' 7 5

/-- The register index field `rs1`, bits 19:15 (R55). -/
def rs1Field (w : Word) : RegIdx := w.extractLsb' 15 5

/-- The register index field `rs2`, bits 24:20 (R55). -/
def rs2Field (w : Word) : RegIdx := w.extractLsb' 20 5

/-- The U-format immediate, bits 31:12 (R54). -/
def uImm (w : Word) : BitVec 20 := w.extractLsb' 12 20

/-- The I-format immediate, bits 31:20 (R54). -/
def iImm (w : Word) : BitVec 12 := w.extractLsb' 20 12

/-- The J-format immediate `imm[20] @ imm[19:12] @ imm[11] @ imm[10:1] @ 0` (R54, R58). -/
def jImm (w : Word) : BitVec 21 :=
  place 21 20 (w.extractLsb' 31 1) ||| place 21 12 (w.extractLsb' 12 8) ||| place 21 11 (w.extractLsb' 20 1) |||
    place 21 1 (w.extractLsb' 21 10)

/-- A row that may be absent matches the word. -/
def Pattern.matchesOpt (p : Option Pattern) (w : Word) : Bool :=
  p.any fun q => q.matches w

/-- The instruction a word stands for under a given `ENC` (R59, R60, R61). -/
def decodeWith (enc : Enc) (w : Word) : Except Reject Instr :=
  if auipcPattern.matches w then .ok (.auipc (rdField w) (uImm w))
  else if jalPattern.matches w then .ok (.jal (rdField w) (jImm w))
  else if jalrPattern.matches w then .ok (.jalr (rdField w) (rs1Field w) (iImm w))
  else if Pattern.matchesOpt enc.addiy w then .ok (.addiy (rdField w) (rs1Field w) (iImm w))
  else if Pattern.matchesOpt enc.scbnds w then .ok (.scbnds (rdField w) (rs1Field w) (rs2Field w))
  else if Pattern.matchesOpt enc.clrperm w then .ok (.clrperm (rdField w) (rs1Field w) (rs2Field w))
  else if Pattern.matchesOpt enc.gcperm w then .ok (.gcperm (rdField w) (rs1Field w))
  else .error (.noRow w)

/-- The instruction a word stands for on this machine. -/
def decodeWord (w : Word) : Except Reject Instr := decodeWith machineEnc w

/-- The word whose bytes, least significant first, are these (R38, R53). -/
def wordOfBytes (b0 b1 b2 b3 : Byte) : Word :=
  place 32 24 b3 ||| place 32 16 b2 ||| place 32 8 b1 ||| place 32 0 b0

/-- The instruction at the head of a list of bytes, lowest address first, and the bytes after it (R53). -/
def decode (enc : Enc) : List Byte → Except Reject (Instr × List Byte)
  | b0 :: b1 :: b2 :: b3 :: rest => (decodeWith enc (wordOfBytes b0 b1 b2 b3)).map fun i => (i, rest)
  | _ => .error .truncated

/-- The word of a U-format instruction: `imm20 @ rd @ opcode` (R54). -/
def uWord (p : Pattern) (rd : RegIdx) (imm : BitVec 20) : Word :=
  p.value ||| place 32 12 imm ||| place 32 7 rd

/-- The word of a J-format instruction: `imm[20] @ imm[10:1] @ imm[11] @ imm[19:12] @ rd @ opcode` (R54). -/
def jWord (p : Pattern) (rd : RegIdx) (imm : BitVec 21) : Word :=
  p.value ||| place 32 31 (imm.extractLsb' 20 1) ||| place 32 21 (imm.extractLsb' 1 10) |||
    place 32 20 (imm.extractLsb' 11 1) ||| place 32 12 (imm.extractLsb' 12 8) ||| place 32 7 rd

/-- The word of an I-format instruction: `imm12 @ rs1 @ funct3 @ rd @ opcode` (R54). -/
def iWord (p : Pattern) (rd rs1 : RegIdx) (imm : BitVec 12) : Word :=
  p.value ||| place 32 20 imm ||| place 32 15 rs1 ||| place 32 7 rd

/-- The word of an R-format instruction: register fields at the positions of R55, the rest from the pattern (R60). -/
def rWord (p : Pattern) (rd rs1 rs2 : RegIdx) : Word :=
  p.value ||| place 32 20 rs2 ||| place 32 15 rs1 ||| place 32 7 rd

/-- A word of the instruction under a given `ENC`: bits that neither the pattern nor an operand fixes are 0; none where
`ENC` leaves the row absent. -/
def encodeWith (enc : Enc) : Instr → Option Word
  | .auipc rd imm => some (uWord auipcPattern rd imm)
  | .jal rd imm => some (jWord jalPattern rd imm)
  | .jalr rd rs1 imm => some (iWord jalrPattern rd rs1 imm)
  | .addiy rd rs1 imm => enc.addiy.map fun p => iWord p rd rs1 imm
  | .scbnds rd rs1 rs2 => enc.scbnds.map fun p => rWord p rd rs1 rs2
  | .clrperm rd rs1 rs2 => enc.clrperm.map fun p => rWord p rd rs1 rs2
  | .gcperm rd rs1 => enc.gcperm.map fun p => rWord p rd rs1 0

/-- A word of the instruction on this machine. -/
def encode (i : Instr) : Option Word := encodeWith machineEnc i

/-- The four bytes of a word, lowest address first (R38, R53). -/
def bytesOfWord (w : Word) : List Byte :=
  [w.extractLsb' 0 8, w.extractLsb' 8 8, w.extractLsb' 16 8, w.extractLsb' 24 8]

/-- An instruction's low `nbits` bits as the whole word: every bit above them is 0. -/
def tableWord (nbits w : Nat) : Word := BitVec.ofNat 32 (w % 2 ^ nbits)

/-- The instruction the decoder reads from a row's word, laid out in memory as four little-endian bytes. -/
def decodeTableWord (nbits w : Nat) : Option Instr :=
  match decode machineEnc (bytesOfWord (tableWord nbits w)) with
  | .ok (i, _) => some i
  | .error _ => none

end Sys2Proof
end

