-- ==== Sys2Proof/Machine/Capability.lean ====
section
/-! DEFINITION. The capability value: its tag and eight fields, its 64-bit image, and the NULL and root capabilities. -/

namespace Sys2Proof.Machine

/-- A capability: the tag, kept out of band, and the eight fields of R12 in the order the source lists them. -/
structure Cap where
  /-- The validity tag (R14). -/
  tag : Bool
  /-- The reserved bit R (R15). -/
  r : Bool
  /-- The G bit, the GL flag (R16). -/
  g : Bool
  /-- The compressed permissions P (R17). -/
  p : BitVec 5
  /-- The sealed-type field CT (R18). -/
  ct : BitVec 3
  /-- The exponent field E (R19). -/
  e : BitVec 4
  /-- The top mantissa T (R19). -/
  t : BitVec 9
  /-- The base mantissa B (R19). -/
  b : BitVec 9
  /-- The address (R20). -/
  addr : Word
  deriving DecidableEq, Repr

/-- The metadata word `R@G@P@CT@E@T@B` (R13). -/
def Cap.metaWord (c : Cap) : Word :=
  place 32 31 (BitVec.ofBool c.r) ||| place 32 30 (BitVec.ofBool c.g) ||| place 32 25 c.p ||| place 32 22 c.ct |||
    place 32 18 c.e ||| place 32 9 c.t ||| place 32 0 c.b

/-- The 64-bit value `meta @ addr` (R13). -/
def Cap.bits64 (c : Cap) : BitVec 64 := place 64 32 c.metaWord ||| place 64 0 c.addr

/-- The capability whose tag is `tag` and whose 64-bit value is `v` (R13, R40). -/
def Cap.ofBits64 (tag : Bool) (v : BitVec 64) : Cap where
  tag := tag
  r := v.getLsbD 63
  g := v.getLsbD 62
  p := v.extractLsb' 57 5
  ct := v.extractLsb' 54 3
  e := v.extractLsb' 50 4
  t := v.extractLsb' 41 9
  b := v.extractLsb' 32 9
  addr := v.extractLsb' 0 32

/-- The capability with this tag, metadata word and address (R13). -/
def Cap.ofMeta (tag : Bool) (m addr : Word) : Cap := Cap.ofBits64 tag (place 64 32 m ||| place 64 0 addr)

/-- The NULL capability: 0 in all fields, tag clear (R113). -/
def Cap.null : Cap where
  tag := false
  r := false
  g := false
  p := 0
  ct := 0
  e := 0
  t := 0
  b := 0
  addr := 0

/-- The integer `v` in a capability register: NULL with its address replaced by `v` (R113, 00_scope.md section 5.2). -/
def Cap.int (v : Word) : Cap := { Cap.null with addr := v }

/-- The Infinite capability with the permission field of one of the roots (R114). -/
def Cap.root (p : BitVec 5) : Cap where
  tag := true
  r := false
  g := true
  p := p
  ct := 0
  e := 0xF
  t := 0x100
  b := 0
  addr := 0

/-- The Sealing root, P = 00111: SDP0, SE, US (R114). -/
def rootSeal : Cap := Cap.root 0b00111

/-- The Executable root, P = 01111: X, R, C, LM, LG, ASR (R114). -/
def rootExec : Cap := Cap.root 0b01111

/-- The RW root, P = 11111: W, R, C, LM, LG, SL (R114). -/
def rootRw : Cap := Cap.root 0b11111

end Sys2Proof.Machine
end

