-- ==== Sys2Proof/Machine/Memory.lean ====
section
/-! DEFINITION. Memory and tag storage as plain data in one canonical form, and the byte-order helpers (R31, R38). -/

namespace Sys2Proof.Machine

/-- The bytes of memory that differ from what an unlisted address reads as, addresses strictly rising (R31). -/
abbrev Memory := List Host.Cell

/-- A set of numbers as a strictly rising list: tagged granules, or stored addresses. -/
abbrev NatSet := List Nat

/-- The number of bytes of the address space (R31, R46). -/
def addressSpace : Nat := 0x100000000

/-- Address arithmetic is modulo 2^32 (R47). -/
def wrapAddr (a : Nat) : Nat := a % addressSpace

/-- What an unlisted address reads as. DESIGN CHOICE, unsafe: the spec gives no initial bytes (log 9). -/
def Memory.fill : Byte := 0

/-- One byte of memory. -/
def Memory.read : Memory → Nat → Byte
  | [], _ => Memory.fill
  | (k, v) :: rest, a => if k = a then v else Memory.read rest a

/-- Writing one byte, in canonical form: writing the fill value removes the entry. -/
def Memory.write : Memory → Nat → Byte → Memory
  | [], a, b => if b = Memory.fill then [] else [(a, b)]
  | (k, v) :: rest, a, b =>
    if a < k then (if b = Memory.fill then (k, v) :: rest else (a, b) :: (k, v) :: rest)
    else if a = k then (if b = Memory.fill then rest else (a, b) :: rest)
    else (k, v) :: Memory.write rest a b

/-- The canonical form from an address upward: strictly rising, inside the address space, no fill value listed. -/
def Memory.wfFrom : Nat → Memory → Bool
  | _, [] => true
  | lo, (k, v) :: rest =>
    decide (lo ≤ k) && decide (k < addressSpace) && decide (v ≠ Memory.fill) && Memory.wfFrom (k + 1) rest

/-- The canonical form of memory. -/
def Memory.wf (m : Memory) : Bool := Memory.wfFrom 0 m

/-- The number whose byte k is the byte at `a + k`, for n bytes: little-endian (R38). -/
def Memory.readLE (m : Memory) : Nat → Nat → Nat
  | _, 0 => 0
  | a, n + 1 => (m.read (wrapAddr a)).toNat + 256 * m.readLE (a + 1) n

/-- Storing the low n bytes of a number, byte k at `a + k`: little-endian (R38). -/
def Memory.writeLE (m : Memory) : Nat → Nat → Nat → Memory
  | _, 0, _ => m
  | a, n + 1, v => Memory.writeLE (m.write (wrapAddr a) (BitVec.ofNat 8 v)) (a + 1) n (v / 256)

/-- A memory in canonical form from a list of cells (`INIT_MEM`, R37). DESIGN CHOICE: a later cell overrides an earlier
one at the same address, and a cell's address is taken modulo 2^32 (log 9). -/
def Memory.ofCells (l : List Host.Cell) : Memory :=
  l.foldl (fun m c => m.write (wrapAddr c.1) c.2) []

/-- Membership in a set. -/
def NatSet.has : NatSet → Nat → Bool
  | [], _ => false
  | k :: rest, a => decide (k = a) || NatSet.has rest a

/-- Adding a number to a set, in canonical form. -/
def NatSet.add : NatSet → Nat → NatSet
  | [], a => [a]
  | k :: rest, a =>
    if a < k then a :: k :: rest else if a = k then k :: rest else k :: NatSet.add rest a

/-- Taking a number out of a set. -/
def NatSet.del : NatSet → Nat → NatSet
  | [], _ => []
  | k :: rest, a => if k = a then rest else k :: NatSet.del rest a

/-- The canonical form from a number upward: strictly rising and below a limit. -/
def NatSet.wfFrom (limit : Nat) : Nat → NatSet → Bool
  | _, [] => true
  | lo, k :: rest => decide (lo ≤ k) && decide (k < limit) && NatSet.wfFrom limit (k + 1) rest

/-- The canonical form of a set of numbers below a limit. -/
def NatSet.wf (limit : Nat) (s : NatSet) : Bool := NatSet.wfFrom limit 0 s

/-- A set in canonical form from a list. -/
def NatSet.ofList (l : List Nat) : NatSet := l.foldl NatSet.add []

/-- The number of an 8-byte granule (R31). -/
def granule (a : Nat) : Nat := wrapAddr a / 8

/-- How many granules there are (R31). -/
def granules : Nat := 0x20000000

/-- Taking the granules of n bytes from `a` out of a set of tagged granules (R42). -/
def NatSet.delGranules (s : NatSet) : Nat → Nat → NatSet
  | _, 0 => s
  | a, n + 1 => NatSet.delGranules (s.del (granule a)) (a + 1) n

/-- Adding n addresses from `a` upward to a set. -/
def NatSet.addRange (s : NatSet) : Nat → Nat → NatSet
  | _, 0 => s
  | a, n + 1 => NatSet.addRange (s.add (wrapAddr a)) (a + 1) n

/-- Taking n addresses from `a` upward out of a set. -/
def NatSet.delRange (s : NatSet) : Nat → Nat → NatSet
  | _, 0 => s
  | a, n + 1 => NatSet.delRange (s.del (wrapAddr a)) (a + 1) n

/-- One of n addresses from `a` upward is in a set. -/
def NatSet.hasRange (s : NatSet) : Nat → Nat → Bool
  | _, 0 => false
  | a, n + 1 => s.has (wrapAddr a) || s.hasRange (a + 1) n

end Sys2Proof.Machine
end

