-- ==== Sys2Proof/Machine/State.lean ====
section
/-! DEFINITION. The state of the machine as plain data, why a run can stop, and the state after reset (R126). -/

namespace Sys2Proof.Machine

/-- Everything the spec gives the machine. -/
structure State where
  /-- `x[0]` to `x[31]`; entry 0 is never read (R22), and with `NREGS` = 16 neither are entries 16 to 31 (R21). -/
  regs : Vector Cap 32
  /-- The program-counter capability; its address is `pc` (R24). -/
  pcc : Cap
  /-- `mstatus.MIE`, the interrupt enable (R25). -/
  mie : Bool
  /-- `mstatus.MPIE`, MIE before the trap (R30). -/
  mpie : Bool
  /-- The trap-vector capability (R26). -/
  mtvec : Cap
  /-- The scratch capability (R27). -/
  mscratch : Cap
  /-- The thread-identifier capability (R28). -/
  mtidc : Cap
  /-- The capability a trap saves `pcc` into (R30). -/
  mepc : Cap
  /-- The trap cause: bit 31 interrupt, bits 30:0 code (R30). -/
  mcause : Word
  /-- The recorded trap value (R30). -/
  mtval : Word
  /-- The bytes of memory (R31). -/
  mem : Memory
  /-- The granules whose tag bit is 1 (R31). -/
  tags : NatSet
  /-- The model's own: the addresses the program has stored to, for `IFETCH_COHERENT` = false (R52, log 12). -/
  stored : NatSet
  /-- The model's own: the coming answers of the `IRQ` oracle, one for each instruction boundary with MIE = 1; past the
  end of the list it presents nothing (R119, log 10). -/
  irq : List (Option (BitVec 31))
  /-- The model's own: how many free values have been drawn (logs 11, 20). -/
  draws : Nat
  /-- The machine's parameters; no step changes them (log 1). -/
  plat : Platform
  deriving DecidableEq, Repr

/-- Why the machine stops in a fault: never. Every exception of the spec is taken, a next state (R121), and a trap
whose handler cannot be fetched is an infinite run (R123). -/
inductive Fault where
  deriving DecidableEq, Repr

/-- Why the model gives a state no next one. -/
inductive Refusal where
  /-- Raised by exec's arm of an instruction with no meaning yet; none is left. Safe. -/
  | notModelled (mnemonic : String)
  /-- Raised by step on a word that matches no row of the opcode table: it may be an instruction the spec does not
  describe (R61). Safe. -/
  | unknownWord (w : Word)
  /-- Raised by step on a fetch of bytes the program has stored when `IFETCH_COHERENT` is false (R52). Safe. -/
  | staleFetch (pc : Word)
  /-- Raised by `admitStart` on a start state that holds a tagged value no derivation makes (R15, R66, D23). Safe. -/
  | malformedStart
  deriving DecidableEq, Repr

/-- The machine right after reset for each value of the parameters `RESET_PCC_ADDR`, `INIT_MEM`, `INIT_TAGS` and the
rest (R33 to R37, R126). What the spec gives no reset value holds NULL or 0: DESIGN CHOICE, unsafe (logs 7, 8). A number
of `INIT_TAGS` that names no granule is dropped: DESIGN CHOICE (log 19). -/
def State.resetWith (plat : Platform) (pcAddr : Word) (initMem : List Host.Cell) (initTags : List Nat) : State where
  regs := Vector.replicate 32 Cap.null
  pcc := { rootExec with addr := pcAddr }
  mie := false
  mpie := false
  mtvec := rootExec
  mscratch := rootSeal
  mtidc := rootRw
  mepc := Cap.null
  mcause := 0
  mtval := 0
  mem := Memory.ofCells initMem
  tags := NatSet.ofList (initTags.filter fun g => decide (g < granules))
  stored := []
  irq := []
  draws := 0
  plat := plat

/-- The machine right after reset, every parameter at its default (R126, log 6). -/
def State.reset : State := State.resetWith Config.platform 0 [] []

end Sys2Proof.Machine
end

