-- ==== Sys2Proof/Machine/Flags.lean ====
section
/-! DEFINITION. The machine has no condition flags (R32). Its one status word is `mstatus`, of which the sources name
MIE, bit 3 (R25), and MPIE, bit 7 (R30); this file says how the word is read and written. -/

namespace Sys2Proof.Machine

/-- The bits of `mstatus` that are state: MIE and MPIE (R25, R30). -/
def mstatusNamed : Word := 0x00000088

/-- The `mstatus` word of these two fields, with the bits no source names taken from `other` (U21). -/
def mstatusWord (mie mpie : Bool) (other : Word) : Word :=
  (other &&& ~~~mstatusNamed) ||| (if mie then 0x00000008 else 0) ||| (if mpie then 0x00000080 else 0)

/-- The MIE bit of an `mstatus` word, bit 3 (R25). -/
def mstatusMie (w : Word) : Bool := w.getLsbD 3

/-- The MPIE bit of an `mstatus` word, bit 7 (R30). -/
def mstatusMpie (w : Word) : Bool := w.getLsbD 7

/-- MIE set to a value (R25). -/
def State.setMie (s : State) (v : Bool) : State := { s with mie := v }

/-- MPIE set to a value (R30). -/
def State.setMpie (s : State) (v : Bool) : State := { s with mpie := v }

end Sys2Proof.Machine
end

