-- ==== Sys2Proof/Machine/Permissions.lean ====
section
/-! DEFINITION. Permission sets and the compressed permission field P: its decoding (R71 to R76), its encoding (R81),
and the permissions of a capability (R78). -/

namespace Sys2Proof.Machine

/-- A set of the twelve permissions: one truth value for each (R69). -/
structure PermSet where
  r : Bool
  w : Bool
  c : Bool
  sl : Bool
  lm : Bool
  lg : Bool
  x : Bool
  asr : Bool
  sdp0 : Bool
  se : Bool
  us : Bool
  gl : Bool
  deriving DecidableEq, Repr

/-- Membership of a permission in a set. -/
def PermSet.has (s : PermSet) : Perm → Bool
  | .R => s.r
  | .W => s.w
  | .C => s.c
  | .SL => s.sl
  | .LM => s.lm
  | .LG => s.lg
  | .X => s.x
  | .ASR => s.asr
  | .SDP0 => s.sdp0
  | .SE => s.se
  | .US => s.us
  | .GL => s.gl

/-- The set of the permissions that a truth value picks out. -/
def PermSet.ofFn (f : Perm → Bool) : PermSet where
  r := f .R
  w := f .W
  c := f .C
  sl := f .SL
  lm := f .LM
  lg := f .LG
  x := f .X
  asr := f .ASR
  sdp0 := f .SDP0
  se := f .SE
  us := f .US
  gl := f .GL

/-- The set that holds nothing. -/
def PermSet.empty : PermSet := PermSet.ofFn fun _ => false

/-- The set that holds exactly the permissions of a list. -/
def PermSet.ofList (l : List Perm) : PermSet := PermSet.ofFn fun n => l.contains n

/-- The permissions of `s` that are not in `k` (`S \ K`). -/
def PermSet.diff (s k : PermSet) : PermSet := PermSet.ofFn fun n => s.has n && !k.has n

/-- Every permission of `s` is in `t`. -/
def PermSet.subset (s t : PermSet) : Bool := Perm.all.all fun n => !s.has n || t.has n

/-- The permissions a P field grants, one case for each of the six formats (R70 to R76): Sealing (P[4:3] = 00),
Executable (01), Cap WO (10000), Data RW (100 with P[1:0] not 00), Cap RO (101), Cap RW (11). -/
def decodeP (p : BitVec 5) : PermSet :=
  if p.extractLsb' 3 2 = 0b00#2 then
    { PermSet.empty with sdp0 := p.getLsbD 2, se := p.getLsbD 1, us := p.getLsbD 0 }
  else if p.extractLsb' 3 2 = 0b01#2 then
    { PermSet.empty with
      r := true, c := true, x := true, asr := p.getLsbD 2, lm := p.getLsbD 1, lg := p.getLsbD 0 }
  else if p.extractLsb' 3 2 = 0b11#2 then
    { PermSet.empty with
      r := true, w := true, c := true, sl := p.getLsbD 2, lm := p.getLsbD 1, lg := p.getLsbD 0 }
  else if p.getLsbD 2 then
    { PermSet.empty with r := true, c := true, lm := p.getLsbD 1, lg := p.getLsbD 0 }
  else if p.extractLsb' 0 2 = 0b00#2 then
    { PermSet.empty with w := true, c := true }
  else
    { PermSet.empty with r := p.getLsbD 1, w := p.getLsbD 0 }

/-- The P field for a permission set: the first of the six steps of R81 whose condition holds; permissions the chosen
format cannot hold are dropped (R82). GL is no part of P. -/
def encodeP (s : PermSet) : BitVec 5 :=
  if s.x && s.r && s.c then 0b01#2 ++ BitVec.ofBool s.asr ++ BitVec.ofBool s.lm ++ BitVec.ofBool s.lg
  else if s.r && s.w && s.c then 0b11#2 ++ BitVec.ofBool s.sl ++ BitVec.ofBool s.lm ++ BitVec.ofBool s.lg
  else if s.r && s.c then 0b101#3 ++ BitVec.ofBool s.lm ++ BitVec.ofBool s.lg
  else if s.w && s.c then 0b10000#5
  else if s.r || s.w then 0b100#3 ++ BitVec.ofBool s.r ++ BitVec.ofBool s.w
  else 0b00#2 ++ BitVec.ofBool s.sdp0 ++ BitVec.ofBool s.se ++ BitVec.ofBool s.us

/-- `Perms(c)`: what P grants, and GL when G = 1; tag, type and bounds do not enter (R78). -/
def Cap.perms (c : Cap) : PermSet := { decodeP c.p with gl := c.g }

end Sys2Proof.Machine
end

