-- ==== Sys2Proof/Machine/Sealing.lean ====
section
/-! DEFINITION. The sealed type: its decoding from CT and X (R86, R87), setting it (R88), the type of a link (R89), the
types a `JALR` accepts (R91) and what an accepted target does to MIE (R92). -/

namespace Sys2Proof.Machine

/-- `zr`, register index 0 (R22). -/
def zr : RegIdx := 0

/-- `ra`, register index 1 (R23). -/
def ra : RegIdx := 1

/-- The decoded sealed type, 0 to 7 or 9 to 15: CT, plus 8 when CT is not 0 and P does not grant X (R86). -/
def Cap.sealType (c : Cap) : Nat :=
  if c.ct = 0 then 0 else if (decodeP c.p).x then c.ct.toNat else c.ct.toNat + 8

/-- A capability is unsealed when its type is 0 (R87). -/
def Cap.unsealed (c : Cap) : Bool := c.sealType == 0

/-- Setting a decoded type writes its low three bits into CT (R88). -/
def Cap.withType (c : Cap) (ty : Nat) : Cap := { c with ct := BitVec.ofNat 3 ty }

/-- The type that seals the link `JAL` and `JALR` write to `rd`, by the value MIE has when the instruction starts
(R89). -/
def linkType (rd : RegIdx) (mie : Bool) : Nat :=
  if rd = ra then (if mie then 5 else 4) else 1

/-- Whether `JALR` with these register indexes accepts a target of this type (R91). -/
def accepted (rs1 rd : RegIdx) (ty : Nat) : Bool :=
  if rd = ra then decide (ty ≤ 3)
  else if rd = zr ∧ rs1 = ra then decide (ty = 4 ∨ ty = 5)
  else decide (ty ≤ 1)

/-- MIE after a jump into an accepted target of this type (R92). -/
def newMie (ty : Nat) (mie : Bool) : Bool :=
  if ty = 2 ∨ ty = 4 then false
  else if ty = 3 ∨ ty = 5 then true
  else mie

end Sys2Proof.Machine
end

