-- ==== Sys2Proof/Machine/Bounds.lean ====
section
/-! DEFINITION. The bounds fields E, T, B: decoding base and top (R97 to R102), the representable region and changing
an address (R104, R106), and encoding a requested base and length (R107). -/

namespace Sys2Proof.Machine

/-- The exponent limit: the largest exponent stored as itself (R3). -/
def exponentLimit : Nat := 14

/-- The maximum exponent, stored as E = 15 (R3). -/
def exponentMax : Nat := 24

/-- The decoded exponent: E = 15 stands for 24 (R97). -/
def decodeExp (e : BitVec 4) : Nat := if e = 15 then exponentMax else e.toNat

/-- The decoded exponent of a capability (R97). -/
def Cap.exp (c : Cap) : Nat := decodeExp c.e

/-- `A_mid`: the nine address bits at the exponent; bits above bit 31 read 0 (R98). -/
def Cap.aMid (c : Cap) : Nat := (c.addr.toNat >>> c.exp) % 512

/-- `A_top`: the address bits above `A_mid` (R98). -/
def Cap.aTop (c : Cap) : Nat := c.addr.toNat >>> (c.exp + 9)

/-- `A_hi`: the address lies in the region above the base's (R99). -/
def Cap.aHi (c : Cap) : Nat := if c.aMid < c.b.toNat then 1 else 0

/-- `T_hi`: the top lies in the region above the base's (R99). -/
def Cap.tHi (c : Cap) : Nat := if c.t.toNat < c.b.toNat then 1 else 0

/-- The correction to the base's upper bits, `c_b = -A_hi` (R99). -/
def Cap.corrBase (c : Cap) : Int := -(c.aHi : Int)

/-- The correction to the top's upper bits, `c_t = T_hi - A_hi` (R99, as corrected by C2). -/
def Cap.corrTop (c : Cap) : Int := (c.tHi : Int) - (c.aHi : Int)

/-- The base, 32 bits: `(((A_top + c_b) * 512 + B) << e) mod 2^32` (R100). -/
def Cap.base (c : Cap) : Nat :=
  ((((c.aTop : Int) + c.corrBase) * 512 + (c.b.toNat : Int)) * ((2 ^ c.exp : Nat) : Int) % 4294967296).toNat

/-- The top, 33 bits: `(((A_top + c_t) * 512 + T) << e) mod 2^33` (R101). -/
def Cap.top (c : Cap) : Nat :=
  ((((c.aTop : Int) + c.corrTop) * 512 + (c.t.toNat : Int)) * ((2 ^ c.exp : Nat) : Int) % 8589934592).toNat

/-- `Length(c) = Top(c) - Base(c)` as an integer (R102). -/
def Cap.length (c : Cap) : Int := (c.top : Int) - (c.base : Int)

/-- `Representable(c, a)`: `Base(c) <= a < Base(c) + 2^(e+9)`, on unbounded integers (R104). -/
def Cap.representable (c : Cap) (a : Word) : Bool :=
  decide (c.base ≤ a.toNat) && decide (a.toNat < c.base + 2 ^ (c.exp + 9))

/-- `SetAddr(c, a)`: the address becomes `a`, and the tag is cleared when `a` is not representable (R106). -/
def Cap.setAddr (c : Cap) (a : Word) : Cap := { c with addr := a, tag := c.tag && c.representable a }

/-- The number of 0 bits above the highest 1 bit of a field of width `w`; `w` when the field is 0 (R107 (c)). -/
def countLeadingZeros : Nat → Nat → Nat
  | 0, _ => 0
  | w + 1, v => if v.testBit w then 0 else countLeadingZeros w v + 1

/-- Exponents above the limit jump to the maximum (R3, R107). -/
def clampExp (e : Nat) : Nat := if exponentLimit < e then exponentMax else e

/-- The candidate exponent from the length alone: `23 - clz(length[31:9])`, clamped (R107). -/
def candidateExp (len : Nat) : Nat := clampExp (23 - countLeadingZeros 23 (len >>> 9))

/-- The 10-bit base mantissa at exponent `e`: `base33[e+9 : e]` (R107). -/
def baseMantissa (base e : Nat) : Nat := (base >>> e) % 1024

/-- The 10-bit top mantissa at exponent `e`, one more when the bits below it are not all 0 (R107). -/
def topMantissa (top e : Nat) : Nat := (top >>> e) % 1024 + (if top % 2 ^ e = 0 then 0 else 1)

/-- The mantissa length does not fit nine bits: `(t - b) mod 1024 >= 512` (R107 (a), (b), as corrected by C3). -/
def mantissaOverflows (base top e : Nat) : Bool :=
  decide (512 ≤ (topMantissa top e + 1024 - baseMantissa base e) % 1024)

/-- The exponent a request is encoded with: the candidate, or the next one when rounding overflowed it (R107). -/
def encodedExp (base len : Nat) : Nat :=
  let e := candidateExp len
  if mantissaOverflows base (base + len) e then clampExp (e + 1) else e

/-- The three bounds fields (R19). -/
structure BoundsFields where
  e : BitVec 4
  t : BitVec 9
  b : BitVec 9
  deriving DecidableEq, Repr

/-- The E field for an exponent: 15 stands for 24 (R107). -/
def encodeExp (e : Nat) : BitVec 4 := if e = exponentMax then 15 else BitVec.ofNat 4 e

/-- `EncodeBounds(base, length)` (R107). -/
def encodeBounds (base len : Word) : BoundsFields :=
  let e := encodedExp base.toNat len.toNat
  { e := encodeExp e
    t := BitVec.ofNat 9 (topMantissa (base.toNat + len.toNat) e)
    b := BitVec.ofNat 9 (baseMantissa base.toNat e) }

/-- A capability with other bounds fields. -/
def Cap.withBounds (c : Cap) (f : BoundsFields) : Cap := { c with e := f.e, t := f.t, b := f.b }

end Sys2Proof.Machine
end

