-- ==== Sys2Proof/Machine/Operands.lean ====
section
/-! DEFINITION. Every operand form: general registers as capabilities and as integers (R20 to R22), the three
immediates (R56 to R58), and the permission and CSR numbering parameters (R83, R85, D21, D31). -/

namespace Sys2Proof.Machine

/-- `x[i]` as a capability; `zr` reads as NULL (R22). -/
def State.readReg (s : State) (i : RegIdx) : Cap := if i = zr then Cap.null else s.regs[i.toNat]'i.isLt

/-- `x[i] <- c`; a write to `zr` is discarded (R22). -/
def State.writeReg (s : State) (i : RegIdx) (c : Cap) : State :=
  if i = zr then s else { s with regs := s.regs.set i.toNat c i.isLt }

/-- `x[i]` as an integer operand: its address field (R20). -/
def State.readInt (s : State) (i : RegIdx) : Word := (s.readReg i).addr

/-- How far `AUIPC` shifts its immediate left: the parameter `as` = 11 (R6). -/
def auipcShift : Nat := 11

/-- The `AUIPC` offset `sext_32(imm20 @ 0b00000000000)` (R56). -/
def auipcOffset (imm : BitVec 20) : Word := (imm ++ (0 : BitVec auipcShift)).signExtend 32

/-- The I-format offset `sext_32(imm12)` (R57). -/
def iOffset (imm : BitVec 12) : Word := imm.signExtend 32

/-- The J-format offset `sext_32(imm)` (R58). -/
def jOffset (imm : BitVec 21) : Word := imm.signExtend 32

/-- A function takes different values on the entries of a list, wherever they stand. -/
def distinctOn {α β : Type} [DecidableEq β] (f : α → β) : List α → Bool
  | [] => true
  | a :: rest => rest.all (fun b => decide (f a ≠ f b)) && distinctOn f rest

/-- One injective numbering of the permissions, in the order of R69. -/
def permOrder : Perm → BitVec 5
  | .R => 0
  | .W => 1
  | .C => 2
  | .SL => 3
  | .LM => 4
  | .LG => 5
  | .X => 6
  | .ASR => 7
  | .SDP0 => 8
  | .SE => 9
  | .US => 10
  | .GL => 11

/-- `PERM_BIT`, an injective map from the permissions to bit numbers: the machine's own; the model reads one that is
not injective as the order of R69, so that what ranges over all values here is exactly the injective maps (D21, log 3). -/
def permBit : Perm → BitVec 5 :=
  if distinctOn Config.permBit Perm.all then Config.permBit else permOrder

/-- The permissions a mask names: n is named when bit `PERM_BIT(n)` is 1 (R83). -/
def permsNamed (mask : Word) : PermSet := PermSet.ofFn fun n => mask.getLsbD (permBit n).toNat

/-- The one bit of a permission in a mask, or nothing when the set does not hold it. -/
def permMaskBit (s : PermSet) (n : Perm) : Word := if s.has n then 1#32 <<< (permBit n).toNat else 0

/-- The integer whose set bits are `PERM_BIT(n)` for the permissions n of a set (R85). -/
def permMask (s : PermSet) : Word := Perm.all.foldl (fun v n => v ||| permMaskBit s n) 0

/-- The permissions `GCPERM` reports: all of them, GL only where the parameter maps it (R85). -/
def permsShown (s : PermSet) : PermSet := { s with gl := s.gl && Config.gcpermShowsGl }

/-- One injective numbering of the CSRs. -/
def csrOrder : Csr → BitVec 12
  | .mstatus => 0
  | .mtvec => 1
  | .mscratch => 2
  | .mtidc => 3
  | .mepc => 4
  | .mcause => 5
  | .mtval => 6

/-- `CSR_NUM`: the machine's own numbering, used when it is injective (D31, log 5). -/
def csrNum : Csr → BitVec 12 :=
  if distinctOn Config.csrNum Csr.all then Config.csrNum else csrOrder

/-- The CSR a number names, if it names one of those the spec describes (D31). -/
def csrOfNum (n : BitVec 12) : Option Csr := Csr.all.find? fun c => csrNum c == n

end Sys2Proof.Machine
end

