-- ==== Sys2Proof/Machine/Ops.lean ====
section
/-! DEFINITION. The named operations every meaning is written over: the pc, taking an exception and returning from one,
interrupts, the access checks, memory and tags, fetch, CSR access, and admitting a start state. -/

namespace Sys2Proof.Machine

/-! ### The program counter -/

/-- `pc`: the address of `pcc` (R24). -/
def State.pc (s : State) : Word := s.pcc.addr

/-- `pc + 4`, the next instruction's address, modulo 2^32 (R53, R47). -/
def State.nextPc (s : State) : Word := s.pcc.addr + 4

/-- `pc <- pc + 4`: the address alone changes, with no representability check (R24, D27). -/
def State.advancePc (s : State) : State := { s with pcc := { s.pcc with addr := s.nextPc } }

/-- The link capability: `pcc` at the next instruction, sealed with the link type (R90). -/
def State.linkCap (s : State) (rd : RegIdx) : Cap := (s.pcc.setAddr s.nextPc).withType (linkType rd s.mie)

/-! ### Exceptions and interrupts -/

/-- The exceptions of R117 and R118, each with what it records. -/
inductive Exc where
  /-- A jump target or a `pc` that is not a multiple of 4. -/
  | instrAddressMisaligned (target : Word)
  /-- A fetch from an unbacked address. -/
  | instrAccessFault (pc : Word)
  /-- A register index the machine has no register for. -/
  | illegalInstruction (w : Word)
  /-- A misaligned load. -/
  | loadAddressMisaligned (a : Word)
  /-- A load from an unbacked address. -/
  | loadAccessFault (a : Word)
  /-- A misaligned store. -/
  | storeAddressMisaligned (a : Word)
  /-- A store to an unbacked address. -/
  | storeAccessFault (a : Word)
  /-- A capability used as a capability that fails a check. -/
  | cheri (check : CheriCheck) (src : CapSource)
  deriving DecidableEq, Repr

/-- The value an exception writes to `mcause`, bit 31 clear (R118; CAUSE_CHERI is open, R117). -/
def Exc.cause : Exc → Word
  | .instrAddressMisaligned _ => 0
  | .instrAccessFault _ => 1
  | .illegalInstruction _ => 2
  | .loadAddressMisaligned _ => 4
  | .loadAccessFault _ => 5
  | .storeAddressMisaligned _ => 6
  | .storeAccessFault _ => 7
  | .cheri _ _ => Config.causeCheri.setWidth 32

/-- The value an exception writes to `mtval` (R118; CHERI_TVAL is open, R117). -/
def Exc.tval : Exc → Word
  | .instrAddressMisaligned target => target
  | .instrAccessFault pc => pc
  | .illegalInstruction w => w
  | .loadAddressMisaligned a => a
  | .loadAccessFault a => a
  | .storeAddressMisaligned a => a
  | .storeAccessFault a => a
  | .cheri check src => Config.cheriTval check src

/-- A capability with some low address bits cleared. DEDUCED: where a bit is really cleared the address goes through
`SetAddr`, the one way to change an address (R106); where none is, the capability is unchanged (log 16). -/
def Cap.clearLow (c : Cap) (bits : Word) : Cap :=
  if c.addr &&& bits = 0 then c else c.setAddr (c.addr &&& ~~~bits)

/-- Trap entry, for an exception or an interrupt (R121). -/
def State.trapEntry (s : State) (cause tval : Word) : State :=
  { s with
    mepc := s.pcc
    mcause := cause
    mtval := tval
    mpie := s.mie
    mie := false
    pcc := s.mtvec.clearLow 3 }

/-- Taking a synchronous exception (R121). -/
def State.takeException (s : State) (x : Exc) : State := s.trapEntry x.cause x.tval

/-- Taking an interrupt: bit 31 of the cause is set and the trap value is 0 (R121). -/
def State.takeInterrupt (s : State) (code : BitVec 31) : State := s.trapEntry (0x80000000 ||| code.setWidth 32) 0

/-- The interrupt the `IRQ` oracle presents at this instruction boundary, if any: only with MIE = 1 (R119). -/
def State.presented (s : State) : Option (BitVec 31) := if s.mie then s.irq.head?.join else none

/-- The state once the oracle's answer at this boundary is used up; with MIE = 0 nothing is asked and what is pending
stays so (R119). -/
def State.afterPoll (s : State) : State := if s.mie then { s with irq := s.irq.tail } else s

/-- Asking the `IRQ` oracle at an instruction boundary (R119). -/
def State.pollInterrupt (s : State) : Option (BitVec 31) × State := (s.presented, s.afterPoll)

/-- ASR in `Perms(pcc)`: the right to touch system registers (R29, R124). -/
def State.hasAsr (s : State) : Bool := s.pcc.perms.asr

/-- The CHERI fault of a system access without ASR (R29, R117). -/
def asrFault : Exc := .cheri .permission .pcc

/-- What `mret` does when ASR is held: `pcc <- mepc` with address bit 0 cleared, MIE from MPIE, MPIE to 1 (R122). -/
def State.returnFromTrap (s : State) : State :=
  { s with pcc := s.mepc.clearLow 1, mie := s.mpie, mpie := true }

/-- Return from trap, or the CHERI fault when ASR is missing (R122). -/
def State.trapReturn (s : State) : State :=
  if s.hasAsr then s.returnFromTrap else s.takeException asrFault

/-! ### The platform's map -/

/-- The range of `MEM_MAP` an address lies in, the first listed (R46). -/
def State.regionAt (s : State) (a : Nat) : Option Region :=
  s.plat.regions.find? fun r => decide (r.base ≤ a) && decide (a < r.base + r.size)

/-- The address is backed (R46). -/
def State.backed (s : State) (a : Nat) : Bool := (s.regionAt a).isSome

/-- The address belongs to `IO_REGIONS` (R46). -/
def State.isIo (s : State) (a : Nat) : Bool := (s.regionAt a).any (·.io)

/-- The granule an address lies in has a tag (R31, R46). DESIGN CHOICE: the range of the granule's first byte decides
for the whole granule, where `MEM_MAP` puts its bytes in different ranges (log 19). -/
def State.isTagged (s : State) (a : Nat) : Bool := (s.regionAt (8 * granule a)).any (·.tagged)

/-- Every one of n bytes from `a` upward is backed (R46). -/
def State.backedRange (s : State) (a n : Nat) : Bool :=
  (List.range n).all fun k => s.backed (wrapAddr (a + k))

/-- One of n bytes from `a` upward is in `IO_REGIONS` (R46). -/
def State.ioRange (s : State) (a n : Nat) : Bool :=
  (List.range n).any fun k => s.isIo (wrapAddr (a + k))

/-! ### Memory primitives (R38 to R42) -/

/-- One byte of memory. -/
def State.readMem (s : State) (a : Word) : Byte := s.mem.read a.toNat

/-- The tag bit of the granule an address lies in (R31). DEDUCED: a granule that `MEM_MAP` gives no tag reads as 0,
whatever `INIT_TAGS` or a start state says of it (log 19). -/
def State.tagAt (s : State) (a : Word) : Bool := s.tags.has (granule a.toNat) && s.isTagged a.toNat

/-- `MemRead(a, n)` (R38). -/
def State.memRead (s : State) (a : Word) (n : Nat) : Nat := s.mem.readLE a.toNat n

/-- `MemWrite(a, n, v)`: the bytes are stored and the tag of every granule touched is cleared (R38, R42). The map is not
asked: what a store to ROM does is open (log 32). -/
def State.memWrite (s : State) (a : Word) (n v : Nat) : State :=
  { s with
    mem := s.mem.writeLE a.toNat n v
    tags := s.tags.delGranules a.toNat n
    stored := s.stored.addRange a.toNat n }

/-- `MemReadCap(a)`, for `a` a multiple of 8: all fields as stored, and the granule's tag (R40). -/
def State.memReadCap (s : State) (a : Word) : Cap :=
  Cap.ofBits64 (s.tagAt a) (BitVec.ofNat 64 (s.memRead a 8))

/-- `MemWriteCap(a, c)`, for `a` a multiple of 8: the 64 bits and the tag together (R41). DEDUCED: where the platform
has no tag for the granule the tag is lost (log 19). -/
def State.memWriteCap (s : State) (a : Word) (c : Cap) : State :=
  { s with
    mem := s.mem.writeLE a.toNat 8 c.bits64.toNat
    tags := if c.tag && s.isTagged a.toNat then s.tags.add (granule a.toNat) else s.tags.del (granule a.toNat)
    stored := s.stored.addRange a.toNat 8 }

/-- The n bytes from `a` upward as the hart reads them, little-endian: a byte of memory as stored, a byte of
`IO_REGIONS` a free value, the next of the run's draws counted from `d` (R38, R50, U18, log 11). -/
def State.readBytes (s : State) : Nat → Nat → Nat → Nat
  | _, _, 0 => 0
  | d, a, n + 1 =>
    if s.isIo (wrapAddr a) then (Config.ioByte d).toNat + 256 * s.readBytes (d + 1) (a + 1) n
    else (s.mem.read (wrapAddr a)).toNat + 256 * s.readBytes d (a + 1) n

/-- How many of n bytes from `a` upward are in `IO_REGIONS`: the values a read draws. -/
def State.ioCount (s : State) : Nat → Nat → Nat
  | _, 0 => 0
  | a, n + 1 => (if s.isIo (wrapAddr a) then 1 else 0) + s.ioCount (a + 1) n

/-- Memory after the hart stores the low n bytes of a number from `a` upward: a byte of `IO_REGIONS` goes to the device
and changes no memory (R38, R46, log 11). DESIGN CHOICE: every other byte is written as RAM, a platform's ROM too
(R31, log 32). -/
def State.writeBytes (s : State) (m : Memory) : Nat → Nat → Nat → Memory
  | _, 0, _ => m
  | a, n + 1, v =>
    s.writeBytes (if s.isIo (wrapAddr a) then m else m.write (wrapAddr a) (BitVec.ofNat 8 v)) (a + 1) n (v / 256)

/-- A data read of n bytes as the hart sees it, of memory or of devices, byte by byte (R38, R46, R50). -/
def State.readData (s : State) (a : Word) (n : Nat) : Nat × State :=
  (s.readBytes s.draws a.toNat n, { s with draws := s.draws + s.ioCount a.toNat n })

/-- A data write of n bytes as the hart sees it, byte by byte; every granule it touches loses its tag (R42). DESIGN
CHOICE: a byte stored to a device counts as stored by the program (R52, log 12). -/
def State.writeData (s : State) (a : Word) (n v : Nat) : State :=
  { s with
    mem := s.writeBytes s.mem a.toNat n v
    tags := s.tags.delGranules a.toNat n
    stored := s.stored.addRange a.toNat n }

/-- A capability read as the hart sees it (R40); DEDUCED: one that touches a device has no tag (R115, log 11). -/
def State.readCapData (s : State) (a : Word) : Cap × State :=
  (Cap.ofBits64 (s.tagAt a && !s.ioRange a.toNat 8) (BitVec.ofNat 64 (s.readData a 8).1), (s.readData a 8).2)

/-- A capability write as the hart sees it (R41); DEDUCED: one that touches a device leaves no tag (log 11). -/
def State.writeCapData (s : State) (a : Word) (c : Cap) : State :=
  if s.ioRange a.toNat 8 then s.writeData a 8 c.bits64.toNat else s.memWriteCap a c

/-! ### Access checks (R48, R116) and instruction fetch -/

/-- The checks made when a capability is used for n bytes at `a`, in their order: tag, seal, permission, bounds; the
first that fails (R48, R116, R117). -/
def Cap.useCheck (c : Cap) (need : Perm) (a n : Nat) : Option CheriCheck :=
  if !c.tag then some .tag
  else if !c.unsealed then some .seal
  else if !c.perms.has need then some .permission
  else if decide (c.base ≤ a) && decide (a + n ≤ c.top) then none
  else some .bounds

/-- The fetch check through `pcc` (R116): the four capability checks, then alignment, then backing. -/
def State.fetchCheck (s : State) : Option Exc :=
  match s.pcc.useCheck .X s.pc.toNat 4 with
  | some check => some (.cheri check .pcc)
  | none =>
    if s.pc &&& 3 ≠ 0 then some (.instrAddressMisaligned s.pc)
    else if s.backedRange s.pc.toNat 4 then none
    else some (.instrAccessFault s.pc)

/-- What a fetch answers: a word, an exception, or bytes that may not be executed (R52). -/
inductive Fetched where
  | word (w : Word) (s : State)
  | trap (x : Exc)
  | stale
  deriving DecidableEq, Repr

/-- Fetching the instruction word at `pc` (R53, R116, R52). -/
def State.fetch (s : State) : Fetched :=
  match s.fetchCheck with
  | some x => .trap x
  | none =>
    if s.plat.fetchCoherent || !s.stored.hasRange s.pc.toNat 4 then
      .word (BitVec.ofNat 32 (s.readData s.pc 4).1) (s.readData s.pc 4).2
    else .stale

/-- The exception of a load of n bytes at `a` through register `i`, in the order of R120: the checks of R48, then
misalignment (R44), then backing (R46). -/
def State.loadCheck (s : State) (i : RegIdx) (a : Word) (n : Nat) : Option Exc :=
  match (s.readReg i).useCheck .R a.toNat n with
  | some check => some (.cheri check (.reg i))
  | none =>
    if a.toNat % n ≠ 0 then some (.loadAddressMisaligned a)
    else if s.backedRange a.toNat n then none
    else some (.loadAccessFault a)

/-- The exception of a store of n bytes at `a` through register `i` (R48, R44, R46, R120). -/
def State.storeCheck (s : State) (i : RegIdx) (a : Word) (n : Nat) : Option Exc :=
  match (s.readReg i).useCheck .W a.toNat n with
  | some check => some (.cheri check (.reg i))
  | none =>
    if a.toNat % n ≠ 0 then some (.storeAddressMisaligned a)
    else if s.backedRange a.toNat n then none
    else some (.storeAccessFault a)

/-- A capability without some permissions of P, re-encoded (R49, R81). -/
def Cap.dropPerms (c : Cap) (l : List Perm) : Cap :=
  { c with p := encodeP ((decodeP c.p).diff (PermSet.ofList l)) }

/-- What a capability load through a capability with these permissions makes of the value read (R49). -/
def loadFilter (auth : PermSet) (c : Cap) : Cap :=
  if !auth.c then { c with tag := false }
  else
    let c1 := if !auth.lm && c.tag && c.unsealed then c.dropPerms [.W, .LM] else c
    if !auth.lg && c1.tag then { c1.dropPerms [.LG] with g := false } else c1

/-- What a capability store through a capability with these permissions stores (R49). -/
def storeFilter (auth : PermSet) (c : Cap) : Cap :=
  if c.tag && (!auth.c || (!auth.sl && !c.g)) then { c with tag := false } else c

/-- Loading n bytes at `a` through register `i`: the value and the state after, or the exception (R48). -/
def State.loadData (s : State) (i : RegIdx) (a : Word) (n : Nat) : Except Exc (Nat × State) :=
  match s.loadCheck i a n with
  | some x => .error x
  | none => .ok (s.readData a n)

/-- Storing n bytes at `a` through register `i` (R48). -/
def State.storeData (s : State) (i : RegIdx) (a : Word) (n v : Nat) : Except Exc State :=
  match s.storeCheck i a n with
  | some x => .error x
  | none => .ok (s.writeData a n v)

/-- Loading a capability at `a` through register `i` (R48, R49). -/
def State.loadCap (s : State) (i : RegIdx) (a : Word) : Except Exc (Cap × State) :=
  match s.loadCheck i a 8 with
  | some x => .error x
  | none => .ok (loadFilter (s.readReg i).perms (s.readCapData a).1, (s.readCapData a).2)

/-- Storing a capability at `a` through register `i` (R48, R49). -/
def State.storeCap (s : State) (i : RegIdx) (a : Word) (c : Cap) : Except Exc State :=
  match s.storeCheck i a 8 with
  | some x => .error x
  | none => .ok (s.writeCapData a (storeFilter (s.readReg i).perms c))

/-! ### CSR access (R29) -/

/-- The value of a CSR: a capability CSR whole, a 32-bit one as an integer; the bits of `mstatus` that no source names
are a free value (R29, U21). -/
def State.csrValue (s : State) : Csr → Cap
  | .mstatus => Cap.int (mstatusWord s.mie s.mpie (Config.mstatusOther s.draws))
  | .mtvec => s.mtvec
  | .mscratch => s.mscratch
  | .mtidc => s.mtidc
  | .mepc => s.mepc
  | .mcause => Cap.int s.mcause
  | .mtval => Cap.int s.mtval

/-- A CSR replaced by a value; the bits of `mstatus` that no source names keep nothing (R29, U21). -/
def State.csrReplace (s : State) (r : Csr) (c : Cap) : State :=
  match r with
  | .mstatus => { s with mie := mstatusMie c.addr, mpie := mstatusMpie c.addr }
  | .mtvec => { s with mtvec := c }
  | .mscratch => { s with mscratch := c }
  | .mtidc => { s with mtidc := c }
  | .mepc => { s with mepc := c }
  | .mcause => { s with mcause := c.addr }
  | .mtval => { s with mtval := c.addr }

/-- Reading a CSR: ASR in `pcc` or the CHERI fault (R29); a read of `mstatus` draws a free value. -/
def State.csrRead (s : State) (r : Csr) : Except Exc (Cap × State) :=
  if s.hasAsr then .ok (s.csrValue r, if r = .mstatus then { s with draws := s.draws + 1 } else s)
  else .error asrFault

/-- Writing a CSR: ASR in `pcc` or the CHERI fault (R29). -/
def State.csrWrite (s : State) (r : Csr) (c : Cap) : Except Exc State :=
  if s.hasAsr then .ok (s.csrReplace r c) else .error asrFault

/-! ### Admitting a start state (D23) -/

/-- A tagged value no derivation makes: R = 1, or bounds the machine never produces: a top above 2^32 or below the
base, a base above the address, a B above 0xFF at E = 15 (R15, R66, U1, U3). -/
def Cap.malformed (c : Cap) : Bool :=
  c.tag && (c.r || decide (addressSpace < c.top) || decide (c.top < c.base) || decide (c.addr.toNat < c.base) ||
    (decide (c.e = 15) && decide (256 ≤ c.b.toNat)))

/-- The capabilities of the tagged granules of memory (R40). -/
def State.memCaps (s : State) : List Cap :=
  s.tags.map fun g => s.memReadCap (BitVec.ofNat 32 (8 * g))

/-- Every capability the machine holds: registers, `pcc`, the capability CSRs, tagged memory. -/
def State.caps (s : State) : List Cap :=
  s.regs.toList ++ [s.pcc, s.mtvec, s.mscratch, s.mtidc, s.mepc] ++ s.memCaps

/-- A start state, or the refusal of one that holds a malformed tagged value (R15, R66, D23). -/
def State.admitStart (s : State) : Host.Outcome State Fault Refusal :=
  if s.caps.any Cap.malformed then .refused .malformedStart else .next s

end Sys2Proof.Machine
end

