-- ==== Sys2Proof/Machine/CapabilityInstr.lean ====
section
/-! DEFINITION. The instructions that change a capability's address or bounds: AUIPC, ADDIY, SCBNDS. -/

namespace Sys2Proof.Machine

/-- The result of `AUIPC`: `SetAddr(pcc, pc + off)` (R112). -/
def auipcResult (s : State) (imm20 : BitVec 20) : Cap := s.pcc.setAddr (s.pc + auipcOffset imm20)

/-- `AUIPC`: add an upper immediate to `pcc` (R112). -/
def execAuipc (rd : RegIdx) (imm20 : BitVec 20) (s : State) : Host.Outcome State Fault Refusal :=
  .next (s.writeReg rd (auipcResult s imm20)).advancePc

/-- The result of `ADDIY` on a source: `SetAddr`, and a tagged sealed source whose address changes loses its tag
(R110). -/
def addiyResult (c : Cap) (imm12 : BitVec 12) : Cap :=
  let r := c.setAddr (c.addr + iOffset imm12)
  if c.tag && !c.unsealed && decide (r.addr ≠ c.addr) then { r with tag := false } else r

/-- `ADDIY`: add a 12-bit immediate to the address of a capability (R110). -/
def execAddiy (rd rs1 : RegIdx) (imm12 : BitVec 12) (s : State) : Host.Outcome State Fault Refusal :=
  .next (s.writeReg rd (addiyResult (s.readReg rs1) imm12)).advancePc

/-- The request `[addr, addr + len)` lies in the source's bounds (R109). -/
def requestInBounds (c : Cap) (len : Word) : Bool :=
  decide (c.base ≤ c.addr.toNat) && decide (c.addr.toNat + len.toNat ≤ c.top)

/-- The result of `SCBNDS` on a source and a length (R109). -/
def scbndsResult (c : Cap) (len : Word) : Cap :=
  { c.withBounds (encodeBounds c.addr len) with tag := c.tag && c.unsealed && requestInBounds c len }

/-- `SCBNDS`: set the bounds of a capability to start at its address, with a given length (R109). -/
def execScbnds (rd rs1 rs2 : RegIdx) (s : State) : Host.Outcome State Fault Refusal :=
  .next (s.writeReg rd (scbndsResult (s.readReg rs1) (s.readInt rs2))).advancePc

end Sys2Proof.Machine
end

