-- ==== Sys2Proof/Machine/JumpInstr.lean ====
section
/-! DEFINITION. The control transfers: JAL, JALR. -/

namespace Sys2Proof.Machine

/-- The target of `JAL`: `pc + sext(imm)` modulo 2^32 (R93). -/
def jalTarget (s : State) (imm : BitVec 21) : Word := s.pc + jOffset imm

/-- `JAL`: jump and link, pc-relative; a target that is not a multiple of 4 raises, and then nothing is written
(R93). -/
def execJal (rd : RegIdx) (imm : BitVec 21) (s : State) : Host.Outcome State Fault Refusal :=
  if jalTarget s imm &&& 3 ≠ 0 then .next (s.takeException (.instrAddressMisaligned (jalTarget s imm)))
  else .next { s.writeReg rd (s.linkCap rd) with pcc := s.pcc.setAddr (jalTarget s imm) }

/-- The target of `JALR`: `rs1.addr + sext(imm12)` modulo 2^32, bit 0 cleared (R94). -/
def jalrTarget (t : Cap) (imm12 : BitVec 12) : Word := (t.addr + iOffset imm12) &&& ~~~1

/-- Whether `JALR` accepts its target: tagged, of a type the register indexes accept, and a sentry only at its own
address (R91, R94). -/
def jalrOk (rd rs1 : RegIdx) (t : Cap) (imm12 : BitVec 12) : Bool :=
  t.tag && accepted rs1 rd t.sealType && (t.unsealed || decide (imm12 = 0))

/-- The capability `JALR` installs as `pcc`: the target unsealed at the target address, untagged when not accepted
(R94). -/
def jalrPcc (rd rs1 : RegIdx) (t : Cap) (imm12 : BitVec 12) : Cap :=
  let c := (t.withType 0).setAddr (jalrTarget t imm12)
  if jalrOk rd rs1 t imm12 then c else { c with tag := false }

/-- MIE after `JALR`: changed only when the target is accepted (R92, D8, log 15). -/
def jalrMie (rd rs1 : RegIdx) (t : Cap) (imm12 : BitVec 12) (mie : Bool) : Bool :=
  if jalrOk rd rs1 t imm12 then newMie t.sealType mie else mie

/-- `JALR`: jump and link through a capability register; the target is read before the link is written (R94). -/
def execJalr (rd rs1 : RegIdx) (imm12 : BitVec 12) (s : State) : Host.Outcome State Fault Refusal :=
  if jalrTarget (s.readReg rs1) imm12 &&& 3 ≠ 0 then
    .next (s.takeException (.instrAddressMisaligned (jalrTarget (s.readReg rs1) imm12)))
  else
    .next { s.writeReg rd (s.linkCap rd) with
      pcc := jalrPcc rd rs1 (s.readReg rs1) imm12
      mie := jalrMie rd rs1 (s.readReg rs1) imm12 s.mie }

end Sys2Proof.Machine
end

