-- ==== Sys2Proof/Machine/PermissionInstr.lean ====
section
/-! DEFINITION. The instructions on permissions: CLRPERM, GCPERM. -/

namespace Sys2Proof.Machine

/-- A capability with the permissions of a set cleared: P re-encoded from what is left of the eleven, G cleared when GL
is named (R83). -/
def Cap.clearPerms (c : Cap) (k : PermSet) : Cap :=
  { c with p := encodeP ((decodeP c.p).diff k), g := if k.gl then false else c.g }

/-- The result of `CLRPERM` on a source and the set the mask names: a tagged sealed source that would change loses its
tag (R83). -/
def clrpermResult (c : Cap) (k : PermSet) : Cap :=
  let r := c.clearPerms k
  if c.tag && !c.unsealed && decide (r ≠ c) then { r with tag := false } else r

/-- `CLRPERM`: clear permissions of a capability (R83). -/
def execClrperm (rd rs1 rs2 : RegIdx) (s : State) : Host.Outcome State Fault Refusal :=
  .next (s.writeReg rd (clrpermResult (s.readReg rs1) (permsNamed (s.readInt rs2)))).advancePc

/-- `GCPERM`: get the permissions of a capability as an integer (R85). -/
def execGcperm (rd rs1 : RegIdx) (s : State) : Host.Outcome State Fault Refusal :=
  .next (s.writeReg rd (Cap.int (permMask (permsShown (s.readReg rs1).perms)))).advancePc

end Sys2Proof.Machine
end

