-- ==== Sys2Proof/Machine/Dispatch.lean ====
section
/-! DEFINITION. One arm per instruction of the opcode table, each a call of its meaning. -/

namespace Sys2Proof.Machine

def exec (i : Instr) (s : State) : Host.Outcome State Fault Refusal :=
  match i with
  | .auipc rd imm20 => Sys2Proof.Machine.execAuipc rd imm20 s
  | .jal rd imm => Sys2Proof.Machine.execJal rd imm s
  | .jalr rd rs1 imm12 => Sys2Proof.Machine.execJalr rd rs1 imm12 s
  | .addiy rd rs1 imm12 => Sys2Proof.Machine.execAddiy rd rs1 imm12 s
  | .scbnds rd rs1 rs2 => Sys2Proof.Machine.execScbnds rd rs1 rs2 s
  | .clrperm rd rs1 rs2 => Sys2Proof.Machine.execClrperm rd rs1 rs2 s
  | .gcperm rd rs1 => Sys2Proof.Machine.execGcperm rd rs1 s

end Sys2Proof.Machine
end

