-- ==== Sys2Proof/WellFormed.lean ====
section
/-! DEFINITION. When an instruction is well-formed: its register fields name registers the machine has (R55), and a
jump offset is even (R58). -/

namespace Sys2Proof

/-- The register index exists on a machine with this many registers (R21, R55). -/
def RegCount.admits (n : RegCount) (i : RegIdx) : Bool :=
  decide (i.toNat < 16) || decide (n = .x32)

/-- The register fields of an instruction, in the order it lists them. -/
def Instr.regFields : Instr → List RegIdx
  | .auipc rd _ => [rd]
  | .jal rd _ => [rd]
  | .jalr rd rs1 _ => [rd, rs1]
  | .addiy rd rs1 _ => [rd, rs1]
  | .scbnds rd rs1 rs2 => [rd, rs1, rs2]
  | .clrperm rd rs1 rs2 => [rd, rs1, rs2]
  | .gcperm rd rs1 => [rd, rs1]

/-- Every register field names a register of the machine; where one does not, the instruction is illegal (R55). -/
def Instr.regsExist (n : RegCount) (i : Instr) : Bool :=
  i.regFields.all n.admits

/-- The immediate is one an instruction word can hold: a J-format offset is even (R58). -/
def Instr.immOk : Instr → Bool
  | .auipc _ _ => true
  | .jal _ imm => !imm.getLsbD 0
  | .jalr _ _ _ => true
  | .addiy _ _ _ => true
  | .scbnds _ _ _ => true
  | .clrperm _ _ _ => true
  | .gcperm _ _ => true

/-- A well-formed instruction of a machine with `n` registers. -/
def Instr.wf (n : RegCount) (i : Instr) : Bool :=
  i.regsExist n && i.immOk

end Sys2Proof
end

