-- ==== Sys2Proof/Machine/Step.lean ====
section
/-! DEFINITION. One step of the machine: an interrupt, or a fetch, a decode and an instruction, in the order of R120;
and placing an instruction where the next fetch reads it. -/

namespace Sys2Proof.Machine

/-- Running a fetched word under a given `ENC`: refused when it matches no row (R61), an illegal-instruction exception
when a register index has no register (R55), otherwise the instruction. -/
def runWordWith (enc : Enc) (w : Word) (s : State) : Host.Outcome State Fault Refusal :=
  match decodeWith enc w with
  | .error _ => .refused (.unknownWord w)
  | .ok i => if i.regsExist s.plat.nregs then exec i s else .next (s.takeException (.illegalInstruction w))

/-- One step under a given `ENC`, in the order of R120: a pending enabled interrupt, the fetch check, the word. -/
def stepWith (enc : Enc) (s : State) : Host.Outcome State Fault Refusal :=
  match s.pollInterrupt with
  | (some code, s1) => .next (s1.takeInterrupt code)
  | (none, s1) =>
    match s1.fetch with
    | .trap x => .next (s1.takeException x)
    | .stale => .refused (.staleFetch s1.pc)
    | .word w s2 => runWordWith enc w s2

/-- One step of the machine. -/
def step (s : State) : Host.Outcome State Fault Refusal := stepWith machineEnc s

/-- The state with an instruction's four bytes stored at `pc`, where the next fetch reads them: a write from outside
the program, so the tags of the granules it touches are cleared (R42) and the bytes do not count as stored by the
program (R52, log 25). -/
def State.withFetchWord (s : State) (nbits w : Nat) : State :=
  { s with
    mem := s.mem.writeLE s.pc.toNat 4 (tableWord nbits w).toNat
    tags := s.tags.delGranules s.pc.toNat 4
    stored := s.stored.delRange s.pc.toNat 4 }

end Sys2Proof.Machine
end

