-- ==== Sys2Proof/Safety.lean ====
section
/-! DEFINITION. What a safe state and a safe step are, in the terms the statements use: sound capabilities, canonical
storage, derived authority, and the two ways a step takes a trap. -/

namespace Sys2Proof.Machine

/-- What every tagged capability a program can hold satisfies: R = 0, an address at or above the base, a base not above
the top, a top not above 2^32, no B above 0xFF at E = 15 (R15, R66, R106, U1, U3). -/
abbrev Cap.sound (c : Cap) : Prop :=
  c.tag = true → c.r = false ∧ c.base ≤ c.addr.toNat ∧ c.base ≤ c.top ∧ c.top ≤ addressSpace ∧
    (c.e = 15 → c.b.toNat < 256)

/-- What `pcc` and `mepc` satisfy: as `Cap.sound`, but the unchecked advance past the last word of the address space can
leave an address below the base, which the next fetch check refuses (R24, D27, log 17). -/
abbrev Cap.pcSound (c : Cap) : Prop :=
  c.tag = true → c.r = false ∧ c.top ≤ addressSpace ∧ (c.e = 15 → c.b.toNat < 256)

/-- Every tagged capability of the machine is sound (R15, R66, R106). -/
structure State.Sound (s : State) : Prop where
  regs : ∀ i : RegIdx, (s.readReg i).sound
  pcc : s.pcc.pcSound
  mepc : s.mepc.pcSound
  mtvec : s.mtvec.sound
  mscratch : s.mscratch.sound
  mtidc : s.mtidc.sound
  mem : ∀ c ∈ s.memCaps, c.sound

/-- Memory and the sets of granules and addresses are in canonical form. -/
structure State.Canonical (s : State) : Prop where
  mem : s.mem.wf = true
  tags : s.tags.wf granules = true
  stored : s.stored.wf addressSpace = true

/-- Every capability a program or a trap can reach: the readable registers, `pcc`, the capability CSRs, tagged memory. -/
def State.holds (s : State) (c : Cap) : Prop :=
  (∃ i : RegIdx, c = s.readReg i) ∨ c = s.pcc ∨ c = s.mepc ∨ c = s.mtvec ∨ c = s.mscratch ∨ c = s.mtidc ∨ c ∈ s.memCaps

/-- The authority of a capability lies inside another's: no permission more, no byte more (R115). -/
abbrev Cap.within (c d : Cap) : Prop :=
  c.perms.subset d.perms = true ∧ d.base ≤ c.base ∧ c.top ≤ d.top

/-- The system state an instruction leaves alone: everything but the registers, `pcc`, MIE and memory. -/
structure State.SameSystem (s t : State) : Prop where
  mpie : t.mpie = s.mpie
  mtvec : t.mtvec = s.mtvec
  mscratch : t.mscratch = s.mscratch
  mtidc : t.mtidc = s.mtidc
  mepc : t.mepc = s.mepc
  mcause : t.mcause = s.mcause
  mtval : t.mtval = s.mtval
  stored : t.stored = s.stored
  irq : t.irq = s.irq
  draws : t.draws = s.draws
  plat : t.plat = s.plat

/-- Every byte of memory and every tag reads as before. -/
structure State.SameMemory (s t : State) : Prop where
  bytes : ∀ a : Word, t.readMem a = s.readMem a
  tags : ∀ a : Word, t.tagAt a = s.tagAt a

/-- From `s` to `t`, `x[rd]` became `c` (nothing is written for `zr`, R22), every other register, the system state but
MIE and `pcc`, and all of memory stayed. -/
structure State.WroteOnly (s t : State) (rd : RegIdx) (c : Cap) : Prop where
  result : t.readReg rd = if rd = zr then Cap.null else c
  others : ∀ j : RegIdx, j ≠ rd → t.readReg j = s.readReg j
  sys : s.SameSystem t
  memory : s.SameMemory t

/-- Nothing can be fetched through a capability: it is untagged, sealed, not executable, or does not cover the four
bytes at its address (R116, R123). -/
def Cap.unusable (c : Cap) : Prop :=
  c.tag = false ∨ c.sealType ≠ 0 ∨ c.perms.x = false ∨ c.addr.toNat < c.base ∨ c.top < c.addr.toNat + 4

/-- From `s` to `t` a trap was entered with this cause and value, and nothing else changed (R121). -/
structure State.Trapped (s t : State) (cause tval : Word) : Prop where
  mepc : t.mepc = s.pcc
  mcause : t.mcause = cause
  mtval : t.mtval = tval
  saved : t.mpie = s.mie
  masked : t.mie = false
  handler : t.pcc = { s.mtvec with addr := s.mtvec.addr &&& ~~~3, tag := t.pcc.tag }
  handlerTag : t.pcc.tag = true → s.mtvec.tag = true
  alignedHandler : s.mtvec.addr &&& 3 = 0 → t.pcc = s.mtvec
  regs : ∀ j : RegIdx, t.readReg j = s.readReg j
  mtvec : t.mtvec = s.mtvec
  mscratch : t.mscratch = s.mscratch
  mtidc : t.mtidc = s.mtidc
  stored : t.stored = s.stored
  irq : t.irq = s.irq
  draws : t.draws = s.draws
  plat : t.plat = s.plat
  memory : s.SameMemory t

/-- The step from `s` to `t` took an exception (R121). -/
def tookException (s t : State) : Prop := ∃ x : Exc, t = s.takeException x

/-- The step from `s` to `t` took an interrupt (R121). -/
def tookInterrupt (s t : State) : Prop := ∃ code : BitVec 31, t = s.takeInterrupt code

end Sys2Proof.Machine
end

