-- ==== Sys2Proof/Certificates/Slice0/Obligations.lean ====
section
/-! DEFINITION. The statements for the provers. -/

open Sys2Proof Sys2Proof.Machine

/-! ### Encoding -/

/-- For every well-formed ENC, decoding an encoded instruction gives it back, every operand at every value its field
holds (formats of R54 and R55, patterns of R59 and R60). What makes an ENC well-formed is the model's choice (log 2). -/
def Obligations.DecodeAfterEncode : Prop :=
  ∀ (enc : Enc) (i : Instr) (w : Word),
    enc.ok = true → i.immOk = true → encodeWith enc i = some w → decodeWith enc w = .ok i

/-- Every word that decodes to AUIPC, JAL or JALR is the one word the encoder writes for it: no bit of it is lost
(R54, R58, R59). -/
def Obligations.EncodeAfterDecode : Prop :=
  ∀ (enc : Enc) (i : Instr) (w : Word), decodeWith enc w = .ok i →
    (auipcPattern.matches w = true ∨ jalPattern.matches w = true ∨ jalrPattern.matches w = true) →
      encodeWith enc i = some w ∧ i.immOk = true

/-- No word is an instruction of two rows: under a well-formed ENC any two patterns of the table that match one word
are the same row (R59, R60). What makes an ENC well-formed is the model's choice (log 2). -/
def Obligations.RowsShareNoWord : Prop :=
  ∀ (enc : Enc) (w : Word), enc.ok = true →
    let rows := [auipcPattern.matches w, jalPattern.matches w, jalrPattern.matches w,
      Pattern.matchesOpt enc.addiy w, Pattern.matchesOpt enc.scbnds w, Pattern.matchesOpt enc.clrperm w,
      Pattern.matchesOpt enc.gcperm w]
    (rows.filter fun b => b).length ≤ 1

/-- Words written out from the formats of R54 and the opcodes of R59 decode to the instructions they stand for: the
words of 95_test_vectors.md V-A1, V-J1 and P3, under every ENC. -/
def Obligations.WrittenWordsDecode : Prop :=
  ∀ enc : Enc,
    decodeWith enc 0x7FFFF517 = .ok (.auipc 10 0x7FFFF) ∧
    decodeWith enc 0xFF1FF06F = .ok (.jal 0 (BitVec.ofInt 21 (-16))) ∧
    decodeWith enc 0x701030EF = .ok (.jal 1 16128) ∧
    decodeWith enc 0x000280E7 = .ok (.jalr 1 5 0) ∧
    decodeWith enc 0x00008067 = .ok (.jalr 0 1 0)

/-- A step runs the decoded instruction: with no interrupt presented, the fetch check passed and memory at `pc`, when
the four bytes there decode to an instruction whose registers exist, the step is exec of it at the state with the
oracle's answer used up (R116, R53, R120). An answer is used up only with MIE = 1, and an answer that presents nothing
does not stop the instruction (R119). -/
def Obligations.StepRunsDecodedInstruction : Prop :=
  (∀ (enc : Enc) (s : State) (i : Instr),
    s.presented = none → s.fetchCheck = none → s.ioRange s.pc.toNat 4 = false →
    (s.plat.fetchCoherent = true ∨ s.stored.hasRange s.pc.toNat 4 = false) →
    decode enc [s.readMem s.pc, s.readMem (s.pc + 1), s.readMem (s.pc + 2), s.readMem (s.pc + 3)] = .ok (i, []) →
    i.regsExist s.plat.nregs = true → stepWith enc s = exec i s.afterPoll) ∧
  (∀ s : State, (s.mie = false ∨ s.irq = []) → s.presented = none ∧ s.afterPoll = s) ∧
  (∀ (s : State) (rest : List (Option (BitVec 31))), s.mie = true → s.irq = none :: rest →
    s.presented = none ∧ s.afterPoll = { s with irq := rest }) ∧
  ∀ s : State, step s = stepWith machineEnc s

/-- A fetched word that matches no row of the opcode table is refused, not trapped: the spec's own decision D32 in R61,
which the model follows (log 23). -/
def Obligations.UnmatchedWordIsRefused : Prop :=
  ∀ (enc : Enc) (s : State) (w : Word),
    s.presented = none → s.fetchCheck = none → s.ioRange s.pc.toNat 4 = false →
    (s.plat.fetchCoherent = true ∨ s.stored.hasRange s.pc.toNat 4 = false) →
    decode enc [s.readMem s.pc, s.readMem (s.pc + 1), s.readMem (s.pc + 2), s.readMem (s.pc + 3)] = .error (.noRow w) →
    stepWith enc s = .refused (.unknownWord w)

/-- With 16 registers, an index of 16 or more in any register field takes the illegal-instruction exception, cause 2,
with the instruction word as its trap value (R55, R118). -/
def Obligations.MissingRegisterIsIllegal : Prop :=
  ∀ (enc : Enc) (s : State) (i : Instr),
    s.presented = none → s.fetchCheck = none → s.ioRange s.pc.toNat 4 = false →
    (s.plat.fetchCoherent = true ∨ s.stored.hasRange s.pc.toNat 4 = false) →
    decode enc [s.readMem s.pc, s.readMem (s.pc + 1), s.readMem (s.pc + 2), s.readMem (s.pc + 3)] = .ok (i, []) →
    s.plat.nregs = .x16 → (∃ r ∈ i.regFields, 16 ≤ r.toNat) →
    ∃ t, stepWith enc s = .next t ∧
      s.afterPoll.Trapped t 2 (wordOfBytes (s.readMem s.pc) (s.readMem (s.pc + 1)) (s.readMem (s.pc + 2)) (s.readMem (s.pc + 3)))

/-! ### Permissions -/

/-- The six formats of the P field: which permissions each grants, and that it grants nothing else. -/
def Obligations.PermissionFormats : Prop :=
  ∀ (p : BitVec 5) (n : Perm), (decodeP p).has n = true ↔
    (p.extractLsb' 3 2 = 0 ∧
      ((n = .SDP0 ∧ p.getLsbD 2) ∨ (n = .SE ∧ p.getLsbD 1) ∨ (n = .US ∧ p.getLsbD 0))) ∨
    (p.extractLsb' 3 2 = 1 ∧
      (n = .R ∨ n = .C ∨ n = .X ∨ (n = .ASR ∧ p.getLsbD 2) ∨ (n = .LM ∧ p.getLsbD 1) ∨ (n = .LG ∧ p.getLsbD 0))) ∨
    (p = 16 ∧ (n = .W ∨ n = .C)) ∨
    (p.extractLsb' 2 3 = 4 ∧ p.extractLsb' 0 2 ≠ 0 ∧ ((n = .R ∧ p.getLsbD 1) ∨ (n = .W ∧ p.getLsbD 0))) ∨
    (p.extractLsb' 2 3 = 5 ∧ (n = .R ∨ n = .C ∨ (n = .LM ∧ p.getLsbD 1) ∨ (n = .LG ∧ p.getLsbD 0))) ∨
    (p.extractLsb' 3 2 = 3 ∧
      (n = .R ∨ n = .W ∨ n = .C ∨ (n = .SL ∧ p.getLsbD 2) ∨ (n = .LM ∧ p.getLsbD 1) ∨ (n = .LG ∧ p.getLsbD 0)))

/-- The six steps that turn a permission set into a P field, the first whose condition holds, bit by bit (R81). -/
def Obligations.SixPermissionEncodingSteps : Prop :=
  ∀ s : PermSet,
    let p := encodeP s
    let exe := s.x = true ∧ s.r = true ∧ s.c = true
    let rwc := s.r = true ∧ s.w = true ∧ s.c = true
    let rc := s.r = true ∧ s.c = true
    let wc := s.w = true ∧ s.c = true
    (exe → p.extractLsb' 3 2 = 1 ∧ p.getLsbD 2 = s.asr ∧ p.getLsbD 1 = s.lm ∧ p.getLsbD 0 = s.lg) ∧
    (¬exe → rwc → p.extractLsb' 3 2 = 3 ∧ p.getLsbD 2 = s.sl ∧ p.getLsbD 1 = s.lm ∧ p.getLsbD 0 = s.lg) ∧
    (¬exe → ¬rwc → rc → p.extractLsb' 2 3 = 5 ∧ p.getLsbD 1 = s.lm ∧ p.getLsbD 0 = s.lg) ∧
    (¬exe → ¬rwc → ¬rc → wc → p = 16) ∧
    (¬exe → ¬rwc → ¬rc → ¬wc → (s.r = true ∨ s.w = true) →
      p.extractLsb' 2 3 = 4 ∧ p.getLsbD 1 = s.r ∧ p.getLsbD 0 = s.w) ∧
    (¬exe → ¬rwc → ¬rc → ¬wc → ¬(s.r = true ∨ s.w = true) →
      p.extractLsb' 3 2 = 0 ∧ p.getLsbD 2 = s.sdp0 ∧ p.getLsbD 1 = s.se ∧ p.getLsbD 0 = s.us)

/-- Encoding a permission set never adds a permission, and a set that has an encoding keeps it; so the 32 decoded sets
are pairwise different (R82 (a), (b), R77). -/
def Obligations.EncodingPermissionsNeverAdds : Prop :=
  (∀ (x : PermSet) (n : Perm), (decodeP (encodeP x)).has n = true → x.has n = true) ∧
  (∀ p : BitVec 5, encodeP (decodeP p) = p) ∧
  ∀ p q : BitVec 5, (∀ n : Perm, (decodeP p).has n = (decodeP q).has n) → p = q

/-- What no P value grants: every permission at once, a sealing permission beside any other, X beside W (R79). -/
def Obligations.PermissionsThatExclude : Prop :=
  ∀ p : BitVec 5,
    (∃ n, n ≠ .GL ∧ (decodeP p).has n = false) ∧
    (∀ n m, (n = .SDP0 ∨ n = .SE ∨ n = .US) → (m ≠ .SDP0 ∧ m ≠ .SE ∧ m ≠ .US) →
      (decodeP p).has n = true → (decodeP p).has m = false) ∧
    ((decodeP p).has .X = true → (decodeP p).has .W = false ∧ (decodeP p).has .R = true ∧ (decodeP p).has .C = true) ∧
    ((decodeP p).has .C = true → (decodeP p).has .R = true ∨ (decodeP p).has .W = true) ∧
    ((decodeP p).has .SL = true → (decodeP p).has .R = true ∧ (decodeP p).has .W = true ∧ (decodeP p).has .C = true) ∧
    ((decodeP p).has .LM = true ∨ (decodeP p).has .LG = true → (decodeP p).has .R = true ∧ (decodeP p).has .C = true) ∧
    ((decodeP p).has .ASR = true → (decodeP p).has .X = true)

/-- Every permission set of a capability lies inside a root's (R80). -/
def Obligations.RootsHoldEveryPermissionSet : Prop :=
  ∀ c : Cap,
    c.perms.subset rootSeal.perms = true ∨ c.perms.subset rootExec.perms = true ∨ c.perms.subset rootRw.perms = true

/-! ### Bounds -/

/-- The decoded bounds field by field, for exponents up to 14: the low e bits are 0, the mantissa stands above them,
and the upper field is the corrected address part, 23 - e bits wide for the base and 24 - e for the top (R100, R101). -/
def Obligations.BoundsFieldByField : Prop :=
  ∀ c : Cap, c.exp ≤ 14 →
    c.base % 2 ^ c.exp = 0 ∧ c.base / 2 ^ c.exp % 512 = c.b.toNat ∧
    ((c.base / 2 ^ (c.exp + 9) : Nat) : Int) = ((c.aTop : Int) - c.aHi) % (2 ^ (23 - c.exp) : Nat) ∧
    c.top % 2 ^ c.exp = 0 ∧ c.top / 2 ^ c.exp % 512 = c.t.toNat ∧
    ((c.top / 2 ^ (c.exp + 9) : Nat) : Int) = ((c.aTop : Int) + c.tHi - c.aHi) % (2 ^ (24 - c.exp) : Nat)

/-- At the maximum exponent the corrections are lost: the base is `B[7:0] << 24` and the top `T << 24` (R100, R101). -/
def Obligations.BoundsAtMaximumExponent : Prop :=
  ∀ c : Cap, c.e = 15 → c.base = (c.b.toNat % 256) * 2 ^ 24 ∧ c.top = c.t.toNat * 2 ^ 24

/-- Inside the representable region, replacing the address leaves base and top unchanged; one below the base, for
exponents up to 14, it does not (R104). -/
def Obligations.RepresentableAddressKeepsBounds : Prop :=
  ∀ (c : Cap) (a : Word), c.representable c.addr = true →
    (c.representable a = true → (c.setAddr a).base = c.base ∧ (c.setAddr a).top = c.top) ∧
    (c.exp ≤ 14 → 0 < c.base → a.toNat = c.base - 1 → c.representable a = false ∧ (c.setAddr a).base ≠ c.base)

/-- Every address from the base to the top, both inclusive, is representable, and the length of a capability whose own
address is representable is `((T - B) mod 512) << e` for exponents up to 14 (R102, R105). -/
def Obligations.TopIsRepresentable : Prop :=
  ∀ c : Cap, c.representable c.addr = true →
    (∀ a : Word, c.base ≤ a.toNat → a.toNat ≤ c.top → c.representable a = true) ∧
    (c.exp ≤ 14 → c.length = (((c.t.toNat : Int) - c.b.toNat) % 512) * (2 ^ c.exp : Nat))

/-- What `EncodeBounds` gives for any request: bounds that are the request rounded outward to multiples of 2^e (the top
modulo 2^33, which only matters past 2^32), so that they contain a request inside the address space; an address that is
representable; an exponent that is stored, decodes to itself, and is the smallest whose rounded length fits nine bits
(R107, R108 (1) to (5)). The top of a request past 2^32 is what R101 gives; the remark of R108 (7) on it fails in one
corner (log 31). -/
def Obligations.EncodedBoundsCoverRequest : Prop :=
  ∀ (base len : Word) (c : Cap),
    let e := encodedExp base.toNat len.toNat
    let d := { c.withBounds (encodeBounds base len) with addr := base }
    let roundedTop := (base.toNat + len.toNat + 2 ^ e - 1) / 2 ^ e * 2 ^ e
    d.exp = e ∧ (e ≤ 14 ∨ e = 24) ∧
    d.base = base.toNat / 2 ^ e * 2 ^ e ∧
    d.top = roundedTop % 2 ^ 33 ∧
    (base.toNat + len.toNat ≤ 2 ^ 32 →
      d.base ≤ base.toNat ∧ base.toNat + len.toNat ≤ d.top ∧ d.top = roundedTop ∧ d.top ≤ 2 ^ 32) ∧
    d.representable base = true ∧
    roundedTop - d.base ≤ 511 * 2 ^ e ∧
    ∀ f : Nat, f ≤ 14 → f < e →
      511 < (base.toNat + len.toNat + 2 ^ f - 1) / 2 ^ f - base.toNat / 2 ^ f

/-- `SCBNDS` never widens: a tagged result of a sound source covers the request and lies inside the source's bounds,
rounding included; and a request past the end of the address space gets no tag (R108 (1), (6) and (7), R109). -/
def Obligations.ScbndsStaysInsideSource : Prop :=
  ∀ (c : Cap) (len : Word), c.sound →
    ((scbndsResult c len).tag = true →
      c.base ≤ (scbndsResult c len).base ∧ (scbndsResult c len).base ≤ c.addr.toNat ∧
      c.addr.toNat + len.toNat ≤ (scbndsResult c len).top ∧ (scbndsResult c len).top ≤ c.top) ∧
    (2 ^ 32 < c.addr.toNat + len.toNat → (scbndsResult c len).tag = false)

/-! ### The instructions: result, frame and completion -/

/-- AUIPC completes in every state: `x[rd]` becomes `pcc` with the address `pc + simm20 * 2048` modulo 2^32, tagged
exactly when `pcc` is and the address is representable; the pc advances by 4; nothing else changes (R112, R56). -/
def Obligations.AuipcResultAndFrame : Prop :=
  ∀ (s : State) (rd : RegIdx) (imm : BitVec 20), ∃ (t : State) (c : Cap),
    exec (.auipc rd imm) s = .next t ∧ s.WroteOnly t rd c ∧ t.mie = s.mie ∧
    t.pcc = { s.pcc with addr := s.pc + 4 } ∧
    (c.addr.toNat : Int) = ((s.pc.toNat : Int) + imm.toInt * 2048) % 2 ^ 32 ∧
    (c.tag = true ↔ s.pcc.tag = true ∧ s.pcc.base ≤ c.addr.toNat ∧ c.addr.toNat < s.pcc.base + 2 ^ (s.pcc.exp + 9)) ∧
    c = { s.pcc with addr := c.addr, tag := c.tag }

/-- ADDIY completes in every state: `x[rd]` becomes the source with `simm12` added to its address modulo 2^32, tagged
exactly when the source is, the new address is representable in it, and it is unsealed or its address did not change;
the pc advances by 4; nothing else changes (R110, R57, R106). -/
def Obligations.AddiyResultAndFrame : Prop :=
  ∀ (s : State) (rd rs1 : RegIdx) (imm : BitVec 12), ∃ (t : State) (c : Cap),
    exec (.addiy rd rs1 imm) s = .next t ∧ s.WroteOnly t rd c ∧ t.mie = s.mie ∧
    t.pcc = { s.pcc with addr := s.pc + 4 } ∧
    (c.addr.toNat : Int) = (((s.readReg rs1).addr.toNat : Int) + imm.toInt) % 2 ^ 32 ∧
    (c.tag = true ↔ (s.readReg rs1).tag = true ∧ (s.readReg rs1).base ≤ c.addr.toNat ∧
      c.addr.toNat < (s.readReg rs1).base + 2 ^ ((s.readReg rs1).exp + 9) ∧
      ((s.readReg rs1).sealType = 0 ∨ c.addr = (s.readReg rs1).addr)) ∧
    c = { s.readReg rs1 with addr := c.addr, tag := c.tag }

/-- SCBNDS completes in every state: `x[rd]` becomes the source with the bounds fields encoded from its address and the
length in `rs2`, tagged exactly when the source is, is unsealed, and contains the request; the pc advances by 4;
nothing else changes (R109). -/
def Obligations.ScbndsResultAndFrame : Prop :=
  ∀ (s : State) (rd rs1 rs2 : RegIdx), ∃ (t : State) (c : Cap),
    exec (.scbnds rd rs1 rs2) s = .next t ∧ s.WroteOnly t rd c ∧ t.mie = s.mie ∧
    t.pcc = { s.pcc with addr := s.pc + 4 } ∧
    (⟨c.e, c.t, c.b⟩ : BoundsFields) = encodeBounds (s.readReg rs1).addr (s.readReg rs2).addr ∧
    (c.tag = true ↔ (s.readReg rs1).tag = true ∧ (s.readReg rs1).sealType = 0 ∧
      (s.readReg rs1).base ≤ (s.readReg rs1).addr.toNat ∧
      (s.readReg rs1).addr.toNat + (s.readReg rs2).addr.toNat ≤ (s.readReg rs1).top) ∧
    c = { s.readReg rs1 with e := c.e, t := c.t, b := c.b, tag := c.tag }

/-- CLRPERM completes in every state: `x[rd]` becomes the source with P re-encoded from what the mask in `rs2` leaves
and G cleared when GL is named; it holds no permission that was named or that the source lacked; its tag is cleared
exactly when a tagged sealed source would change; the pc advances by 4; nothing else changes (R83, R81). -/
def Obligations.ClrpermResultAndFrame : Prop :=
  ∀ (s : State) (rd rs1 rs2 : RegIdx), ∃ (t : State) (c : Cap),
    exec (.clrperm rd rs1 rs2) s = .next t ∧ s.WroteOnly t rd c ∧ t.mie = s.mie ∧
    t.pcc = { s.pcc with addr := s.pc + 4 } ∧
    c.p = encodeP ((decodeP (s.readReg rs1).p).diff (permsNamed (s.readReg rs2).addr)) ∧
    (∀ n : Perm, c.perms.has n = true →
      (s.readReg rs1).perms.has n = true ∧ (s.readReg rs2).addr.getLsbD (permBit n).toNat = false) ∧
    (c.g = true ↔ (s.readReg rs1).g = true ∧ (s.readReg rs2).addr.getLsbD (permBit .GL).toNat = false) ∧
    (c.tag = true ↔ (s.readReg rs1).tag = true ∧
      ((s.readReg rs1).sealType = 0 ∨ (c.p = (s.readReg rs1).p ∧ c.g = (s.readReg rs1).g))) ∧
    c = { s.readReg rs1 with p := c.p, g := c.g, tag := c.tag }

/-- GCPERM completes in every state: `x[rd]` becomes the integer whose bit `PERM_BIT(n)` says whether the source holds
n (GL only where the parameter maps it), every other bit 0, whatever the source's tag and type; the pc advances by 4;
nothing else changes (R85, R78). That `permBit` is injective is how the model reads PERM_BIT (log 3). -/
def Obligations.GcpermResultAndFrame : Prop :=
  ∀ (s : State) (rd rs1 : RegIdx), ∃ (t : State) (v : Word),
    exec (.gcperm rd rs1) s = .next t ∧ s.WroteOnly t rd (Cap.int v) ∧ t.mie = s.mie ∧
    t.pcc = { s.pcc with addr := s.pc + 4 } ∧
    (∀ n : Perm, n ≠ .GL → v.getLsbD (permBit n).toNat = (decodeP (s.readReg rs1).p).has n) ∧
    v.getLsbD (permBit .GL).toNat = ((s.readReg rs1).g && Config.gcpermShowsGl) ∧
    ∀ k : Nat, (∀ n : Perm, (permBit n).toNat ≠ k) → v.getLsbD k = false

/-- JAL to a target that is a multiple of 4 completes: `x[rd]` becomes the link capability (`pcc` at `pc + 4` with the
link type's low three bits in CT), `pcc` becomes `pcc` at the target, each tagged exactly when `pcc` is and the new
address is representable; MIE and everything else stay (R93, R90, R58). -/
def Obligations.JalResultAndFrame : Prop :=
  ∀ (s : State) (rd : RegIdx) (imm : BitVec 21), ((s.pc.toNat : Int) + imm.toInt) % 4 = 0 →
    ∃ (t : State) (c : Cap), exec (.jal rd imm) s = .next t ∧ s.WroteOnly t rd c ∧ t.mie = s.mie ∧
      (t.pcc.addr.toNat : Int) = ((s.pc.toNat : Int) + imm.toInt) % 2 ^ 32 ∧
      (t.pcc.tag = true ↔ s.pcc.tag = true ∧ s.pcc.base ≤ t.pcc.addr.toNat ∧
        t.pcc.addr.toNat < s.pcc.base + 2 ^ (s.pcc.exp + 9)) ∧
      t.pcc = { s.pcc with addr := t.pcc.addr, tag := t.pcc.tag } ∧
      (c.tag = true ↔ s.pcc.tag = true ∧ s.pcc.base ≤ (s.pc + 4).toNat ∧
        (s.pc + 4).toNat < s.pcc.base + 2 ^ (s.pcc.exp + 9)) ∧
      c = { s.pcc with
            addr := s.pc + 4
            tag := c.tag
            ct := if rd = ra then (if s.mie then 5 else 4) else 1 }

/-- JAL to a target that is not a multiple of 4 takes InstructionAddressMisaligned, cause 0, with the target as its
trap value, and writes no register (R93, R118, R121). -/
def Obligations.JalMisalignedTargetTraps : Prop :=
  ∀ (s : State) (rd : RegIdx) (imm : BitVec 21), ((s.pc.toNat : Int) + imm.toInt) % 4 ≠ 0 →
    ∃ (t : State) (target : Word), exec (.jal rd imm) s = .next t ∧ s.Trapped t 0 target ∧
      (target.toNat : Int) = ((s.pc.toNat : Int) + imm.toInt) % 2 ^ 32

/-- JALR to a target that is a multiple of 4 (bit 0 cleared) completes: `x[rd]` becomes the link capability; `pcc`
becomes the target capability unsealed at the target address, tagged exactly when the target is tagged, of a type the
register indexes accept, unsealed or entered with offset 0, and representable there; MIE changes only for an accepted
target, to 0 for types 2 and 4 and to 1 for types 3 and 5; everything else stays (R94, R90, R91, R92). That MIE stays
for a refused target is the spec's own decision D8 (log 15). -/
def Obligations.JalrResultAndFrame : Prop :=
  ∀ (s : State) (rd rs1 : RegIdx) (imm : BitVec 12),
    (((s.readReg rs1).addr.toNat : Int) + imm.toInt) / 2 % 2 = 0 →
    ∃ (t : State) (c : Cap), exec (.jalr rd rs1 imm) s = .next t ∧ s.WroteOnly t rd c ∧
      (let g := s.readReg rs1
       let ok := g.tag = true ∧
         ((rd = ra ∧ g.sealType ≤ 3) ∨ (rd = zr ∧ rs1 = ra ∧ (g.sealType = 4 ∨ g.sealType = 5)) ∨
          (rd ≠ ra ∧ ¬(rd = zr ∧ rs1 = ra) ∧ g.sealType ≤ 1)) ∧
         (g.sealType = 0 ∨ imm = 0)
       (t.pcc.addr.toNat : Int) = ((g.addr.toNat : Int) + imm.toInt) / 2 * 2 % 2 ^ 32 ∧
       (t.pcc.tag = true ↔ ok ∧ g.base ≤ t.pcc.addr.toNat ∧ t.pcc.addr.toNat < g.base + 2 ^ (g.exp + 9)) ∧
       t.pcc = { g with addr := t.pcc.addr, tag := t.pcc.tag, ct := 0 } ∧
       (ok → (g.sealType = 2 ∨ g.sealType = 4) → t.mie = false) ∧
       (ok → (g.sealType = 3 ∨ g.sealType = 5) → t.mie = true) ∧
       (¬ok ∨ g.sealType ≤ 1 → t.mie = s.mie)) ∧
      (c.tag = true ↔ s.pcc.tag = true ∧ s.pcc.base ≤ (s.pc + 4).toNat ∧
        (s.pc + 4).toNat < s.pcc.base + 2 ^ (s.pcc.exp + 9)) ∧
      c = { s.pcc with
            addr := s.pc + 4
            tag := c.tag
            ct := if rd = ra then (if s.mie then 5 else 4) else 1 }

/-- JALR to a target that is not a multiple of 4 takes InstructionAddressMisaligned with the target (bit 0 cleared) as
its trap value, and writes no register (R94, R118, R121). -/
def Obligations.JalrMisalignedTargetTraps : Prop :=
  ∀ (s : State) (rd rs1 : RegIdx) (imm : BitVec 12),
    (((s.readReg rs1).addr.toNat : Int) + imm.toInt) / 2 % 2 ≠ 0 →
    ∃ (t : State) (target : Word), exec (.jalr rd rs1 imm) s = .next t ∧ s.Trapped t 0 target ∧
      (target.toNat : Int) = (((s.readReg rs1).addr.toNat : Int) + imm.toInt) / 2 * 2 % 2 ^ 32

/-! ### Sentries and MIE -/

/-- The decoded type: 0 for CT = 0, CT where P grants X, CT + 8 where it does not; so 0 to 7 or 9 to 15, and X is
granted exactly when P[4:3] = 01 (R86). -/
def Obligations.SealTypeOfCapability : Prop :=
  ∀ c : Cap,
    (c.ct = 0 → c.sealType = 0) ∧
    (c.ct ≠ 0 → (decodeP c.p).has .X = true → c.sealType = c.ct.toNat) ∧
    (c.ct ≠ 0 → (decodeP c.p).has .X = false → c.sealType = c.ct.toNat + 8) ∧
    ((decodeP c.p).has .X = true ↔ c.p.extractLsb' 3 2 = 1) ∧
    c.sealType ≤ 15 ∧ c.sealType ≠ 8

/-- The link JAL and JALR write is sealed by the destination index and by MIE when the instruction starts: type 1 for a
register that is not `ra`, 4 for `ra` with MIE 0, 5 for `ra` with MIE 1; `zr` discards it (R89; `pcc` grants X while
an instruction executes, R116). -/
def Obligations.LinkSealedByInterruptStance : Prop :=
  ∀ (s t : State) (rd : RegIdx) (i : Instr),
    (decodeP s.pcc.p).has .X = true →
    ((∃ imm, i = .jal rd imm ∧ jalTarget s imm &&& 3 = 0) ∨
     (∃ rs1 imm, i = .jalr rd rs1 imm ∧ jalrTarget (s.readReg rs1) imm &&& 3 = 0)) →
    exec i s = .next t →
    (rd ≠ zr → (t.readReg rd).sealType = if rd ≠ ra then 1 else if s.mie then 5 else 4) ∧
    (rd = zr → t.readReg rd = Cap.null)

/-- A target of a type the table does not accept is still installed, with its tag cleared, and the next fetch, if no
interrupt comes before it, takes the CHERI fault (tag, `pcc`) (R91, R116, R117). -/
def Obligations.UnacceptedTargetLeadsToTrap : Prop :=
  ∀ (enc : Enc) (s : State) (rd rs1 : RegIdx) (imm : BitVec 12),
    jalrTarget (s.readReg rs1) imm &&& 3 = 0 →
    ((rd = ra ∧ 3 < (s.readReg rs1).sealType) ∨
     (rd = zr ∧ rs1 = ra ∧ (s.readReg rs1).sealType ≠ 4 ∧ (s.readReg rs1).sealType ≠ 5) ∨
     (rd ≠ ra ∧ ¬(rd = zr ∧ rs1 = ra) ∧ 1 < (s.readReg rs1).sealType)) →
    ∃ t, exec (.jalr rd rs1 imm) s = .next t ∧ t.pcc.tag = false ∧ t.pcc.addr = jalrTarget (s.readReg rs1) imm ∧
      (t.presented = none → stepWith enc t = .next (t.afterPoll.takeException (.cheri .tag .pcc)))

/-- A call keeps the caller's interrupt stance: whatever happened in between, if `ra` still holds the link of an
accepted call, `jalr zr, 0(ra)` returns to the instruction after the call with MIE as it was at the call (R95). -/
def Obligations.CallThenReturnRestoresStance : Prop :=
  ∀ (s t u : State) (rs1 : RegIdx) (imm : BitVec 12),
    s.pcc.tag = true → s.pcc.ct = 0 → (decodeP s.pcc.p).has .X = true → s.pc &&& 3 = 0 →
    s.pcc.base ≤ s.pc.toNat → s.pc.toNat + 4 ≤ s.pcc.top → s.pc.toNat + 4 < 2 ^ 32 →
    jalrTarget (s.readReg rs1) imm &&& 3 = 0 →
    exec (.jalr ra rs1 imm) s = .next t → u.readReg ra = t.readReg ra →
    ∃ v, exec (.jalr zr ra 0) u = .next v ∧ v.mie = s.mie ∧ v.pcc = { s.pcc with addr := s.pc + 4 }

/-- The same-sign split of a pc-relative offset keeps the tag: AUIPC then ADDIY with the offset divided toward zero by
2048 gives `pcc` at the target, tagged, when `pc` and the target lie inside `pcc`'s bounds (R128, R111). -/
def Obligations.SameSignSplitReachesTarget : Prop :=
  ∀ (s t u : State) (rd1 rd2 : RegIdx) (d : Int),
    rd1 ≠ zr → rd2 ≠ zr → s.pcc.tag = true → s.pcc.ct = 0 → s.pcc.top ≤ 2 ^ 32 →
    -2 ^ 30 ≤ d → d < 2 ^ 30 →
    s.pcc.base ≤ s.pc.toNat → s.pc.toNat < s.pcc.top →
    (s.pcc.base : Int) ≤ s.pc.toNat + d → (s.pc.toNat : Int) + d < s.pcc.top →
    exec (.auipc rd1 (BitVec.ofInt 20 (d.tdiv 2048))) s = .next t →
    exec (.addiy rd2 rd1 (BitVec.ofInt 12 (d.tmod 2048))) t = .next u →
    (u.readReg rd2).tag = true ∧ ((u.readReg rd2).addr.toNat : Int) = s.pc.toNat + d ∧
      (u.readReg rd2).base = s.pcc.base ∧ (u.readReg rd2).top = s.pcc.top

/-- MIE changes only where it may: a step that changes MIE took a trap (and cleared it), or ran a JALR whose target is
tagged, of type 2 to 5, and of a type its register indexes accept (R119, R124, R92). For a refused target this is the
spec's own decision D8 (log 15). -/
def Obligations.OnlySentriesAndTrapsChangeMie : Prop :=
  ∀ s t : State, step s = .next t → t.mie ≠ s.mie →
    (t.mie = false ∧ t.mpie = s.mie ∧ t.mepc = s.pcc) ∨
    ∃ (w : Word) (u : State) (rd rs1 : RegIdx) (imm : BitVec 12),
      s.pollInterrupt.2.fetch = .word w u ∧ decodeWord w = .ok (.jalr rd rs1 imm) ∧
      (s.readReg rs1).tag = true ∧ 2 ≤ (s.readReg rs1).sealType ∧ (s.readReg rs1).sealType ≤ 5 ∧
      accepted rs1 rd (s.readReg rs1).sealType = true

/-! ### Traps and interrupts -/

/-- The fetch check takes the first failing check, in the order tag, seal, permission, bounds, alignment, backing, and
the trap saves `pcc` whole and enters the handler (R116, R117, R118, R120, R121). -/
def Obligations.FetchCheckTakesFirstFailure : Prop :=
  ∀ (enc : Enc) (s : State), s.presented = none →
    let c := s.pcc
    let fault (check : CheriCheck) : Prop := ∃ t, stepWith enc s = .next t ∧
      s.afterPoll.Trapped t (Config.causeCheri.setWidth 32) (Config.cheriTval check .pcc)
    (c.tag = false → fault .tag) ∧
    (c.tag = true → c.sealType ≠ 0 → fault .seal) ∧
    (c.tag = true → c.sealType = 0 → c.perms.x = false → fault .permission) ∧
    (c.tag = true → c.sealType = 0 → c.perms.x = true →
      ¬(c.base ≤ s.pc.toNat ∧ s.pc.toNat + 4 ≤ c.top) → fault .bounds) ∧
    (c.tag = true → c.sealType = 0 → c.perms.x = true → c.base ≤ s.pc.toNat → s.pc.toNat + 4 ≤ c.top →
      (s.pc.toNat % 4 ≠ 0 → ∃ t, stepWith enc s = .next t ∧ s.afterPoll.Trapped t 0 s.pc) ∧
      (s.pc.toNat % 4 = 0 → s.backedRange s.pc.toNat 4 = false →
        ∃ t, stepWith enc s = .next t ∧ s.afterPoll.Trapped t 1 s.pc))

/-- With MIE = 1 an interrupt the oracle presents is taken before the instruction: bit 31 of `mcause` is set, `mtval`
is 0, `mepc` gets `pcc`, MPIE gets 1, MIE is cleared (R119, R120, R121). -/
def Obligations.PresentedInterruptIsTaken : Prop :=
  ∀ (enc : Enc) (s : State) (code : BitVec 31) (rest : List (Option (BitVec 31))),
    s.mie = true → s.irq = some code :: rest →
    ∃ t, stepWith enc s = .next t ∧ ({ s with irq := rest } : State).Trapped t (BitVec.ofNat 32 (2 ^ 31 + code.toNat)) 0 ∧
      t.mpie = true ∧ t.irq = rest

/-- With MIE = 0 nothing is taken and nothing the oracle would present matters: the step from the same state with any
other pending answers gives the same next state but for those answers, which stay pending (R119, R130). -/
def Obligations.MaskedInterruptsStayPending : Prop :=
  ∀ (enc : Enc) (s t : State) (pending : List (Option (BitVec 31))),
    s.mie = false → stepWith enc s = .next t →
    t.irq = s.irq ∧ stepWith enc { s with irq := pending } = .next { t with irq := pending }

/-- Return from trap with ASR in `pcc`: `pcc` becomes the whole of `mepc` (its address bit 0 cleared, no tag gained), MIE becomes MPIE and MPIE 1;
without ASR it takes the CHERI fault (permission, `pcc`) (R122). -/
def Obligations.TrapReturnNeedsAsr : Prop :=
  ∀ s : State,
    (s.pcc.perms.asr = true →
      s.trapReturn.mie = s.mpie ∧ s.trapReturn.mpie = true ∧
      s.trapReturn.pcc = { s.mepc with addr := s.mepc.addr &&& ~~~1, tag := s.trapReturn.pcc.tag } ∧
      (s.trapReturn.pcc.tag = true → s.mepc.tag = true) ∧
      (s.mepc.addr &&& 1 = 0 → s.trapReturn.pcc = s.mepc) ∧ s.trapReturn.mepc = s.mepc ∧
      (∀ i, s.trapReturn.readReg i = s.readReg i) ∧ s.SameMemory s.trapReturn) ∧
    (s.pcc.perms.asr = false →
      s.Trapped s.trapReturn (Config.causeCheri.setWidth 32) (Config.cheriTval .permission .pcc))

/-- With a trap vector through which nothing can be fetched (untagged, sealed, not executable, or out of bounds) the
machine takes traps for ever and never stops: from a `pcc` that is unusable too, every step enters a trap, and from the
second on it is the CHERI fault of the handler's own fetch (R123, U20). How the vector's two low address bits are
cleared is the model's reading (log 16). -/
def Obligations.UnusableVectorTrapsForEver : Prop :=
  ∀ (k : Nat) (s : State), (s.mtvec.clearLow 3).unusable → s.pcc.unusable →
    ∃ (u t : State) (cause tval : Word),
      Host.Core.run Sys2Proof.core k s = .next u ∧ Host.Core.run Sys2Proof.core (k + 1) s = .next t ∧
      u.afterPoll.Trapped t cause tval ∧ t.pcc = s.mtvec.clearLow 3 ∧ t.mtvec = s.mtvec ∧
      (∀ i, t.readReg i = s.readReg i) ∧
      (0 < k → u.pcc = s.mtvec.clearLow 3 ∧ u.mie = false ∧ cause = Config.causeCheri.setWidth 32)

/-! ### CSRs -/

/-- A CSR access needs ASR in `pcc`: without it, the CHERI fault; with it, a write replaces the register and a read of
a capability CSR returns the whole capability, of `mstatus` the MIE and MPIE bits in places 3 and 7 (R29, R25, R30).
That a 32-bit CSR takes the address of the written capability, its integer value by R20, and reads back as that integer
is the model's choice (log 20). -/
def Obligations.CsrAccessNeedsAsr : Prop :=
  ∀ (s : State) (r : Csr) (c : Cap),
    (s.pcc.perms.asr = false →
      s.csrRead r = .error (.cheri .permission .pcc) ∧ s.csrWrite r c = .error (.cheri .permission .pcc)) ∧
    (s.pcc.perms.asr = true → ∃ t, s.csrWrite r c = .ok t ∧ s.SameMemory t ∧ (∀ i, t.readReg i = s.readReg i) ∧
      ∃ p, t.csrRead r = .ok p ∧
        ((r = .mtvec ∨ r = .mscratch ∨ r = .mtidc ∨ r = .mepc) → p.1 = c) ∧
        ((r = .mcause ∨ r = .mtval) → p.1 = Cap.int c.addr) ∧
        (r = .mstatus → p.1.addr.getLsbD 3 = c.addr.getLsbD 3 ∧ p.1.addr.getLsbD 7 = c.addr.getLsbD 7 ∧
          t.mie = c.addr.getLsbD 3 ∧ t.mpie = c.addr.getLsbD 7))

/-! ### Memory, loads and stores -/

/-- Little-endian memory: after `MemWrite(a, n, v)` byte k of `v` is at `a + k`, every byte outside is unchanged, and
`MemRead(a, n)` gives the low n bytes of `v` (R38). The map is not asked: what ROM does is open (log 32). -/
def Obligations.MemWriteThenRead : Prop :=
  ∀ (s : State) (a : Word) (n v : Nat), s.Canonical → n ≤ 8 →
    (s.memWrite a n v).memRead a n = v % 256 ^ n ∧
    (∀ k, k < n → (s.memWrite a n v).readMem (a + BitVec.ofNat 32 k) = BitVec.ofNat 8 (v / 256 ^ k)) ∧
    ∀ x : Word, (∀ k, k < n → x ≠ a + BitVec.ofNat 32 k) → (s.memWrite a n v).readMem x = s.readMem x

/-- `MemWrite`, and the data write the hart makes of a store, clear the tag of every granule they touch and of no other,
so no bytes written forge a capability; and neither `MemRead` nor the hart's data read sees a tag (R42). That a byte
stored to a device clears its granule's tag too is the model's reading (log 11). -/
def Obligations.DataWriteClearsTags : Prop :=
  ∀ (s : State) (a : Word) (n v : Nat), s.Canonical →
    (∀ x : Word, (∃ k, k < n ∧ x.toNat / 8 = (a + BitVec.ofNat 32 k).toNat / 8) →
      (s.memWrite a n v).tagAt x = false ∧ (s.writeData a n v).tagAt x = false) ∧
    (∀ x : Word, (∀ k, k < n → x.toNat / 8 ≠ (a + BitVec.ofNat 32 k).toNat / 8) →
      (s.memWrite a n v).tagAt x = s.tagAt x ∧ (s.writeData a n v).tagAt x = s.tagAt x) ∧
    ∀ (tags : NatSet), ({ s with tags := tags } : State).memRead a n = s.memRead a n ∧
      (({ s with tags := tags } : State).readData a n).1 = (s.readData a n).1

/-- A capability stored at a multiple of 8 in tagged memory loads back whole, its R bit and its tag included, and no
byte outside its eight and no other granule's tag changes (R40, R41, R43, R39). The order of the bits in memory is the
spec's own decision D1 (log 13). -/
def Obligations.CapabilityStoreThenLoad : Prop :=
  ∀ (s : State) (a : Word) (c : Cap), s.Canonical → a.toNat % 8 = 0 → s.isTagged a.toNat = true →
    (s.memWriteCap a c).memReadCap a = c ∧
    (∀ x : Word, x.toNat / 8 ≠ a.toNat / 8 →
      (s.memWriteCap a c).readMem x = s.readMem x ∧ (s.memWriteCap a c).tagAt x = s.tagAt x) ∧
    (s.memWriteCap a c).memRead a 4 = c.addr.toNat ∧ (s.memWriteCap a c).memRead (a + 4) 4 = c.metaWord.toNat

/-- A load of 1, 2 or 4 bytes, or of a capability, answers exactly when its base register is tagged, unsealed, grants
R and covers the bytes, and the address is aligned and backed; otherwise it reports the first failing check,
misalignment with cause 4 and an unbacked address with cause 5, the address as trap value (R48, R44, R46, R118, R120).
Each byte outside `IO_REGIONS` is memory's, whatever the others are (R50); that a capability load that touches a
device has no tag is the model's reading (log 11). The access check is the spec's decision D28 from general knowledge,
unverified by its own G7: PRESUMED (log 22). -/
def Obligations.LoadReportsFirstFailure : Prop :=
  ∀ (s : State) (i : RegIdx) (a : Word) (n : Nat), (n = 1 ∨ n = 2 ∨ n = 4 ∨ n = 8) →
    let c := s.readReg i
    let covers := c.base ≤ a.toNat ∧ a.toNat + n ≤ c.top
    let fails (x : Exc) : Prop := if n = 8 then s.loadCap i a = .error x else s.loadData i a n = .error x
    ((Exc.loadAddressMisaligned a).cause = 4 ∧ (Exc.loadAccessFault a).cause = 5 ∧
      (Exc.loadAddressMisaligned a).tval = a ∧ (Exc.loadAccessFault a).tval = a) ∧
    (c.tag = false → fails (.cheri .tag (.reg i))) ∧
    (c.tag = true → c.sealType ≠ 0 → fails (.cheri .seal (.reg i))) ∧
    (c.tag = true → c.sealType = 0 → c.perms.r = false → fails (.cheri .permission (.reg i))) ∧
    (c.tag = true → c.sealType = 0 → c.perms.r = true → ¬covers → fails (.cheri .bounds (.reg i))) ∧
    (c.tag = true → c.sealType = 0 → c.perms.r = true → covers → a.toNat % n ≠ 0 → fails (.loadAddressMisaligned a)) ∧
    (c.tag = true → c.sealType = 0 → c.perms.r = true → covers → a.toNat % n = 0 →
      (s.backedRange a.toNat n = false → fails (.loadAccessFault a)) ∧
      (s.backedRange a.toNat n = true →
        (s.ioRange a.toNat n = false →
          if n = 8 then s.loadCap i a = .ok (loadFilter c.perms (s.memReadCap a), s)
          else s.loadData i a n = .ok (s.memRead a n, s)) ∧
        (n ≠ 8 → ∃ (v : Nat) (t : State), s.loadData i a n = .ok (v, t) ∧ (∀ j, t.readReg j = s.readReg j) ∧
          s.SameMemory t ∧
          ∀ k, k < n → s.isIo (a + BitVec.ofNat 32 k).toNat = false →
            BitVec.ofNat 8 (v / 256 ^ k) = s.readMem (a + BitVec.ofNat 32 k)) ∧
        (n = 8 → ∃ (d : Cap) (t : State), s.loadCap i a = .ok (d, t) ∧ (∀ j, t.readReg j = s.readReg j) ∧
          s.SameMemory t ∧ (s.ioRange a.toNat 8 = true → d.tag = false))))

/-- A store of n bytes that answers was authorised by a tagged, unsealed register that grants W and covers the bytes;
it changes no register and no byte outside the n bytes at `a`, and clears the tag of every granule it touches and of
no other (R42; for a device's bytes log 11). And with that authority, an aligned store of 1, 2 or 4 bytes to backed
memory answers, and every byte that is no device's is there (R48, R38, R44, R50). The access check is the spec's
decision D28 from general knowledge, unverified by its own G7: PRESUMED (log 22). That ROM is written as RAM is the
model's choice (log 32). -/
def Obligations.StoreIsAuthorisedAndLocal : Prop :=
  ∀ (s : State) (i : RegIdx) (a : Word) (n v : Nat),
    let c := s.readReg i
    let allowed := c.tag = true ∧ c.sealType = 0 ∧ c.perms.w = true ∧ c.base ≤ a.toNat ∧ a.toNat + n ≤ c.top ∧
      a.toNat % n = 0 ∧ s.backedRange a.toNat n = true
    (∀ t, s.storeData i a n v = .ok t →
      allowed ∧ (∀ j, t.readReg j = s.readReg j) ∧ t.pcc = s.pcc ∧
      (∀ x : Word, (∀ k, k < n → x ≠ a + BitVec.ofNat 32 k) → t.readMem x = s.readMem x) ∧
      (s.Canonical →
        (∀ x : Word, (∃ k, k < n ∧ x.toNat / 8 = (a + BitVec.ofNat 32 k).toNat / 8) → t.tagAt x = false) ∧
        ∀ x : Word, (∀ k, k < n → x.toNat / 8 ≠ (a + BitVec.ofNat 32 k).toNat / 8) → t.tagAt x = s.tagAt x)) ∧
    (s.Canonical → (n = 1 ∨ n = 2 ∨ n = 4) → allowed →
      ∃ t, s.storeData i a n v = .ok t ∧ (s.ioRange a.toNat n = false → t.memRead a n = v % 256 ^ n) ∧
        ∀ k, k < n → s.isIo (a + BitVec.ofNat 32 k).toNat = false →
          t.readMem (a + BitVec.ofNat 32 k) = BitVec.ofNat 8 (v / 256 ^ k))

/-- What a capability load through a register leaves of a tagged value: no tag without C; without LM neither W nor LM
(if unsealed); without LG neither GL nor LG; and never a permission the stored value lacked (R49). That a device gives
no tag is the model's reading (log 11). What C, LM and LG do is the spec's decision D28 from general knowledge,
unverified by its own G7: PRESUMED (log 22). -/
def Obligations.LoadedCapabilityIsFiltered : Prop :=
  ∀ (s t : State) (i : RegIdx) (a : Word) (c : Cap), s.loadCap i a = .ok (c, t) → c.tag = true →
    (s.readReg i).perms.r = true ∧ (s.readReg i).perms.c = true ∧
    ((s.readReg i).perms.lm = false → c.sealType = 0 → c.perms.w = false ∧ c.perms.lm = false) ∧
    ((s.readReg i).perms.lg = false → c.perms.gl = false ∧ c.perms.lg = false) ∧
    (s.memReadCap a).tag = true ∧ c.perms.subset (s.memReadCap a).perms = true

/-- What a capability store puts into memory: a tagged value loses its tag through a register without C, and a local
one through a register without SL; otherwise memory holds the value whole. No register, no byte outside the eight, and
no other granule's tag changes (R49, R41). That a store that touches a device, or a granule the map gives no tag,
leaves no tag is the model's reading (logs 11, 19). What C and SL do is the spec's decision D28 from general
knowledge, unverified by its own G7: PRESUMED (log 22). That ROM is written as RAM is the model's choice (log 32). -/
def Obligations.StoredCapabilityIsFiltered : Prop :=
  ∀ (s t : State) (i : RegIdx) (a : Word) (c : Cap), s.Canonical → s.storeCap i a c = .ok t →
    let kept := c.tag = true ∧ (s.readReg i).perms.c = true ∧ ((s.readReg i).perms.sl = true ∨ c.g = true)
    (s.readReg i).perms.w = true ∧ a.toNat % 8 = 0 ∧
    (∀ j, t.readReg j = s.readReg j) ∧ t.pcc = s.pcc ∧
    (∀ x : Word, x.toNat / 8 ≠ a.toNat / 8 → t.readMem x = s.readMem x ∧ t.tagAt x = s.tagAt x) ∧
    (t.tagAt a = true ↔ kept ∧ s.isTagged a.toNat = true ∧ s.ioRange a.toNat 8 = false) ∧
    (∀ k, k < 8 → s.isIo (a + BitVec.ofNat 32 k).toNat = false →
      t.readMem (a + BitVec.ofNat 32 k) = BitVec.ofNat 8 (c.bits64.toNat / 256 ^ k)) ∧
    (s.ioRange a.toNat 8 = false → (t.memReadCap a).bits64 = c.bits64 ∧
      (s.isTagged a.toNat = true → ((t.memReadCap a).tag = true ↔ kept)))

/-! ### Reset -/

/-- At reset `mtvec` holds the Executable root, `mscratch` the Sealing root and `mtidc` the RW root, field by field,
whatever the parameters (R34, R35, R36). -/
def Obligations.ResetPlacesRoots : Prop :=
  ∀ (plat : Platform) (pcAddr : Word) (initMem : List Host.Cell) (initTags : List Nat),
    let s := State.resetWith plat pcAddr initMem initTags
    s.mtvec = ⟨true, false, true, 0b01111, 0, 0xF, 0x100, 0, 0⟩ ∧
    s.mscratch = ⟨true, false, true, 0b00111, 0, 0xF, 0x100, 0, 0⟩ ∧
    s.mtidc = ⟨true, false, true, 0b11111, 0, 0xF, 0x100, 0, 0⟩ ∧
    s.mtvec.perms = PermSet.ofList [.X, .R, .C, .LM, .LG, .ASR, .GL] ∧
    s.mscratch.perms = PermSet.ofList [.SDP0, .SE, .US, .GL] ∧
    s.mtidc.perms = PermSet.ofList [.W, .R, .C, .LM, .LG, .SL, .GL]

/-- The first fetch after reset passes for every reset address that is a multiple of 4 and backed, and for no other:
the Executable root at any address is tagged, unsealed, executable, and covers [0, 2^32) (R33, R116). -/
def Obligations.FirstFetchAfterReset : Prop :=
  ∀ (plat : Platform) (pcAddr : Word) (initMem : List Host.Cell) (initTags : List Nat),
    let s := State.resetWith plat pcAddr initMem initTags
    s.pcc.base = 0 ∧ s.pcc.top = 2 ^ 32 ∧ (∀ a : Word, s.pcc.representable a = true) ∧
    (s.fetchCheck = none ↔ pcAddr.toNat % 4 = 0 ∧ s.backedRange pcAddr.toNat 4 = true)

/-- The only tagged capabilities the reset machine holds are the three roots, with no initial tags (R37, R115).
Registers with no reset value hold NULL by the model's choice (logs 7, 8). -/
def Obligations.OnlyRootsAtReset : Prop :=
  ∀ c : Cap, State.reset.holds c → c.tag = true → c = rootExec ∨ c = rootSeal ∨ c = rootRw

/-- A start state is refused exactly when it holds a tagged value with R = 1 or with bounds the machine never produces
(a top above 2^32 or below the base, a base above the address, a B above 0xFF at E = 15), and the reset state is
admitted (R15, R66). That reset is admitted rests on the model's NULL registers (logs 7, 8). -/
def Obligations.MalformedStartIsRefused : Prop :=
  (∀ s : State, s.admitStart = .refused .malformedStart ↔
    ∃ c ∈ s.caps, c.tag = true ∧
      (c.r = true ∨ 2 ^ 32 < c.top ∨ c.top < c.base ∨ c.addr.toNat < c.base ∨ (c.e = 15 ∧ 255 < c.b.toNat))) ∧
  State.reset.admitStart = .next State.reset

/-- A start state that is admitted has sound capabilities, so that the invariant of every step holds from it (R15,
R66). -/
def Obligations.AdmittedStartIsSound : Prop :=
  ∀ s : State, s.admitStart = .next s → s.Sound

/-! ### Whole-machine invariants -/

/-- Every step keeps every tagged capability sound: R = 0, the address at or above the base, the base not above the
top, the top not above 2^32, no B above 0xFF at E = 15; of `pcc` and `mepc`, whose address can wrap past the base, all
but the two about the base (R15, R66, R106, R108, R24). The wrap of `pcc` and the cleared address bits of a trap are
the model's readings (logs 16, 17). -/
def Obligations.StepKeepsCapabilitiesSound : Prop :=
  ∀ s t : State, s.Sound → step s = .next t → t.Sound

/-- The reset state's capabilities are sound (R33 to R36). Registers with no reset value hold NULL by the model's
choice (logs 7, 8). -/
def Obligations.ResetCapabilitiesSound : Prop := State.reset.Sound

/-- No step makes authority: every tagged capability the machine holds after a step has its permissions and its bounds
inside those of a tagged capability it held before (R115). The cleared address bits of a trap are the model's reading
(log 16). -/
def Obligations.StepDerivesEveryCapability : Prop :=
  ∀ s t : State, s.Sound → step s = .next t → ∀ c : Cap, t.holds c → c.tag = true →
    ∃ d : Cap, s.holds d ∧ d.tag = true ∧ c.within d

/-- The seven instructions store nothing: no step changes a byte or a tag of memory, `mtvec`, `mscratch`, `mtidc` or a
parameter, and the canonical form is kept (R45, R51). -/
def Obligations.StepLeavesMemoryAndVectors : Prop :=
  ∀ s t : State, step s = .next t →
    s.SameMemory t ∧ t.mtvec = s.mtvec ∧ t.mscratch = s.mscratch ∧ t.mtidc = s.mtidc ∧ t.plat = s.plat ∧
    (s.Canonical → t.Canonical)

/-- The saved registers change only by a trap: a step that changes `mepc`, `mcause`, `mtval` or MPIE entered a trap,
and then a general register is as before (R121, R30). How the handler's two low address bits are cleared is the
model's reading (log 16). -/
def Obligations.OnlyTrapsWriteTrapRegisters : Prop :=
  ∀ s t : State, step s = .next t →
    (t.mepc ≠ s.mepc ∨ t.mcause ≠ s.mcause ∨ t.mtval ≠ s.mtval ∨ t.mpie ≠ s.mpie) →
    t.mepc = s.pcc ∧ t.mpie = s.mie ∧ t.mie = false ∧ t.pcc = s.mtvec.clearLow 3 ∧
    ∀ i, t.readReg i = s.readReg i

/-! ### Loads and stores, completed -/

/-- What a capability load through a register that is allowed to load gives back: every field but the tag, G and P as
stored; the tag exactly with C; the whole value where nothing is to be removed; otherwise P encoded from what is left
without W and LM (no LM in the register, an unsealed value) and without LG (no LG in the register), and then G cleared
too (R48, R49, R40, R43). What C, LM and LG do is the spec's decision D28 from general knowledge, unverified by its
own G7: PRESUMED (log 22). -/
def Obligations.CapabilityLoadGivesStoredValue : Prop :=
  ∀ (s : State) (i : RegIdx) (a : Word),
    let auth := s.readReg i
    let m := s.memReadCap a
    let noLm := auth.perms.lm = false ∧ m.sealType = 0
    let without (l : List Perm) := encodeP ((decodeP m.p).diff (PermSet.ofList l))
    auth.tag = true → auth.sealType = 0 → auth.perms.r = true → auth.base ≤ a.toNat → a.toNat + 8 ≤ auth.top →
    a.toNat % 8 = 0 → s.backedRange a.toNat 8 = true → s.ioRange a.toNat 8 = false →
    ∃ c : Cap, s.loadCap i a = .ok (c, s) ∧
      c = { m with tag := c.tag, g := c.g, p := c.p } ∧
      (c.tag = true ↔ m.tag = true ∧ auth.perms.c = true) ∧
      (m.tag = false ∨ auth.perms.c = false → c.p = m.p ∧ c.g = m.g) ∧
      (m.tag = true → auth.perms.c = true →
        c.g = (m.g && auth.perms.lg) ∧
        (¬noLm → auth.perms.lg = true → c.p = m.p) ∧
        (noLm → auth.perms.lg = true → c.p = without [.W, .LM]) ∧
        (¬noLm → auth.perms.lg = false → c.p = without [.LG]) ∧
        (noLm → auth.perms.lg = false → c.p = without [.W, .LM, .LG]))

/-- A store of 1, 2 or 4 bytes, or of a capability, answers exactly when its base register is tagged, unsealed, grants
W and covers the bytes, and the address is aligned and backed; otherwise it reports the first failing check,
misalignment with cause 6 and an unbacked address with cause 7, the address as trap value (R48, R44, R46, R118, R120).
The access check is the spec's decision D28 from general knowledge, unverified by its own G7: PRESUMED (log 22). That
ROM is written as RAM, so that a store to it answers, is the model's choice (log 32). -/
def Obligations.StoreReportsFirstFailure : Prop :=
  ∀ (s : State) (i : RegIdx) (a : Word) (n v : Nat) (d : Cap), (n = 1 ∨ n = 2 ∨ n = 4 ∨ n = 8) →
    let c := s.readReg i
    let covers := c.base ≤ a.toNat ∧ a.toNat + n ≤ c.top
    let fails (x : Exc) : Prop := if n = 8 then s.storeCap i a d = .error x else s.storeData i a n v = .error x
    ((Exc.storeAddressMisaligned a).cause = 6 ∧ (Exc.storeAccessFault a).cause = 7 ∧
      (Exc.storeAddressMisaligned a).tval = a ∧ (Exc.storeAccessFault a).tval = a) ∧
    (c.tag = false → fails (.cheri .tag (.reg i))) ∧
    (c.tag = true → c.sealType ≠ 0 → fails (.cheri .seal (.reg i))) ∧
    (c.tag = true → c.sealType = 0 → c.perms.w = false → fails (.cheri .permission (.reg i))) ∧
    (c.tag = true → c.sealType = 0 → c.perms.w = true → ¬covers → fails (.cheri .bounds (.reg i))) ∧
    (c.tag = true → c.sealType = 0 → c.perms.w = true → covers → a.toNat % n ≠ 0 → fails (.storeAddressMisaligned a)) ∧
    (c.tag = true → c.sealType = 0 → c.perms.w = true → covers → a.toNat % n = 0 →
      (s.backedRange a.toNat n = false → fails (.storeAccessFault a)) ∧
      (s.backedRange a.toNat n = true →
        ∃ t, (if n = 8 then s.storeCap i a d = .ok t else s.storeData i a n v = .ok t) ∧
          (∀ j, t.readReg j = s.readReg j) ∧ t.pcc = s.pcc))

/-- Every reset state's memory, tags and stored addresses are in canonical form. That a number of `INIT_TAGS` that
names no granule is dropped is the model's choice (log 19) (R37, R31). -/
def Obligations.ResetStorageCanonical : Prop :=
  ∀ (plat : Platform) (pcAddr : Word) (initMem : List Host.Cell) (initTags : List Nat),
    (State.resetWith plat pcAddr initMem initTags).Canonical

/-- With fetch not coherent, a step at bytes of which the program has stored one is refused, whatever they decode to
(R52). Which bytes count as stored is the model's reading where they went to a device (log 12). -/
def Obligations.StoredBytesAreNotExecuted : Prop :=
  ∀ (enc : Enc) (s : State), s.presented = none → s.fetchCheck = none → s.plat.fetchCoherent = false →
    (∃ k, k < 4 ∧ s.stored.has (s.pc + BitVec.ofNat 32 k).toNat = true) →
    stepWith enc s = .refused (.staleFetch s.pc)
end

