-- ==== Sys2Proof/Laws/Bounds.lean ====
section
/-! SUPPORT. What the decoded exponent can be, how wide the decoded bounds are, and what an address change leaves. -/

namespace Sys2Proof.Machine

/-- The decoded exponents (R3, R97). -/
theorem Cap.exp_cases (c : Cap) : c.exp ≤ 14 ∨ c.exp = 24 := by
  unfold Cap.exp decodeExp
  split
  · exact .inr rfl
  · next h =>
    refine .inl ?_
    have hlt := c.e.isLt
    have hne : c.e.toNat ≠ 15 := fun e => h (BitVec.eq_of_toNat_eq e)
    omega

/-- The base is 32 bits wide (R100). -/
theorem Cap.base_lt (c : Cap) : c.base < 2 ^ 32 := by
  unfold Cap.base
  have := Int.emod_lt_of_pos
    ((((c.aTop : Int) + c.corrBase) * 512 + (c.b.toNat : Int)) * ((2 ^ c.exp : Nat) : Int))
    (show (0 : Int) < 4294967296 by decide)
  omega

/-- The top is 33 bits wide (R101). -/
theorem Cap.top_lt (c : Cap) : c.top < 2 ^ 33 := by
  unfold Cap.top
  have := Int.emod_lt_of_pos
    ((((c.aTop : Int) + c.corrTop) * 512 + (c.t.toNat : Int)) * ((2 ^ c.exp : Nat) : Int))
    (show (0 : Int) < 8589934592 by decide)
  omega

@[simp] theorem Cap.setAddr_addr (c : Cap) (a : Word) : (c.setAddr a).addr = a := rfl
@[simp] theorem Cap.setAddr_tag (c : Cap) (a : Word) : (c.setAddr a).tag = (c.tag && c.representable a) := rfl
@[simp] theorem Cap.setAddr_r (c : Cap) (a : Word) : (c.setAddr a).r = c.r := rfl
@[simp] theorem Cap.setAddr_g (c : Cap) (a : Word) : (c.setAddr a).g = c.g := rfl
@[simp] theorem Cap.setAddr_p (c : Cap) (a : Word) : (c.setAddr a).p = c.p := rfl
@[simp] theorem Cap.setAddr_ct (c : Cap) (a : Word) : (c.setAddr a).ct = c.ct := rfl
@[simp] theorem Cap.setAddr_e (c : Cap) (a : Word) : (c.setAddr a).e = c.e := rfl
@[simp] theorem Cap.setAddr_t (c : Cap) (a : Word) : (c.setAddr a).t = c.t := rfl
@[simp] theorem Cap.setAddr_b (c : Cap) (a : Word) : (c.setAddr a).b = c.b := rfl
@[simp] theorem Cap.setAddr_exp (c : Cap) (a : Word) : (c.setAddr a).exp = c.exp := rfl
@[simp] theorem Cap.setAddr_perms (c : Cap) (a : Word) : (c.setAddr a).perms = c.perms := rfl
@[simp] theorem Cap.setAddr_sealType (c : Cap) (a : Word) : (c.setAddr a).sealType = c.sealType := rfl

@[simp] theorem Cap.withType_addr (c : Cap) (ty : Nat) : (c.withType ty).addr = c.addr := rfl
@[simp] theorem Cap.withType_tag (c : Cap) (ty : Nat) : (c.withType ty).tag = c.tag := rfl
@[simp] theorem Cap.withType_r (c : Cap) (ty : Nat) : (c.withType ty).r = c.r := rfl
@[simp] theorem Cap.withType_p (c : Cap) (ty : Nat) : (c.withType ty).p = c.p := rfl
@[simp] theorem Cap.withType_ct (c : Cap) (ty : Nat) : (c.withType ty).ct = BitVec.ofNat 3 ty := rfl
@[simp] theorem Cap.withType_base (c : Cap) (ty : Nat) : (c.withType ty).base = c.base := rfl
@[simp] theorem Cap.withType_top (c : Cap) (ty : Nat) : (c.withType ty).top = c.top := rfl
@[simp] theorem Cap.withType_perms (c : Cap) (ty : Nat) : (c.withType ty).perms = c.perms := rfl
@[simp] theorem Cap.withType_representable (c : Cap) (ty : Nat) (a : Word) :
    (c.withType ty).representable a = c.representable a := rfl

/-- Decoded bounds do not depend on the tag. -/
@[simp] theorem Cap.base_with_tag (c : Cap) (v : Bool) : Cap.base { c with tag := v } = c.base := rfl
@[simp] theorem Cap.top_with_tag (c : Cap) (v : Bool) : Cap.top { c with tag := v } = c.top := rfl

theorem Cap.representable_iff (c : Cap) (a : Word) :
    c.representable a = true ↔ c.base ≤ a.toNat ∧ a.toNat < c.base + 2 ^ (c.exp + 9) := by
  simp [Cap.representable]

end Sys2Proof.Machine
end

