-- ==== Sys2Proof/Laws/Encoding.lean ====
section
/-! SUPPORT. Bit lemmas of the instruction words: a field read from a word whose pattern leaves the field alone. -/

namespace Sys2Proof

/-- A word that is 0 on a mask is 0 on every part of the mask. -/
theorem and_eq_zero_of_part {v m part : Word} (h : v &&& m = 0) (hp : m &&& part = part) : v &&& part = 0 := by
  rw [← hp, ← BitVec.and_assoc, h]; simp

/-- A pattern's value is 0 on the operand bits its mask leaves alone (R59, R60). -/
theorem Pattern.value_and_fields {fields : Word} {p : Pattern} (h : p.ok fields = true) : p.value &&& fields = 0 := by
  simp only [Pattern.ok, Bool.and_eq_true, beq_iff_eq] at h
  obtain ⟨⟨⟨h1, h2⟩, _⟩, _⟩ := h
  rw [← h1, BitVec.and_assoc, h2]; simp

theorem extract_rd_eq_zero {v : Word} (h : v &&& 0x00000F80 = 0) : v.extractLsb' 7 5 = 0 := by
  have hz : (v &&& 0x00000F80).extractLsb' 7 5 = v.extractLsb' 7 5 := by
    rw [BitVec.extractLsb'_and, show (0x00000F80 : Word).extractLsb' 7 5 = BitVec.allOnes 5 by decide, BitVec.and_allOnes]
  rw [← hz, h]; decide

/-- The `rd` field of an I-format word (R54). -/
theorem rdField_iWord {p : Pattern} (h : p.value &&& 0x00000F80 = 0) (rd rs1 : RegIdx) (imm : BitVec 12) :
    rdField (iWord p rd rs1 imm) = rd := by
  unfold rdField iWord
  rw [BitVec.or_assoc, BitVec.or_assoc, BitVec.extractLsb'_or, extract_rd_eq_zero h]
  refine BitVec.eq_of_getLsbD_eq fun i hi => ?_
  interval_cases i <;> simp [place]

/-- The `rd` field of an R-format word (R55). -/
theorem rdField_rWord {p : Pattern} (h : p.value &&& 0x00000F80 = 0) (rd rs1 rs2 : RegIdx) :
    rdField (rWord p rd rs1 rs2) = rd := by
  unfold rdField rWord
  rw [BitVec.or_assoc, BitVec.or_assoc, BitVec.extractLsb'_or, extract_rd_eq_zero h]
  refine BitVec.eq_of_getLsbD_eq fun i hi => ?_
  interval_cases i <;> simp [place]

end Sys2Proof
end

