-- ==== Sys2Proof/Laws/State.lean ====
section
/-! SUPPORT. One lemma per field per update of State, so that no proof unfolds a record update. -/

namespace Sys2Proof.Machine

section Updates

variable (s : State)

/-! ### setMie -/

@[simp] theorem State.setMie_regs (v : Bool) : (s.setMie v).regs = s.regs := rfl
@[simp] theorem State.setMie_pcc (v : Bool) : (s.setMie v).pcc = s.pcc := rfl
@[simp] theorem State.setMie_mie (v : Bool) : (s.setMie v).mie = v := rfl
@[simp] theorem State.setMie_mpie (v : Bool) : (s.setMie v).mpie = s.mpie := rfl
@[simp] theorem State.setMie_mtvec (v : Bool) : (s.setMie v).mtvec = s.mtvec := rfl
@[simp] theorem State.setMie_mscratch (v : Bool) : (s.setMie v).mscratch = s.mscratch := rfl
@[simp] theorem State.setMie_mtidc (v : Bool) : (s.setMie v).mtidc = s.mtidc := rfl
@[simp] theorem State.setMie_mepc (v : Bool) : (s.setMie v).mepc = s.mepc := rfl
@[simp] theorem State.setMie_mcause (v : Bool) : (s.setMie v).mcause = s.mcause := rfl
@[simp] theorem State.setMie_mtval (v : Bool) : (s.setMie v).mtval = s.mtval := rfl
@[simp] theorem State.setMie_mem (v : Bool) : (s.setMie v).mem = s.mem := rfl
@[simp] theorem State.setMie_tags (v : Bool) : (s.setMie v).tags = s.tags := rfl
@[simp] theorem State.setMie_stored (v : Bool) : (s.setMie v).stored = s.stored := rfl
@[simp] theorem State.setMie_irq (v : Bool) : (s.setMie v).irq = s.irq := rfl
@[simp] theorem State.setMie_draws (v : Bool) : (s.setMie v).draws = s.draws := rfl
@[simp] theorem State.setMie_plat (v : Bool) : (s.setMie v).plat = s.plat := rfl

/-! ### setMpie -/

@[simp] theorem State.setMpie_regs (v : Bool) : (s.setMpie v).regs = s.regs := rfl
@[simp] theorem State.setMpie_pcc (v : Bool) : (s.setMpie v).pcc = s.pcc := rfl
@[simp] theorem State.setMpie_mie (v : Bool) : (s.setMpie v).mie = s.mie := rfl
@[simp] theorem State.setMpie_mpie (v : Bool) : (s.setMpie v).mpie = v := rfl
@[simp] theorem State.setMpie_mtvec (v : Bool) : (s.setMpie v).mtvec = s.mtvec := rfl
@[simp] theorem State.setMpie_mscratch (v : Bool) : (s.setMpie v).mscratch = s.mscratch := rfl
@[simp] theorem State.setMpie_mtidc (v : Bool) : (s.setMpie v).mtidc = s.mtidc := rfl
@[simp] theorem State.setMpie_mepc (v : Bool) : (s.setMpie v).mepc = s.mepc := rfl
@[simp] theorem State.setMpie_mcause (v : Bool) : (s.setMpie v).mcause = s.mcause := rfl
@[simp] theorem State.setMpie_mtval (v : Bool) : (s.setMpie v).mtval = s.mtval := rfl
@[simp] theorem State.setMpie_mem (v : Bool) : (s.setMpie v).mem = s.mem := rfl
@[simp] theorem State.setMpie_tags (v : Bool) : (s.setMpie v).tags = s.tags := rfl
@[simp] theorem State.setMpie_stored (v : Bool) : (s.setMpie v).stored = s.stored := rfl
@[simp] theorem State.setMpie_irq (v : Bool) : (s.setMpie v).irq = s.irq := rfl
@[simp] theorem State.setMpie_draws (v : Bool) : (s.setMpie v).draws = s.draws := rfl
@[simp] theorem State.setMpie_plat (v : Bool) : (s.setMpie v).plat = s.plat := rfl

/-! ### advancePc -/

@[simp] theorem State.advancePc_regs : s.advancePc.regs = s.regs := rfl
@[simp] theorem State.advancePc_pcc : s.advancePc.pcc = { s.pcc with addr := s.nextPc } := rfl
@[simp] theorem State.advancePc_mie : s.advancePc.mie = s.mie := rfl
@[simp] theorem State.advancePc_mpie : s.advancePc.mpie = s.mpie := rfl
@[simp] theorem State.advancePc_mtvec : s.advancePc.mtvec = s.mtvec := rfl
@[simp] theorem State.advancePc_mscratch : s.advancePc.mscratch = s.mscratch := rfl
@[simp] theorem State.advancePc_mtidc : s.advancePc.mtidc = s.mtidc := rfl
@[simp] theorem State.advancePc_mepc : s.advancePc.mepc = s.mepc := rfl
@[simp] theorem State.advancePc_mcause : s.advancePc.mcause = s.mcause := rfl
@[simp] theorem State.advancePc_mtval : s.advancePc.mtval = s.mtval := rfl
@[simp] theorem State.advancePc_mem : s.advancePc.mem = s.mem := rfl
@[simp] theorem State.advancePc_tags : s.advancePc.tags = s.tags := rfl
@[simp] theorem State.advancePc_stored : s.advancePc.stored = s.stored := rfl
@[simp] theorem State.advancePc_irq : s.advancePc.irq = s.irq := rfl
@[simp] theorem State.advancePc_draws : s.advancePc.draws = s.draws := rfl
@[simp] theorem State.advancePc_plat : s.advancePc.plat = s.plat := rfl

/-! ### trapEntry -/

@[simp] theorem State.trapEntry_regs (cause tval : Word) : (s.trapEntry cause tval).regs = s.regs := rfl
@[simp] theorem State.trapEntry_pcc (cause tval : Word) : (s.trapEntry cause tval).pcc = s.mtvec.clearLow 3 := rfl
@[simp] theorem State.trapEntry_mie (cause tval : Word) : (s.trapEntry cause tval).mie = false := rfl
@[simp] theorem State.trapEntry_mpie (cause tval : Word) : (s.trapEntry cause tval).mpie = s.mie := rfl
@[simp] theorem State.trapEntry_mtvec (cause tval : Word) : (s.trapEntry cause tval).mtvec = s.mtvec := rfl
@[simp] theorem State.trapEntry_mscratch (cause tval : Word) : (s.trapEntry cause tval).mscratch = s.mscratch := rfl
@[simp] theorem State.trapEntry_mtidc (cause tval : Word) : (s.trapEntry cause tval).mtidc = s.mtidc := rfl
@[simp] theorem State.trapEntry_mepc (cause tval : Word) : (s.trapEntry cause tval).mepc = s.pcc := rfl
@[simp] theorem State.trapEntry_mcause (cause tval : Word) : (s.trapEntry cause tval).mcause = cause := rfl
@[simp] theorem State.trapEntry_mtval (cause tval : Word) : (s.trapEntry cause tval).mtval = tval := rfl
@[simp] theorem State.trapEntry_mem (cause tval : Word) : (s.trapEntry cause tval).mem = s.mem := rfl
@[simp] theorem State.trapEntry_tags (cause tval : Word) : (s.trapEntry cause tval).tags = s.tags := rfl
@[simp] theorem State.trapEntry_stored (cause tval : Word) : (s.trapEntry cause tval).stored = s.stored := rfl
@[simp] theorem State.trapEntry_irq (cause tval : Word) : (s.trapEntry cause tval).irq = s.irq := rfl
@[simp] theorem State.trapEntry_draws (cause tval : Word) : (s.trapEntry cause tval).draws = s.draws := rfl
@[simp] theorem State.trapEntry_plat (cause tval : Word) : (s.trapEntry cause tval).plat = s.plat := rfl

/-! ### takeException -/

@[simp] theorem State.takeException_regs (x : Exc) : (s.takeException x).regs = s.regs := rfl
@[simp] theorem State.takeException_pcc (x : Exc) : (s.takeException x).pcc = s.mtvec.clearLow 3 := rfl
@[simp] theorem State.takeException_mie (x : Exc) : (s.takeException x).mie = false := rfl
@[simp] theorem State.takeException_mpie (x : Exc) : (s.takeException x).mpie = s.mie := rfl
@[simp] theorem State.takeException_mtvec (x : Exc) : (s.takeException x).mtvec = s.mtvec := rfl
@[simp] theorem State.takeException_mscratch (x : Exc) : (s.takeException x).mscratch = s.mscratch := rfl
@[simp] theorem State.takeException_mtidc (x : Exc) : (s.takeException x).mtidc = s.mtidc := rfl
@[simp] theorem State.takeException_mepc (x : Exc) : (s.takeException x).mepc = s.pcc := rfl
@[simp] theorem State.takeException_mcause (x : Exc) : (s.takeException x).mcause = x.cause := rfl
@[simp] theorem State.takeException_mtval (x : Exc) : (s.takeException x).mtval = x.tval := rfl
@[simp] theorem State.takeException_mem (x : Exc) : (s.takeException x).mem = s.mem := rfl
@[simp] theorem State.takeException_tags (x : Exc) : (s.takeException x).tags = s.tags := rfl
@[simp] theorem State.takeException_stored (x : Exc) : (s.takeException x).stored = s.stored := rfl
@[simp] theorem State.takeException_irq (x : Exc) : (s.takeException x).irq = s.irq := rfl
@[simp] theorem State.takeException_draws (x : Exc) : (s.takeException x).draws = s.draws := rfl
@[simp] theorem State.takeException_plat (x : Exc) : (s.takeException x).plat = s.plat := rfl

/-! ### takeInterrupt -/

@[simp] theorem State.takeInterrupt_regs (code : BitVec 31) : (s.takeInterrupt code).regs = s.regs := rfl
@[simp] theorem State.takeInterrupt_pcc (code : BitVec 31) : (s.takeInterrupt code).pcc = s.mtvec.clearLow 3 := rfl
@[simp] theorem State.takeInterrupt_mie (code : BitVec 31) : (s.takeInterrupt code).mie = false := rfl
@[simp] theorem State.takeInterrupt_mpie (code : BitVec 31) : (s.takeInterrupt code).mpie = s.mie := rfl
@[simp] theorem State.takeInterrupt_mtvec (code : BitVec 31) : (s.takeInterrupt code).mtvec = s.mtvec := rfl
@[simp] theorem State.takeInterrupt_mscratch (code : BitVec 31) : (s.takeInterrupt code).mscratch = s.mscratch := rfl
@[simp] theorem State.takeInterrupt_mtidc (code : BitVec 31) : (s.takeInterrupt code).mtidc = s.mtidc := rfl
@[simp] theorem State.takeInterrupt_mepc (code : BitVec 31) : (s.takeInterrupt code).mepc = s.pcc := rfl
@[simp] theorem State.takeInterrupt_mcause (code : BitVec 31) : (s.takeInterrupt code).mcause = 0x80000000 ||| code.setWidth 32 := rfl
@[simp] theorem State.takeInterrupt_mtval (code : BitVec 31) : (s.takeInterrupt code).mtval = 0 := rfl
@[simp] theorem State.takeInterrupt_mem (code : BitVec 31) : (s.takeInterrupt code).mem = s.mem := rfl
@[simp] theorem State.takeInterrupt_tags (code : BitVec 31) : (s.takeInterrupt code).tags = s.tags := rfl
@[simp] theorem State.takeInterrupt_stored (code : BitVec 31) : (s.takeInterrupt code).stored = s.stored := rfl
@[simp] theorem State.takeInterrupt_irq (code : BitVec 31) : (s.takeInterrupt code).irq = s.irq := rfl
@[simp] theorem State.takeInterrupt_draws (code : BitVec 31) : (s.takeInterrupt code).draws = s.draws := rfl
@[simp] theorem State.takeInterrupt_plat (code : BitVec 31) : (s.takeInterrupt code).plat = s.plat := rfl

/-! ### returnFromTrap -/

@[simp] theorem State.returnFromTrap_regs : s.returnFromTrap.regs = s.regs := rfl
@[simp] theorem State.returnFromTrap_pcc : s.returnFromTrap.pcc = s.mepc.clearLow 1 := rfl
@[simp] theorem State.returnFromTrap_mie : s.returnFromTrap.mie = s.mpie := rfl
@[simp] theorem State.returnFromTrap_mpie : s.returnFromTrap.mpie = true := rfl
@[simp] theorem State.returnFromTrap_mtvec : s.returnFromTrap.mtvec = s.mtvec := rfl
@[simp] theorem State.returnFromTrap_mscratch : s.returnFromTrap.mscratch = s.mscratch := rfl
@[simp] theorem State.returnFromTrap_mtidc : s.returnFromTrap.mtidc = s.mtidc := rfl
@[simp] theorem State.returnFromTrap_mepc : s.returnFromTrap.mepc = s.mepc := rfl
@[simp] theorem State.returnFromTrap_mcause : s.returnFromTrap.mcause = s.mcause := rfl
@[simp] theorem State.returnFromTrap_mtval : s.returnFromTrap.mtval = s.mtval := rfl
@[simp] theorem State.returnFromTrap_mem : s.returnFromTrap.mem = s.mem := rfl
@[simp] theorem State.returnFromTrap_tags : s.returnFromTrap.tags = s.tags := rfl
@[simp] theorem State.returnFromTrap_stored : s.returnFromTrap.stored = s.stored := rfl
@[simp] theorem State.returnFromTrap_irq : s.returnFromTrap.irq = s.irq := rfl
@[simp] theorem State.returnFromTrap_draws : s.returnFromTrap.draws = s.draws := rfl
@[simp] theorem State.returnFromTrap_plat : s.returnFromTrap.plat = s.plat := rfl

/-! ### memWrite -/

@[simp] theorem State.memWrite_regs (a : Word) (n v : Nat) : (s.memWrite a n v).regs = s.regs := rfl
@[simp] theorem State.memWrite_pcc (a : Word) (n v : Nat) : (s.memWrite a n v).pcc = s.pcc := rfl
@[simp] theorem State.memWrite_mie (a : Word) (n v : Nat) : (s.memWrite a n v).mie = s.mie := rfl
@[simp] theorem State.memWrite_mpie (a : Word) (n v : Nat) : (s.memWrite a n v).mpie = s.mpie := rfl
@[simp] theorem State.memWrite_mtvec (a : Word) (n v : Nat) : (s.memWrite a n v).mtvec = s.mtvec := rfl
@[simp] theorem State.memWrite_mscratch (a : Word) (n v : Nat) : (s.memWrite a n v).mscratch = s.mscratch := rfl
@[simp] theorem State.memWrite_mtidc (a : Word) (n v : Nat) : (s.memWrite a n v).mtidc = s.mtidc := rfl
@[simp] theorem State.memWrite_mepc (a : Word) (n v : Nat) : (s.memWrite a n v).mepc = s.mepc := rfl
@[simp] theorem State.memWrite_mcause (a : Word) (n v : Nat) : (s.memWrite a n v).mcause = s.mcause := rfl
@[simp] theorem State.memWrite_mtval (a : Word) (n v : Nat) : (s.memWrite a n v).mtval = s.mtval := rfl
@[simp] theorem State.memWrite_mem (a : Word) (n v : Nat) : (s.memWrite a n v).mem = s.mem.writeLE a.toNat n v := rfl
@[simp] theorem State.memWrite_tags (a : Word) (n v : Nat) : (s.memWrite a n v).tags = s.tags.delGranules a.toNat n := rfl
@[simp] theorem State.memWrite_stored (a : Word) (n v : Nat) : (s.memWrite a n v).stored = s.stored.addRange a.toNat n := rfl
@[simp] theorem State.memWrite_irq (a : Word) (n v : Nat) : (s.memWrite a n v).irq = s.irq := rfl
@[simp] theorem State.memWrite_draws (a : Word) (n v : Nat) : (s.memWrite a n v).draws = s.draws := rfl
@[simp] theorem State.memWrite_plat (a : Word) (n v : Nat) : (s.memWrite a n v).plat = s.plat := rfl

/-! ### writeData -/

@[simp] theorem State.writeData_regs (a : Word) (n v : Nat) : (s.writeData a n v).regs = s.regs := rfl
@[simp] theorem State.writeData_pcc (a : Word) (n v : Nat) : (s.writeData a n v).pcc = s.pcc := rfl
@[simp] theorem State.writeData_mie (a : Word) (n v : Nat) : (s.writeData a n v).mie = s.mie := rfl
@[simp] theorem State.writeData_mpie (a : Word) (n v : Nat) : (s.writeData a n v).mpie = s.mpie := rfl
@[simp] theorem State.writeData_mtvec (a : Word) (n v : Nat) : (s.writeData a n v).mtvec = s.mtvec := rfl
@[simp] theorem State.writeData_mscratch (a : Word) (n v : Nat) : (s.writeData a n v).mscratch = s.mscratch := rfl
@[simp] theorem State.writeData_mtidc (a : Word) (n v : Nat) : (s.writeData a n v).mtidc = s.mtidc := rfl
@[simp] theorem State.writeData_mepc (a : Word) (n v : Nat) : (s.writeData a n v).mepc = s.mepc := rfl
@[simp] theorem State.writeData_mcause (a : Word) (n v : Nat) : (s.writeData a n v).mcause = s.mcause := rfl
@[simp] theorem State.writeData_mtval (a : Word) (n v : Nat) : (s.writeData a n v).mtval = s.mtval := rfl
@[simp] theorem State.writeData_mem (a : Word) (n v : Nat) : (s.writeData a n v).mem = s.writeBytes s.mem a.toNat n v := rfl
@[simp] theorem State.writeData_tags (a : Word) (n v : Nat) : (s.writeData a n v).tags = s.tags.delGranules a.toNat n := rfl
@[simp] theorem State.writeData_stored (a : Word) (n v : Nat) : (s.writeData a n v).stored = s.stored.addRange a.toNat n := rfl
@[simp] theorem State.writeData_irq (a : Word) (n v : Nat) : (s.writeData a n v).irq = s.irq := rfl
@[simp] theorem State.writeData_draws (a : Word) (n v : Nat) : (s.writeData a n v).draws = s.draws := rfl
@[simp] theorem State.writeData_plat (a : Word) (n v : Nat) : (s.writeData a n v).plat = s.plat := rfl

/-! ### memWriteCap -/

@[simp] theorem State.memWriteCap_regs (a : Word) (c : Cap) : (s.memWriteCap a c).regs = s.regs := rfl
@[simp] theorem State.memWriteCap_pcc (a : Word) (c : Cap) : (s.memWriteCap a c).pcc = s.pcc := rfl
@[simp] theorem State.memWriteCap_mie (a : Word) (c : Cap) : (s.memWriteCap a c).mie = s.mie := rfl
@[simp] theorem State.memWriteCap_mpie (a : Word) (c : Cap) : (s.memWriteCap a c).mpie = s.mpie := rfl
@[simp] theorem State.memWriteCap_mtvec (a : Word) (c : Cap) : (s.memWriteCap a c).mtvec = s.mtvec := rfl
@[simp] theorem State.memWriteCap_mscratch (a : Word) (c : Cap) : (s.memWriteCap a c).mscratch = s.mscratch := rfl
@[simp] theorem State.memWriteCap_mtidc (a : Word) (c : Cap) : (s.memWriteCap a c).mtidc = s.mtidc := rfl
@[simp] theorem State.memWriteCap_mepc (a : Word) (c : Cap) : (s.memWriteCap a c).mepc = s.mepc := rfl
@[simp] theorem State.memWriteCap_mcause (a : Word) (c : Cap) : (s.memWriteCap a c).mcause = s.mcause := rfl
@[simp] theorem State.memWriteCap_mtval (a : Word) (c : Cap) : (s.memWriteCap a c).mtval = s.mtval := rfl
@[simp] theorem State.memWriteCap_mem (a : Word) (c : Cap) : (s.memWriteCap a c).mem = s.mem.writeLE a.toNat 8 c.bits64.toNat := rfl
@[simp] theorem State.memWriteCap_tags (a : Word) (c : Cap) : (s.memWriteCap a c).tags = if c.tag && s.isTagged a.toNat then s.tags.add (granule a.toNat) else s.tags.del (granule a.toNat) := rfl
@[simp] theorem State.memWriteCap_stored (a : Word) (c : Cap) : (s.memWriteCap a c).stored = s.stored.addRange a.toNat 8 := rfl
@[simp] theorem State.memWriteCap_irq (a : Word) (c : Cap) : (s.memWriteCap a c).irq = s.irq := rfl
@[simp] theorem State.memWriteCap_draws (a : Word) (c : Cap) : (s.memWriteCap a c).draws = s.draws := rfl
@[simp] theorem State.memWriteCap_plat (a : Word) (c : Cap) : (s.memWriteCap a c).plat = s.plat := rfl

/-! ### writeReg -/

@[simp] theorem State.writeReg_pcc (i : RegIdx) (c : Cap) : (s.writeReg i c).pcc = s.pcc := by
  unfold State.writeReg; split <;> rfl
@[simp] theorem State.writeReg_mie (i : RegIdx) (c : Cap) : (s.writeReg i c).mie = s.mie := by
  unfold State.writeReg; split <;> rfl
@[simp] theorem State.writeReg_mpie (i : RegIdx) (c : Cap) : (s.writeReg i c).mpie = s.mpie := by
  unfold State.writeReg; split <;> rfl
@[simp] theorem State.writeReg_mtvec (i : RegIdx) (c : Cap) : (s.writeReg i c).mtvec = s.mtvec := by
  unfold State.writeReg; split <;> rfl
@[simp] theorem State.writeReg_mscratch (i : RegIdx) (c : Cap) : (s.writeReg i c).mscratch = s.mscratch := by
  unfold State.writeReg; split <;> rfl
@[simp] theorem State.writeReg_mtidc (i : RegIdx) (c : Cap) : (s.writeReg i c).mtidc = s.mtidc := by
  unfold State.writeReg; split <;> rfl
@[simp] theorem State.writeReg_mepc (i : RegIdx) (c : Cap) : (s.writeReg i c).mepc = s.mepc := by
  unfold State.writeReg; split <;> rfl
@[simp] theorem State.writeReg_mcause (i : RegIdx) (c : Cap) : (s.writeReg i c).mcause = s.mcause := by
  unfold State.writeReg; split <;> rfl
@[simp] theorem State.writeReg_mtval (i : RegIdx) (c : Cap) : (s.writeReg i c).mtval = s.mtval := by
  unfold State.writeReg; split <;> rfl
@[simp] theorem State.writeReg_mem (i : RegIdx) (c : Cap) : (s.writeReg i c).mem = s.mem := by
  unfold State.writeReg; split <;> rfl
@[simp] theorem State.writeReg_tags (i : RegIdx) (c : Cap) : (s.writeReg i c).tags = s.tags := by
  unfold State.writeReg; split <;> rfl
@[simp] theorem State.writeReg_stored (i : RegIdx) (c : Cap) : (s.writeReg i c).stored = s.stored := by
  unfold State.writeReg; split <;> rfl
@[simp] theorem State.writeReg_irq (i : RegIdx) (c : Cap) : (s.writeReg i c).irq = s.irq := by
  unfold State.writeReg; split <;> rfl
@[simp] theorem State.writeReg_draws (i : RegIdx) (c : Cap) : (s.writeReg i c).draws = s.draws := by
  unfold State.writeReg; split <;> rfl
@[simp] theorem State.writeReg_plat (i : RegIdx) (c : Cap) : (s.writeReg i c).plat = s.plat := by
  unfold State.writeReg; split <;> rfl

/-! ### afterPoll -/

@[simp] theorem State.afterPoll_regs : s.afterPoll.regs = s.regs := by
  unfold State.afterPoll; split <;> rfl
@[simp] theorem State.afterPoll_pcc : s.afterPoll.pcc = s.pcc := by
  unfold State.afterPoll; split <;> rfl
@[simp] theorem State.afterPoll_mie : s.afterPoll.mie = s.mie := by
  unfold State.afterPoll; split <;> rfl
@[simp] theorem State.afterPoll_mpie : s.afterPoll.mpie = s.mpie := by
  unfold State.afterPoll; split <;> rfl
@[simp] theorem State.afterPoll_mtvec : s.afterPoll.mtvec = s.mtvec := by
  unfold State.afterPoll; split <;> rfl
@[simp] theorem State.afterPoll_mscratch : s.afterPoll.mscratch = s.mscratch := by
  unfold State.afterPoll; split <;> rfl
@[simp] theorem State.afterPoll_mtidc : s.afterPoll.mtidc = s.mtidc := by
  unfold State.afterPoll; split <;> rfl
@[simp] theorem State.afterPoll_mepc : s.afterPoll.mepc = s.mepc := by
  unfold State.afterPoll; split <;> rfl
@[simp] theorem State.afterPoll_mcause : s.afterPoll.mcause = s.mcause := by
  unfold State.afterPoll; split <;> rfl
@[simp] theorem State.afterPoll_mtval : s.afterPoll.mtval = s.mtval := by
  unfold State.afterPoll; split <;> rfl
@[simp] theorem State.afterPoll_mem : s.afterPoll.mem = s.mem := by
  unfold State.afterPoll; split <;> rfl
@[simp] theorem State.afterPoll_tags : s.afterPoll.tags = s.tags := by
  unfold State.afterPoll; split <;> rfl
@[simp] theorem State.afterPoll_stored : s.afterPoll.stored = s.stored := by
  unfold State.afterPoll; split <;> rfl
@[simp] theorem State.afterPoll_draws : s.afterPoll.draws = s.draws := by
  unfold State.afterPoll; split <;> rfl
@[simp] theorem State.afterPoll_plat : s.afterPoll.plat = s.plat := by
  unfold State.afterPoll; split <;> rfl

/-! ### withFetchWord -/

@[simp] theorem State.withFetchWord_regs (nbits w : Nat) : (s.withFetchWord nbits w).regs = s.regs := rfl
@[simp] theorem State.withFetchWord_pcc (nbits w : Nat) : (s.withFetchWord nbits w).pcc = s.pcc := rfl
@[simp] theorem State.withFetchWord_mie (nbits w : Nat) : (s.withFetchWord nbits w).mie = s.mie := rfl
@[simp] theorem State.withFetchWord_mpie (nbits w : Nat) : (s.withFetchWord nbits w).mpie = s.mpie := rfl
@[simp] theorem State.withFetchWord_mtvec (nbits w : Nat) : (s.withFetchWord nbits w).mtvec = s.mtvec := rfl
@[simp] theorem State.withFetchWord_mscratch (nbits w : Nat) : (s.withFetchWord nbits w).mscratch = s.mscratch := rfl
@[simp] theorem State.withFetchWord_mtidc (nbits w : Nat) : (s.withFetchWord nbits w).mtidc = s.mtidc := rfl
@[simp] theorem State.withFetchWord_mepc (nbits w : Nat) : (s.withFetchWord nbits w).mepc = s.mepc := rfl
@[simp] theorem State.withFetchWord_mcause (nbits w : Nat) : (s.withFetchWord nbits w).mcause = s.mcause := rfl
@[simp] theorem State.withFetchWord_mtval (nbits w : Nat) : (s.withFetchWord nbits w).mtval = s.mtval := rfl
@[simp] theorem State.withFetchWord_mem (nbits w : Nat) : (s.withFetchWord nbits w).mem = s.mem.writeLE s.pc.toNat 4 (tableWord nbits w).toNat := rfl
@[simp] theorem State.withFetchWord_tags (nbits w : Nat) : (s.withFetchWord nbits w).tags = s.tags.delGranules s.pc.toNat 4 := rfl
@[simp] theorem State.withFetchWord_stored (nbits w : Nat) : (s.withFetchWord nbits w).stored = s.stored.delRange s.pc.toNat 4 := rfl
@[simp] theorem State.withFetchWord_irq (nbits w : Nat) : (s.withFetchWord nbits w).irq = s.irq := rfl
@[simp] theorem State.withFetchWord_draws (nbits w : Nat) : (s.withFetchWord nbits w).draws = s.draws := rfl
@[simp] theorem State.withFetchWord_plat (nbits w : Nat) : (s.withFetchWord nbits w).plat = s.plat := rfl

end Updates

end Sys2Proof.Machine
end

