-- ==== Sys2Proof/Laws/Memory.lean ====
section
/-! SUPPORT. The laws of memory and tag storage: read after write, and every operation keeps the canonical form. -/

namespace Sys2Proof.Machine

/-! ### Bytes -/

/-- Below the first listed address memory reads as the fill value. -/
theorem Memory.read_of_lt {lo a : Nat} {m : Memory} (h : Memory.wfFrom lo m = true) (ha : a < lo) :
    m.read a = Memory.fill := by
  induction m generalizing lo with
  | nil => rfl
  | cons c rest ih =>
    obtain ⟨k, v⟩ := c
    simp only [Memory.wfFrom, Bool.and_eq_true, decide_eq_true_eq] at h
    have hk : k ≠ a := by omega
    simp only [Memory.read, hk, if_false]
    exact ih h.2 (by omega)

theorem Memory.wfFrom_mono {lo lo' : Nat} {m : Memory} (h : Memory.wfFrom lo m = true) (hl : lo' ≤ lo) :
    Memory.wfFrom lo' m = true := by
  cases m with
  | nil => rfl
  | cons c rest =>
    obtain ⟨k, v⟩ := c
    simp only [Memory.wfFrom, Bool.and_eq_true, decide_eq_true_eq] at h ⊢
    exact ⟨⟨⟨by omega, h.1.1.2⟩, h.1.2⟩, h.2⟩

/-- A write leaves every other byte alone. -/
theorem Memory.read_write_of_ne (m : Memory) {a x : Nat} (b : Byte) (h : x ≠ a) :
    (m.write a b).read x = m.read x := by
  induction m with
  | nil =>
    unfold Memory.write
    split <;> simp [Memory.read, Ne.symm h]
  | cons c rest ih =>
    obtain ⟨k, v⟩ := c
    unfold Memory.write
    split
    · split <;> simp [Memory.read, Ne.symm h]
    · split
      · next hk => subst hk; split <;> simp [Memory.read, Ne.symm h]
      · simp [Memory.read, ih]

theorem Memory.read_write_same_from {lo a : Nat} {m : Memory} (h : Memory.wfFrom lo m = true) (b : Byte) :
    (m.write a b).read a = b := by
  induction m generalizing lo with
  | nil =>
    unfold Memory.write
    split
    · next hb => simp [Memory.read, hb]
    · simp [Memory.read]
  | cons c rest ih =>
    obtain ⟨k, v⟩ := c
    have hw := h
    simp only [Memory.wfFrom, Bool.and_eq_true, decide_eq_true_eq] at h
    unfold Memory.write
    split
    · next hlt =>
      split
      · next hb =>
        have hk : k ≠ a := by omega
        simp only [Memory.read, hk, if_false, hb]
        exact Memory.read_of_lt h.2 (by omega)
      · simp [Memory.read]
    · split
      · next hk =>
        split
        · next hb => rw [hb]; exact Memory.read_of_lt h.2 (by omega)
        · simp [Memory.read]
      · next hk =>
        have hk' : k ≠ a := fun e => hk e.symm
        simp only [Memory.read, hk', if_false]
        exact ih h.2

/-- A read after a write to the same address gives the byte written. -/
theorem Memory.read_write_same {m : Memory} (h : m.wf = true) (a : Nat) (b : Byte) : (m.write a b).read a = b :=
  Memory.read_write_same_from h b

theorem Memory.write_wfFrom {lo a : Nat} {m : Memory} (h : Memory.wfFrom lo m = true) (hl : lo ≤ a)
    (ha : a < addressSpace) (b : Byte) : Memory.wfFrom lo (m.write a b) = true := by
  induction m generalizing lo with
  | nil =>
    unfold Memory.write
    split
    · rfl
    · next hb => simp [Memory.wfFrom, hl, ha, hb]
  | cons c rest ih =>
    obtain ⟨k, v⟩ := c
    have hw := h
    simp only [Memory.wfFrom, Bool.and_eq_true, decide_eq_true_eq] at h
    unfold Memory.write
    split
    · next hlt =>
      split
      · exact hw
      · next hb =>
        simp only [Memory.wfFrom, Bool.and_eq_true, decide_eq_true_eq]
        exact ⟨⟨⟨hl, ha⟩, hb⟩, ⟨⟨by omega, h.1.1.2⟩, h.1.2⟩, h.2⟩
    · split
      · next hk =>
        split
        · exact Memory.wfFrom_mono h.2 (by omega)
        · next hb =>
          subst hk
          simp only [Memory.wfFrom, Bool.and_eq_true, decide_eq_true_eq]
          exact ⟨⟨⟨hl, ha⟩, hb⟩, h.2⟩
      · next hk =>
        simp only [Memory.wfFrom, Bool.and_eq_true, decide_eq_true_eq]
        exact ⟨h.1, ih h.2 (by omega)⟩

/-- A write keeps the canonical form. -/
theorem Memory.write_wf {m : Memory} (h : m.wf = true) {a : Nat} (ha : a < addressSpace) (b : Byte) :
    (m.write a b).wf = true :=
  Memory.write_wfFrom h (Nat.zero_le _) ha b

theorem Memory.ext_from {lo : Nat} {m n : Memory} (hm : Memory.wfFrom lo m = true) (hn : Memory.wfFrom lo n = true)
    (h : ∀ a, m.read a = n.read a) : m = n := by
  induction m generalizing lo n with
  | nil =>
    cases n with
    | nil => rfl
    | cons c rest =>
      obtain ⟨k, v⟩ := c
      simp only [Memory.wfFrom, Bool.and_eq_true, decide_eq_true_eq] at hn
      have := h k
      simp [Memory.read] at this
      exact absurd this.symm hn.1.2
  | cons c rest ih =>
    obtain ⟨k, v⟩ := c
    have hmw := hm
    simp only [Memory.wfFrom, Bool.and_eq_true, decide_eq_true_eq] at hm
    cases n with
    | nil =>
      have := h k
      simp [Memory.read] at this
      exact absurd this hm.1.2
    | cons c' rest' =>
      obtain ⟨k', v'⟩ := c'
      have hnw := hn
      simp only [Memory.wfFrom, Bool.and_eq_true, decide_eq_true_eq] at hn
      have hkk : k = k' := by
        rcases Nat.lt_trichotomy k k' with hlt | heq | hgt
        · have h1 := h k
          have hne : k' ≠ k := by omega
          simp only [Memory.read, if_true, hne, if_false] at h1
          rw [Memory.read_of_lt hn.2 (by omega)] at h1
          exact absurd h1 hm.1.2
        · exact heq
        · have h1 := h k'
          have hne : k ≠ k' := by omega
          simp only [Memory.read, if_true, hne, if_false] at h1
          rw [Memory.read_of_lt hm.2 (by omega)] at h1
          exact absurd h1.symm hn.1.2
      subst hkk
      have hv : v = v' := by simpa [Memory.read] using h k
      subst hv
      have hrest : rest = rest' := ih hm.2 hn.2 fun a => by
        by_cases ha : k = a
        · subst ha
          rw [Memory.read_of_lt hm.2 (by omega), Memory.read_of_lt hn.2 (by omega)]
        · simpa [Memory.read, ha] using h a
      rw [hrest]

/-- Two canonical memories that read alike are equal. -/
theorem Memory.ext_of_wf {m n : Memory} (hm : m.wf = true) (hn : n.wf = true) (h : ∀ a, m.read a = n.read a) : m = n :=
  Memory.ext_from hm hn h

theorem wrapAddr_lt (a : Nat) : wrapAddr a < addressSpace := Nat.mod_lt _ (by decide)

theorem wrapAddr_of_lt {a : Nat} (h : a < addressSpace) : wrapAddr a = a := Nat.mod_eq_of_lt h

/-- A multi-byte write keeps the canonical form. -/
theorem Memory.writeLE_wf {m : Memory} (h : m.wf = true) (a n v : Nat) : (m.writeLE a n v).wf = true := by
  induction n generalizing m a v with
  | zero => exact h
  | succ n ih => exact ih (Memory.write_wf h (wrapAddr_lt a) _) _ _

/-- A multi-byte write leaves every other byte alone. -/
theorem Memory.read_writeLE_of_ne (m : Memory) {a n x : Nat} (v : Nat) (h : ∀ k < n, wrapAddr (a + k) ≠ x) :
    (m.writeLE a n v).read x = m.read x := by
  induction n generalizing m a v with
  | zero => rfl
  | succ n ih =>
    have h0 : wrapAddr a ≠ x := by simpa using h 0 (by omega)
    rw [Memory.writeLE, ih _ _ fun k hk => by
      have := h (k + 1) (by omega)
      rwa [show a + (k + 1) = a + 1 + k by omega] at this]
    exact Memory.read_write_of_ne m _ (Ne.symm h0)

theorem wrapAddr_add_ne {a i j : Nat} (hi : i < addressSpace) (hj : j < addressSpace) (h : i ≠ j) :
    wrapAddr (a + i) ≠ wrapAddr (a + j) := by
  simp only [wrapAddr, addressSpace] at *
  omega

/-- Reading back a multi-byte write gives the value's low bytes (R38). -/
theorem Memory.readLE_writeLE {m : Memory} (h : m.wf = true) (a n v : Nat) (hn : n ≤ addressSpace) :
    (m.writeLE a n v).readLE a n = v % 256 ^ n := by
  induction n generalizing m a v with
  | zero => simp [Memory.readLE, Nat.mod_one]
  | succ n ih =>
    have hw := Memory.write_wf h (wrapAddr_lt a) (BitVec.ofNat 8 v)
    have hb : ((m.write (wrapAddr a) (BitVec.ofNat 8 v)).writeLE (a + 1) n (v / 256)).read (wrapAddr a)
        = BitVec.ofNat 8 v := by
      rw [Memory.read_writeLE_of_ne _ _ fun k hk => by
        have := wrapAddr_add_ne (a := a) (i := k + 1) (j := 0) (by omega) (by decide) (by omega)
        rwa [show a + (k + 1) = a + 1 + k by omega] at this]
      exact Memory.read_write_same h _ _
    rw [Memory.writeLE, Memory.readLE, hb, ih hw _ _ (by omega)]
    have : 256 ^ (n + 1) = 256 * 256 ^ n := by rw [Nat.pow_succ, Nat.mul_comm]
    rw [this, Nat.mod_mul]
    simp

theorem Memory.ofCells_wf_aux (l : List Host.Cell) {m : Memory} (h : m.wf = true) :
    Memory.wf (l.foldl (fun m c => m.write (wrapAddr c.1) c.2) m) = true := by
  induction l generalizing m with
  | nil => exact h
  | cons c rest ih => exact ih (Memory.write_wf h (wrapAddr_lt _) _)

/-- The initial memory is canonical whatever cells it is made of. -/
theorem Memory.ofCells_wf (l : List Host.Cell) : (Memory.ofCells l).wf = true :=
  Memory.ofCells_wf_aux l rfl

/-! ### Sets of granules and addresses -/

theorem NatSet.wfFrom_mono {limit lo lo' : Nat} {s : NatSet} (h : NatSet.wfFrom limit lo s = true) (hl : lo' ≤ lo) :
    NatSet.wfFrom limit lo' s = true := by
  cases s with
  | nil => rfl
  | cons k rest =>
    simp only [NatSet.wfFrom, Bool.and_eq_true, decide_eq_true_eq] at h ⊢
    exact ⟨⟨by omega, h.1.2⟩, h.2⟩

theorem NatSet.has_of_lt {limit lo a : Nat} {s : NatSet} (h : NatSet.wfFrom limit lo s = true) (ha : a < lo) :
    s.has a = false := by
  induction s generalizing lo with
  | nil => rfl
  | cons k rest ih =>
    simp only [NatSet.wfFrom, Bool.and_eq_true, decide_eq_true_eq] at h
    have hk : k ≠ a := by omega
    simp only [NatSet.has, hk, decide_false, Bool.false_or]
    exact ih h.2 (by omega)

/-- Membership after adding a number. -/
theorem NatSet.has_add (s : NatSet) (a x : Nat) : (s.add a).has x = (decide (a = x) || s.has x) := by
  induction s with
  | nil => rfl
  | cons k rest ih =>
    unfold NatSet.add
    split
    · rfl
    · split
      · next h => subst h; simp [NatSet.has]
      · simp only [NatSet.has, ih]
        cases decide (k = x) <;> cases decide (a = x) <;> rfl

theorem NatSet.has_del_from {limit lo : Nat} {s : NatSet} (h : NatSet.wfFrom limit lo s = true) (a x : Nat) :
    (s.del a).has x = (decide (x ≠ a) && s.has x) := by
  induction s generalizing lo with
  | nil => simp [NatSet.del, NatSet.has]
  | cons k rest ih =>
    simp only [NatSet.wfFrom, Bool.and_eq_true, decide_eq_true_eq] at h
    unfold NatSet.del
    split
    · next hk =>
      subst hk
      by_cases hx : x = k
      · subst hx; simp [NatSet.has_of_lt h.2 (Nat.lt_succ_self x)]
      · have : k ≠ x := fun e => hx e.symm
        simp [NatSet.has, hx, this]
    · next hk =>
      simp only [NatSet.has, ih h.2]
      by_cases hx : k = x
      · subst hx; simp [hk]
      · simp [hx]

/-- Membership after taking a number out of a canonical set. -/
theorem NatSet.has_del {limit : Nat} {s : NatSet} (h : s.wf limit = true) (a x : Nat) :
    (s.del a).has x = (decide (x ≠ a) && s.has x) :=
  NatSet.has_del_from h a x

theorem NatSet.add_wfFrom {limit lo a : Nat} {s : NatSet} (h : NatSet.wfFrom limit lo s = true) (hl : lo ≤ a)
    (ha : a < limit) : NatSet.wfFrom limit lo (s.add a) = true := by
  induction s generalizing lo with
  | nil => simp [NatSet.add, NatSet.wfFrom, hl, ha]
  | cons k rest ih =>
    have hw := h
    simp only [NatSet.wfFrom, Bool.and_eq_true, decide_eq_true_eq] at h
    unfold NatSet.add
    split
    · simp only [NatSet.wfFrom, Bool.and_eq_true, decide_eq_true_eq]
      exact ⟨⟨hl, ha⟩, ⟨by omega, h.1.2⟩, h.2⟩
    · split
      · exact hw
      · simp only [NatSet.wfFrom, Bool.and_eq_true, decide_eq_true_eq]
        exact ⟨h.1, ih h.2 (by omega)⟩

/-- Adding a number below the limit keeps the canonical form. -/
theorem NatSet.add_wf {limit a : Nat} {s : NatSet} (h : s.wf limit = true) (ha : a < limit) :
    (s.add a).wf limit = true :=
  NatSet.add_wfFrom h (Nat.zero_le _) ha

theorem NatSet.del_wfFrom {limit lo : Nat} {s : NatSet} (h : NatSet.wfFrom limit lo s = true) (a : Nat) :
    NatSet.wfFrom limit lo (s.del a) = true := by
  induction s generalizing lo with
  | nil => rfl
  | cons k rest ih =>
    simp only [NatSet.wfFrom, Bool.and_eq_true, decide_eq_true_eq] at h
    unfold NatSet.del
    split
    · exact NatSet.wfFrom_mono h.2 (by omega)
    · simp only [NatSet.wfFrom, Bool.and_eq_true, decide_eq_true_eq]
      exact ⟨h.1, ih h.2⟩

/-- Taking a number out keeps the canonical form. -/
theorem NatSet.del_wf {limit : Nat} {s : NatSet} (h : s.wf limit = true) (a : Nat) : (s.del a).wf limit = true :=
  NatSet.del_wfFrom h a

theorem granule_lt (a : Nat) : granule a < granules := by
  have h := wrapAddr_lt a
  simp only [granule, granules, addressSpace] at *
  omega

theorem NatSet.delGranules_wf {limit : Nat} {s : NatSet} (h : s.wf limit = true) (a n : Nat) :
    (s.delGranules a n).wf limit = true := by
  induction n generalizing s a with
  | zero => exact h
  | succ n ih => exact ih (NatSet.del_wf h _) _

theorem NatSet.addRange_wf {s : NatSet} (h : s.wf addressSpace = true) (a n : Nat) :
    (s.addRange a n).wf addressSpace = true := by
  induction n generalizing s a with
  | zero => exact h
  | succ n ih => exact ih (NatSet.add_wf h (wrapAddr_lt a)) _

theorem NatSet.delRange_wf {limit : Nat} {s : NatSet} (h : s.wf limit = true) (a n : Nat) :
    (s.delRange a n).wf limit = true := by
  induction n generalizing s a with
  | zero => exact h
  | succ n ih => exact ih (NatSet.del_wf h _) _

/-- Membership after the granules of n bytes are taken out (R42). -/
theorem NatSet.has_delGranules {limit : Nat} {s : NatSet} (h : s.wf limit = true) (a n x : Nat) :
    (s.delGranules a n).has x = (decide (∀ k < n, x ≠ granule (a + k)) && s.has x) := by
  induction n generalizing s a with
  | zero => simp [NatSet.delGranules]
  | succ n ih =>
    rw [NatSet.delGranules, ih (NatSet.del_wf h _), NatSet.has_del h, ← Bool.and_assoc, ← Bool.decide_and]
    congr 1
    refine decide_eq_decide.mpr ⟨fun ⟨h1, h2⟩ k hk => ?_, fun hall => ⟨fun k hk => ?_, by simpa using hall 0 (by omega)⟩⟩
    · cases k with
      | zero => simpa using h2
      | succ k => have := h1 k (by omega); rwa [show a + 1 + k = a + (k + 1) by omega] at this
    · have := hall (k + 1) (by omega); rwa [show a + (k + 1) = a + 1 + k by omega] at this

/-- A range of addresses taken out of a canonical set is no longer in it. -/
theorem NatSet.hasRange_delRange {limit : Nat} {s : NatSet} (h : s.wf limit = true) (a n : Nat) :
    (s.delRange a n).hasRange a n = false := by
  have key : ∀ (n m a b : Nat) (s : NatSet), s.wf limit = true → (∀ k < m, s.has (wrapAddr (b + k)) = false) →
      ∀ k < m, (s.delRange a n).has (wrapAddr (b + k)) = false := by
    intro n
    induction n with
    | zero => intro m a b s _ hs k hk; exact hs k hk
    | succ n ih =>
      intro m a b s hw hs k hk
      refine ih m (a + 1) b _ (NatSet.del_wf hw _) (fun j hj => ?_) k hk
      rw [NatSet.has_del hw, hs j hj, Bool.and_false]
  have gone : ∀ (n a : Nat) (s : NatSet), s.wf limit = true → ∀ k < n, (s.delRange a n).has (wrapAddr (a + k)) = false := by
    intro n
    induction n with
    | zero => intro a s _ k hk; omega
    | succ n ih =>
      intro a s hw k hk
      cases k with
      | zero =>
        refine key n 1 (a + 1) a _ (NatSet.del_wf hw _) (fun j hj => ?_) 0 (by omega)
        obtain rfl : j = 0 := by omega
        rw [NatSet.has_del hw]
        simp
      | succ k =>
        have := ih (a + 1) (s.del (wrapAddr a)) (NatSet.del_wf hw _) k (by omega)
        rwa [show a + 1 + k = a + (k + 1) by omega] at this
  have fin : ∀ (n a : Nat) (s : NatSet), (∀ k < n, s.has (wrapAddr (a + k)) = false) → s.hasRange a n = false := by
    intro n
    induction n with
    | zero => intros; rfl
    | succ n ih =>
      intro a s hs
      rw [NatSet.hasRange, show s.has (wrapAddr a) = false by simpa using hs 0 (by omega),
        ih (a + 1) s fun k hk => by
          have := hs (k + 1) (by omega); rwa [show a + (k + 1) = a + 1 + k by omega] at this]
      rfl
  exact fin n a _ (gone n a s h)

theorem NatSet.ofList_wf_aux {limit : Nat} (l : List Nat) (hl : ∀ a ∈ l, a < limit) {s : NatSet}
    (h : s.wf limit = true) : NatSet.wf limit (l.foldl NatSet.add s) = true := by
  induction l generalizing s with
  | nil => exact h
  | cons a rest ih =>
    exact ih (fun b hb => hl b (List.mem_cons_of_mem _ hb)) (NatSet.add_wf h (hl a (List.mem_cons_self ..)))

/-- A set made of numbers below the limit is canonical. -/
theorem NatSet.ofList_wf {limit : Nat} (l : List Nat) (hl : ∀ a ∈ l, a < limit) : (NatSet.ofList l).wf limit = true :=
  NatSet.ofList_wf_aux l hl rfl

/-! ### The state's memory operations -/

/-- `MemWrite` keeps the canonical form. -/
theorem State.Canonical.memWrite {s : State} (h : s.Canonical) (a : Word) (n v : Nat) : (s.memWrite a n v).Canonical :=
  ⟨Memory.writeLE_wf h.mem .., NatSet.delGranules_wf h.tags .., NatSet.addRange_wf h.stored ..⟩

/-- `MemWriteCap` keeps the canonical form. -/
theorem State.Canonical.memWriteCap {s : State} (h : s.Canonical) (a : Word) (c : Cap) : (s.memWriteCap a c).Canonical := by
  refine ⟨Memory.writeLE_wf h.mem .., ?_, NatSet.addRange_wf h.stored ..⟩
  rw [State.memWriteCap_tags]
  split
  · exact NatSet.add_wf h.tags (granule_lt _)
  · exact NatSet.del_wf h.tags _

/-- A data write clears the tags of the granules it touches and of no other (R42). -/
theorem State.tagAt_writeData {s : State} (h : s.Canonical) (a : Word) (n v : Nat) (x : Word) :
    (s.writeData a n v).tagAt x = (decide (∀ k < n, granule x.toNat ≠ granule (a.toNat + k)) && s.tagAt x) := by
  rw [State.tagAt, State.writeData_tags, NatSet.has_delGranules h.tags, Bool.and_assoc]
  rfl

/-- A data read keeps the canonical form. -/
theorem State.Canonical.readData {s : State} (h : s.Canonical) (a : Word) (n : Nat) : (s.readData a n).2.Canonical :=
  ⟨h.mem, h.tags, h.stored⟩

theorem State.writeBytes_wf (s : State) {m : Memory} (h : m.wf = true) (a n v : Nat) :
    (s.writeBytes m a n v).wf = true := by
  induction n generalizing m a v with
  | zero => exact h
  | succ n ih =>
    refine ih ?_ _ _
    split
    · exact h
    · exact Memory.write_wf h (wrapAddr_lt a) _

/-- A data write keeps the canonical form. -/
theorem State.Canonical.writeData {s : State} (h : s.Canonical) (a : Word) (n v : Nat) : (s.writeData a n v).Canonical :=
  ⟨s.writeBytes_wf h.mem .., NatSet.delGranules_wf h.tags .., NatSet.addRange_wf h.stored ..⟩

/-- A capability write keeps the canonical form. -/
theorem State.Canonical.writeCapData {s : State} (h : s.Canonical) (a : Word) (c : Cap) :
    (s.writeCapData a c).Canonical := by
  unfold State.writeCapData
  split
  · exact h.writeData ..
  · exact h.memWriteCap ..

/-- Placing an instruction keeps the canonical form. -/
theorem State.Canonical.withFetchWord {s : State} (h : s.Canonical) (nbits w : Nat) : (s.withFetchWord nbits w).Canonical :=
  ⟨Memory.writeLE_wf h.mem .., NatSet.delGranules_wf h.tags .., NatSet.delRange_wf h.stored ..⟩

/-- Every reset state is canonical. -/
theorem State.resetWith_canonical (plat : Platform) (pcAddr : Word) (initMem : List Host.Cell) (initTags : List Nat) :
    (State.resetWith plat pcAddr initMem initTags).Canonical :=
  ⟨Memory.ofCells_wf _, NatSet.ofList_wf _ fun _ hg => by simpa using (List.mem_filter.mp hg).2, rfl⟩

/-- The reset state is canonical. -/
theorem State.reset_canonical : State.reset.Canonical :=
  State.resetWith_canonical _ _ _ _

end Sys2Proof.Machine
end

