-- ==== Sys2Proof/Laws/Operands.lean ====
section
/-! SUPPORT. The numbering parameters are injective whatever the machine's own numbering is, and what they pick out. -/

namespace Sys2Proof.Machine

theorem Perm.mem_all (n : Perm) : n ∈ Perm.all := by cases n <;> decide

theorem Csr.mem_all (c : Csr) : c ∈ Csr.all := by cases c <;> decide

theorem distinctOn_inj {α β : Type} [DecidableEq β] {f : α → β} {l : List α} (h : distinctOn f l = true) {a b : α}
    (ha : a ∈ l) (hb : b ∈ l) (hf : f a = f b) : a = b := by
  induction l with
  | nil => cases ha
  | cons c rest ih =>
    simp only [distinctOn, Bool.and_eq_true, List.all_eq_true, decide_eq_true_eq] at h
    rcases List.mem_cons.1 ha with rfl | ha' <;> rcases List.mem_cons.1 hb with rfl | hb'
    · rfl
    · exact absurd hf (h.1 b hb')
    · exact absurd hf.symm (h.1 a ha')
    · exact ih h.2 ha' hb'

/-- `PERM_BIT` gives different permissions different bits (D21). -/
theorem permBit_injective {a b : Perm} (h : permBit a = permBit b) : a = b := by
  unfold permBit at h
  split at h
  · next hd => exact distinctOn_inj hd (Perm.mem_all a) (Perm.mem_all b) h
  · exact distinctOn_inj (f := permOrder) (by decide) (Perm.mem_all a) (Perm.mem_all b) h

/-- `CSR_NUM` gives different CSRs different numbers (D31). -/
theorem csrNum_injective {a b : Csr} (h : csrNum a = csrNum b) : a = b := by
  unfold csrNum at h
  split at h
  · next hd => exact distinctOn_inj hd (Csr.mem_all a) (Csr.mem_all b) h
  · exact distinctOn_inj (f := csrOrder) (by decide) (Csr.mem_all a) (Csr.mem_all b) h

@[simp] theorem PermSet.has_ofFn (f : Perm → Bool) (n : Perm) : (PermSet.ofFn f).has n = f n := by cases n <;> rfl

@[simp] theorem PermSet.has_diff (s k : PermSet) (n : Perm) : (s.diff k).has n = (s.has n && !k.has n) := by
  cases n <;> rfl

theorem PermSet.ext_has {s t : PermSet} (h : ∀ n, s.has n = t.has n) : s = t := by
  obtain ⟨⟩ := s
  obtain ⟨⟩ := t
  have := fun n => h n
  simp only [PermSet.mk.injEq]
  exact ⟨h .R, h .W, h .C, h .SL, h .LM, h .LG, h .X, h .ASR, h .SDP0, h .SE, h .US, h .GL⟩

theorem PermSet.subset_iff {s t : PermSet} : s.subset t = true ↔ ∀ n, s.has n = true → t.has n = true := by
  simp only [PermSet.subset, List.all_eq_true, Bool.or_eq_true, Bool.not_eq_true']
  constructor
  · intro h n hn
    rcases h n (Perm.mem_all n) with h' | h'
    · rw [hn] at h'; cases h'
    · exact h'
  · intro h n _
    cases hs : s.has n
    · exact .inl rfl
    · exact .inr (h n hs)

theorem PermSet.subset_refl (s : PermSet) : s.subset s = true := PermSet.subset_iff.2 fun _ h => h

theorem PermSet.subset_trans {s t u : PermSet} (h : s.subset t = true) (k : t.subset u = true) : s.subset u = true :=
  PermSet.subset_iff.2 fun n hn => PermSet.subset_iff.1 k n (PermSet.subset_iff.1 h n hn)

/-- What a mask names, permission by permission (R83). -/
theorem permsNamed_has (mask : Word) (n : Perm) : (permsNamed mask).has n = mask.getLsbD (permBit n).toNat := by
  simp [permsNamed]

end Sys2Proof.Machine
end

