-- ==== Sys2Proof/Laws/Ops.lean ====
section
/-! SUPPORT. One lemma for each shared operation that says once everything it can do. -/

namespace Sys2Proof.Machine

/-- The capability checks pass exactly when all four hold (R48). -/
theorem Cap.useCheck_eq_none_iff (c : Cap) (need : Perm) (a n : Nat) :
    c.useCheck need a n = none ↔
      c.tag = true ∧ c.unsealed = true ∧ c.perms.has need = true ∧ c.base ≤ a ∧ a + n ≤ c.top := by
  unfold Cap.useCheck
  cases c.tag <;> cases c.unsealed <;> cases c.perms.has need <;> simp

/-- The fetch check passes exactly when its five conditions hold (R116). -/
theorem State.fetchCheck_eq_none_iff (s : State) :
    s.fetchCheck = none ↔
      s.pcc.useCheck .X s.pc.toNat 4 = none ∧ s.pc &&& 3 = 0 ∧ s.backedRange s.pc.toNat 4 = true := by
  unfold State.fetchCheck
  cases s.pcc.useCheck .X s.pc.toNat 4 with
  | some check => simp
  | none =>
    by_cases h : s.pc &&& 3#32 = 0#32 <;> cases s.backedRange s.pc.toNat 4 <;> simp [h]

/-- What asking the oracle can answer (R119). -/
theorem State.pollInterrupt_cases (s : State) :
    (s.mie = true ∧ ∃ answer rest, s.irq = answer :: rest ∧ s.pollInterrupt = (answer, { s with irq := rest })) ∨
    ((s.mie = false ∨ s.irq = []) ∧ s.pollInterrupt = (none, s)) := by
  unfold State.pollInterrupt State.presented State.afterPoll
  cases hm : s.mie
  · simp
  · cases hi : s.irq with
    | nil => exact .inr ⟨.inr rfl, by cases s; simp_all⟩
    | cons answer rest => simp

/-- With MIE = 0 nothing is asked (R119). -/
theorem State.pollInterrupt_of_masked {s : State} (h : s.mie = false) : s.pollInterrupt = (none, s) := by
  simp [State.pollInterrupt, State.presented, State.afterPoll, h]

/-- With nothing to present the oracle presents nothing. -/
theorem State.pollInterrupt_of_nil {s : State} (h : s.irq = []) : s.pollInterrupt = (none, s) := by
  rcases s.pollInterrupt_cases with ⟨_, _, _, h', _⟩ | ⟨_, h'⟩
  · rw [h] at h'; cases h'
  · exact h'

/-- With nothing to ask the state stays. -/
theorem State.afterPoll_of_quiet {s : State} (h : s.mie = false ∨ s.irq = []) : s.afterPoll = s := by
  rcases h with h | h
  · exact congrArg Prod.snd (State.pollInterrupt_of_masked h)
  · exact congrArg Prod.snd (State.pollInterrupt_of_nil h)

/-- A step with no interrupt presented fetches from the state with the oracle's answer used up (R119, R120). -/
theorem State.pollInterrupt_of_not_presented {s : State} (h : s.presented = none) : s.pollInterrupt = (none, s.afterPoll) := by
  rw [State.pollInterrupt, h]

/-- No byte of a range is a device's exactly when none of its bytes is. -/
theorem State.ioRange_eq_false_iff (s : State) (a n : Nat) :
    s.ioRange a n = false ↔ ∀ k < n, s.isIo (wrapAddr (a + k)) = false := by
  simp [State.ioRange]

theorem State.not_io_succ {s : State} {a n : Nat} (h : ∀ k < n + 1, s.isIo (wrapAddr (a + k)) = false) :
    s.isIo (wrapAddr a) = false ∧ ∀ k < n, s.isIo (wrapAddr (a + 1 + k)) = false :=
  ⟨h 0 (by omega), fun k hk => by have := h (k + 1) (by omega); rwa [show a + (k + 1) = a + 1 + k by omega] at this⟩

/-- Outside `IO_REGIONS` the hart reads memory (R38, R50). -/
theorem State.readBytes_of_memory {s : State} {a n : Nat} (d : Nat) (h : ∀ k < n, s.isIo (wrapAddr (a + k)) = false) :
    s.readBytes d a n = s.mem.readLE a n := by
  induction n generalizing a d with
  | zero => rfl
  | succ n ih => simp [State.readBytes, Memory.readLE, (State.not_io_succ h).1, ih d (State.not_io_succ h).2]

/-- Outside `IO_REGIONS` nothing is drawn. -/
theorem State.ioCount_of_memory {s : State} {a n : Nat} (h : ∀ k < n, s.isIo (wrapAddr (a + k)) = false) :
    s.ioCount a n = 0 := by
  induction n generalizing a with
  | zero => rfl
  | succ n ih => simp [State.ioCount, (State.not_io_succ h).1, ih (State.not_io_succ h).2]

/-- Outside `IO_REGIONS` the hart writes memory (R38, R50). -/
theorem State.writeBytes_of_memory {s : State} {a n : Nat} (m : Memory) (v : Nat)
    (h : ∀ k < n, s.isIo (wrapAddr (a + k)) = false) : s.writeBytes m a n v = m.writeLE a n v := by
  induction n generalizing a m v with
  | zero => rfl
  | succ n ih => simp [State.writeBytes, Memory.writeLE, (State.not_io_succ h).1, ih _ _ (State.not_io_succ h).2]

/-- A read of memory that is no device gives the bytes and changes nothing (R38). -/
theorem State.readData_of_memory {s : State} {a : Word} {n : Nat} (h : s.ioRange a.toNat n = false) :
    s.readData a n = (s.memRead a n, s) := by
  have h := (s.ioRange_eq_false_iff _ _).mp h
  simp [State.readData, State.memRead, State.readBytes_of_memory _ h, State.ioCount_of_memory h]

/-- A write of memory that is no device is `MemWrite` (R38, R42). -/
theorem State.writeData_of_memory {s : State} {a : Word} {n : Nat} (h : s.ioRange a.toNat n = false) (v : Nat) :
    s.writeData a n v = s.memWrite a n v := by
  simp [State.writeData, State.memWrite, State.writeBytes_of_memory _ v ((s.ioRange_eq_false_iff _ _).mp h)]

/-- A capability read of memory that is no device is `MemReadCap` (R40). -/
theorem State.readCapData_of_memory {s : State} {a : Word} (h : s.ioRange a.toNat 8 = false) :
    s.readCapData a = (s.memReadCap a, s) := by
  simp [State.readCapData, State.readData_of_memory h, State.memReadCap, h]

/-- A capability write of memory that is no device is `MemWriteCap` (R41). -/
theorem State.writeCapData_of_memory {s : State} {a : Word} (h : s.ioRange a.toNat 8 = false) (c : Cap) :
    s.writeCapData a c = s.memWriteCap a c := by
  simp [State.writeCapData, h]

/-- Byte k of what the hart reads, where it is memory's (R38, R50). -/
theorem State.readBytes_byte {s : State} {a n k : Nat} (d : Nat) (hk : k < n) (h : s.isIo (wrapAddr (a + k)) = false) :
    BitVec.ofNat 8 (s.readBytes d a n / 256 ^ k) = s.mem.read (wrapAddr (a + k)) := by
  induction n generalizing a d k with
  | zero => omega
  | succ n ih =>
    cases k with
    | zero =>
      simp only [Nat.add_zero] at h ⊢
      apply BitVec.eq_of_toNat_eq
      have := (s.mem.read (wrapAddr a)).isLt
      simp only [State.readBytes, h, BitVec.toNat_ofNat, Nat.pow_zero, Nat.div_one, Bool.false_eq_true, if_false]
      omega
    | succ k =>
      have hk' : k < n := by omega
      rw [show a + (k + 1) = a + 1 + k by omega] at h ⊢
      have split : ∀ x : Byte, ∀ y : Nat, (x.toNat + 256 * y) / 256 ^ (k + 1) = y / 256 ^ k := fun x y => by
        have hx := x.isLt
        rw [Nat.pow_succ', ← Nat.div_div_eq_div_mul]
        congr 1
        omega
      unfold State.readBytes
      split
      · rw [split]; exact ih (d + 1) hk' h
      · rw [split]; exact ih d hk' h

/-- A byte outside those written, and a device's byte, reads as before. -/
theorem State.read_writeBytes_of_ne {s : State} {a n x : Nat} (m : Memory) (v : Nat)
    (h : ∀ k < n, s.isIo (wrapAddr (a + k)) = false → wrapAddr (a + k) ≠ x) :
    (s.writeBytes m a n v).read x = m.read x := by
  induction n generalizing a m v with
  | zero => rfl
  | succ n ih =>
    rw [State.writeBytes, ih _ _ fun k hk => by
      have := h (k + 1) (by omega); rwa [show a + (k + 1) = a + 1 + k by omega] at this]
    split
    · rfl
    · next hio => exact Memory.read_write_of_ne m _ fun e => h 0 (by omega) (by simpa using hio) (by simpa using e.symm)

/-- A byte the hart wrote that is no device's reads as written (R38, R50). -/
theorem State.read_writeBytes {s : State} {a n k : Nat} {m : Memory} (hm : m.wf = true) (v : Nat)
    (hn : n ≤ addressSpace) (hk : k < n) (h : s.isIo (wrapAddr (a + k)) = false) :
    (s.writeBytes m a n v).read (wrapAddr (a + k)) = BitVec.ofNat 8 (v / 256 ^ k) := by
  induction n generalizing a m v k with
  | zero => omega
  | succ n ih =>
    cases k with
    | zero =>
      simp only [Nat.add_zero] at h ⊢
      rw [State.writeBytes, State.read_writeBytes_of_ne _ _ fun j hj _ => by
        have := wrapAddr_add_ne (a := a) (i := j + 1) (j := 0) (by omega) (by omega) (by omega)
        rwa [show a + (j + 1) = a + 1 + j by omega] at this]
      simp [h, Memory.read_write_same hm]
    | succ k =>
      rw [show a + (k + 1) = a + 1 + k by omega] at h ⊢
      rw [State.writeBytes, ih ?_ _ (by omega) (by omega) h, Nat.pow_succ', Nat.div_div_eq_div_mul]
      split
      · exact hm
      · exact Memory.write_wf hm (wrapAddr_lt a) _

/-- A data read changes nothing but the count of drawn values. -/
theorem State.readData_frame (s : State) (a : Word) (n : Nat) :
    ∃ d, (s.readData a n).2 = { s with draws := d } :=
  ⟨_, rfl⟩

/-- Everything a fetch that answers a word says (R116, R52, R53). -/
theorem State.fetch_word {s s' : State} {w : Word} (h : s.fetch = .word w s') :
    s.fetchCheck = none ∧ (s.plat.fetchCoherent = true ∨ s.stored.hasRange s.pc.toNat 4 = false) ∧
      w = BitVec.ofNat 32 (s.readData s.pc 4).1 ∧ s' = (s.readData s.pc 4).2 := by
  unfold State.fetch at h
  cases hc : s.fetchCheck with
  | some x => rw [hc] at h; cases h
  | none =>
    rw [hc] at h
    cases hk : s.plat.fetchCoherent <;> cases hr : s.stored.hasRange s.pc.toNat 4 <;> simp [hk, hr] at h <;>
      simp [h.1.symm, h.2.symm]

/-- A fetch traps exactly on the exception of the fetch check (R116). -/
theorem State.fetch_trap {s : State} {x : Exc} (h : s.fetch = .trap x) : s.fetchCheck = some x := by
  unfold State.fetch at h
  cases hc : s.fetchCheck with
  | some y => rw [hc] at h; simpa using h
  | none => rw [hc] at h; simp only at h; split at h <;> cases h

/-- A fetch of bytes that may not be executed: not coherent, and stored by the program (R52). -/
theorem State.fetch_stale {s : State} (h : s.fetch = .stale) :
    s.fetchCheck = none ∧ s.plat.fetchCoherent = false ∧ s.stored.hasRange s.pc.toNat 4 = true := by
  unfold State.fetch at h
  cases hc : s.fetchCheck with
  | some y => rw [hc] at h; cases h
  | none =>
    rw [hc] at h
    cases hk : s.plat.fetchCoherent <;> cases hr : s.stored.hasRange s.pc.toNat 4 <;> simp [hk, hr] at h ⊢

/-- Clearing address bits that are clear changes nothing. -/
theorem Cap.clearLow_of_clear {c : Cap} {bits : Word} (h : c.addr &&& bits = 0) : c.clearLow bits = c := by
  simp [Cap.clearLow, h]

/-- Clearing address bits changes the address, and can only clear the tag. -/
theorem Cap.clearLow_cases (c : Cap) (bits : Word) :
    c.clearLow bits = c ∨ c.clearLow bits = c.setAddr (c.addr &&& ~~~bits) := by
  unfold Cap.clearLow
  split
  · exact .inl rfl
  · exact .inr rfl

theorem and_not_of_and_eq_zero {x bits : Word} (h : x &&& bits = 0) : x &&& ~~~bits = x := by
  refine BitVec.eq_of_getLsbD_eq fun i hi => ?_
  have hb := congrArg (·.getLsbD i) h
  simp only [BitVec.getLsbD_and] at hb
  simp only [BitVec.getLsbD_and, BitVec.getLsbD_not, hi, decide_true, Bool.true_and]
  revert hb
  cases x.getLsbD i <;> cases bits.getLsbD i <;> simp

/-- Clearing address bits clears them, keeps every other field, and gains no tag. -/
theorem Cap.clearLow_eq (c : Cap) (bits : Word) :
    c.clearLow bits = { c with addr := c.addr &&& ~~~bits, tag := (c.clearLow bits).tag } ∧
      ((c.clearLow bits).tag = true → c.tag = true) := by
  by_cases h : c.addr &&& bits = 0
  · rw [Cap.clearLow_of_clear h, and_not_of_and_eq_zero h]; exact ⟨rfl, id⟩
  · simp only [Cap.clearLow, if_neg h, Cap.setAddr, Bool.and_eq_true, true_and]
    exact And.left

/-- What return from trap does, with ASR and without (R122). -/
theorem State.trapReturn_cases (s : State) :
    (s.hasAsr = true ∧ s.trapReturn = s.returnFromTrap) ∨
    (s.hasAsr = false ∧ s.trapReturn = s.takeException asrFault) := by
  unfold State.trapReturn
  cases s.hasAsr <;> simp

/-- A load that answers passed its checks (R48, R120). -/
theorem State.loadData_ok {s : State} {i : RegIdx} {a : Word} {n : Nat} {r : Nat × State}
    (h : s.loadData i a n = .ok r) : s.loadCheck i a n = none ∧ r = s.readData a n := by
  unfold State.loadData at h
  cases hc : s.loadCheck i a n with
  | some x => rw [hc] at h; cases h
  | none => rw [hc] at h; cases h; exact ⟨rfl, rfl⟩

/-- A store that answers passed its checks (R48, R120). -/
theorem State.storeData_ok {s t : State} {i : RegIdx} {a : Word} {n v : Nat}
    (h : s.storeData i a n v = .ok t) : s.storeCheck i a n = none ∧ t = s.writeData a n v := by
  unfold State.storeData at h
  cases hc : s.storeCheck i a n with
  | some x => rw [hc] at h; cases h
  | none => rw [hc] at h; cases h; exact ⟨rfl, rfl⟩

/-- A capability load that answers passed its checks and was filtered (R48, R49). -/
theorem State.loadCap_ok {s : State} {i : RegIdx} {a : Word} {r : Cap × State} (h : s.loadCap i a = .ok r) :
    s.loadCheck i a 8 = none ∧ r = (loadFilter (s.readReg i).perms (s.readCapData a).1, (s.readCapData a).2) := by
  unfold State.loadCap at h
  cases hc : s.loadCheck i a 8 with
  | some x => rw [hc] at h; cases h
  | none => rw [hc] at h; cases h; exact ⟨rfl, rfl⟩

/-- A capability store that answers passed its checks and stored the filtered value (R48, R49). -/
theorem State.storeCap_ok {s t : State} {i : RegIdx} {a : Word} {c : Cap} (h : s.storeCap i a c = .ok t) :
    s.storeCheck i a 8 = none ∧ t = s.writeCapData a (storeFilter (s.readReg i).perms c) := by
  unfold State.storeCap at h
  cases hc : s.storeCheck i a 8 with
  | some x => rw [hc] at h; cases h
  | none => rw [hc] at h; cases h; exact ⟨rfl, rfl⟩

/-- A CSR read answers exactly with ASR (R29). -/
theorem State.csrRead_ok {s : State} {r : Csr} {p : Cap × State} (h : s.csrRead r = .ok p) :
    s.hasAsr = true ∧ p.1 = s.csrValue r ∧ (p.2 = s ∨ p.2 = { s with draws := s.draws + 1 }) := by
  unfold State.csrRead at h
  cases ha : s.hasAsr with
  | false => simp [ha] at h
  | true =>
    rw [ha, if_pos rfl] at h
    cases h
    refine ⟨rfl, rfl, ?_⟩
    by_cases hr : r = .mstatus
    · exact .inr (if_pos hr)
    · exact .inl (if_neg hr)

/-- A CSR write answers exactly with ASR (R29). -/
theorem State.csrWrite_ok {s t : State} {r : Csr} {c : Cap} (h : s.csrWrite r c = .ok t) :
    s.hasAsr = true ∧ t = s.csrReplace r c := by
  unfold State.csrWrite at h
  cases ha : s.hasAsr with
  | false => simp [ha] at h
  | true => rw [ha, if_pos rfl] at h; cases h; exact ⟨rfl, rfl⟩

end Sys2Proof.Machine
end

