-- ==== Sys2Proof/Laws/PerInstr.lean ====
section
/-! SUPPORT. A statement about every instruction as syntax, proved constructor by constructor: its word carries its
destination register in bits 11:7 (R55), under every well-formed ENC. -/

namespace Sys2Proof.Laws.DestinationField

/-- The destination register of an instruction. -/
def dest : Instr → RegIdx
  | .auipc rd _ => rd
  | .jal rd _ => rd
  | .jalr rd _ _ => rd
  | .addiy rd _ _ => rd
  | .scbnds rd _ _ => rd
  | .clrperm rd _ _ => rd
  | .gcperm rd _ => rd

/-- Every word the encoder writes for the instruction has the destination register in its `rd` field. -/
def Statement (i : Instr) : Prop :=
  ∀ (enc : Enc) (w : Word), enc.ok = true → encodeWith enc i = some w → rdField w = dest i

theorem auipc (rd : RegIdx) (imm : BitVec 20) : Statement (.auipc rd imm) := by
  intro enc w _ h
  simp only [encodeWith, Option.some.injEq] at h
  subst h
  unfold rdField uWord auipcPattern
  refine BitVec.eq_of_getLsbD_eq fun i hi => ?_
  interval_cases i <;> simp [place, dest]

theorem jal (rd : RegIdx) (imm : BitVec 21) : Statement (.jal rd imm) := by
  intro enc w _ h
  simp only [encodeWith, Option.some.injEq] at h
  subst h
  unfold rdField jWord jalPattern
  refine BitVec.eq_of_getLsbD_eq fun i hi => ?_
  interval_cases i <;> simp [place, dest]

theorem jalr (rd rs1 : RegIdx) (imm : BitVec 12) : Statement (.jalr rd rs1 imm) := by
  intro enc w _ h
  simp only [encodeWith, Option.some.injEq] at h
  subst h
  exact rdField_iWord (by decide) ..

theorem addiy (rd rs1 : RegIdx) (imm : BitVec 12) : Statement (.addiy rd rs1 imm) := by
  intro enc w hok h
  simp only [encodeWith, Option.map_eq_some_iff] at h
  obtain ⟨p, hp, rfl⟩ := h
  simp only [Enc.ok, hp, Bool.and_eq_true, Option.all_some] at hok
  exact rdField_iWord (and_eq_zero_of_part (Pattern.value_and_fields hok.1.1.1.1.1.1.1) (by decide)) ..

theorem scbnds (rd rs1 rs2 : RegIdx) : Statement (.scbnds rd rs1 rs2) := by
  intro enc w hok h
  simp only [encodeWith, Option.map_eq_some_iff] at h
  obtain ⟨p, hp, rfl⟩ := h
  simp only [Enc.ok, hp, Bool.and_eq_true, Option.all_some] at hok
  exact rdField_rWord (and_eq_zero_of_part (Pattern.value_and_fields hok.1.1.1.1.1.1.2) (by decide)) ..

theorem clrperm (rd rs1 rs2 : RegIdx) : Statement (.clrperm rd rs1 rs2) := by
  intro enc w hok h
  simp only [encodeWith, Option.map_eq_some_iff] at h
  obtain ⟨p, hp, rfl⟩ := h
  simp only [Enc.ok, hp, Bool.and_eq_true, Option.all_some] at hok
  exact rdField_rWord (and_eq_zero_of_part (Pattern.value_and_fields hok.1.1.1.1.1.2) (by decide)) ..

theorem gcperm (rd rs1 : RegIdx) : Statement (.gcperm rd rs1) := by
  intro enc w hok h
  simp only [encodeWith, Option.map_eq_some_iff] at h
  obtain ⟨p, hp, rfl⟩ := h
  simp only [Enc.ok, hp, Bool.and_eq_true, Option.all_some] at hok
  exact rdField_rWord (and_eq_zero_of_part (Pattern.value_and_fields hok.1.1.1.1.2) (by decide)) ..

end Sys2Proof.Laws.DestinationField
end

