-- ==== Sys2Proof/Laws/Registers.lean ====
section
/-! SUPPORT. What reading a register after an update gives (R22). -/

namespace Sys2Proof.Machine

variable (s : State)

@[simp] theorem State.readReg_zr : s.readReg zr = Cap.null := rfl

theorem State.readReg_of_ne {i : RegIdx} (h : i ≠ zr) : s.readReg i = s.regs[i.toNat]'i.isLt := by
  simp [State.readReg, h]

/-- Reading depends on the register file alone. -/
theorem State.readReg_congr {s t : State} (h : s.regs = t.regs) (i : RegIdx) : s.readReg i = t.readReg i := by
  simp [State.readReg, h]

@[simp] theorem State.writeReg_zr (c : Cap) : s.writeReg zr c = s := by simp [State.writeReg]

/-- Reading the register just written: the value, or NULL for `zr`. -/
theorem State.readReg_writeReg_same (i : RegIdx) (c : Cap) :
    (s.writeReg i c).readReg i = if i = zr then Cap.null else c := by
  by_cases h : i = zr
  · simp [h]
  · simp [State.readReg, State.writeReg, h]

/-- A write leaves every other register as it was. -/
theorem State.readReg_writeReg_of_ne {i j : RegIdx} (h : j ≠ i) (c : Cap) :
    (s.writeReg i c).readReg j = s.readReg j := by
  by_cases hi : i = zr
  · simp [hi]
  · have hn : i.toNat ≠ j.toNat := fun e => h (BitVec.eq_of_toNat_eq e.symm)
    simp [State.readReg, State.writeReg, hi, hn]

@[simp] theorem State.readReg_advancePc (i : RegIdx) : s.advancePc.readReg i = s.readReg i := rfl

@[simp] theorem State.readReg_takeException (x : Exc) (i : RegIdx) :
    (s.takeException x).readReg i = s.readReg i := rfl

@[simp] theorem State.readReg_takeInterrupt (code : BitVec 31) (i : RegIdx) :
    (s.takeInterrupt code).readReg i = s.readReg i := rfl

end Sys2Proof.Machine
end

