-- ==== Sys2Proof/Laws/Step.lean ====
section
/-! SUPPORT. What exec and step can do, said once: exec always answers a next state; step takes an interrupt, takes an
exception, or runs the decoded instruction; and a placed instruction is the one the next step runs. -/

namespace Sys2Proof.Machine

/-! ### exec -/

theorem exec_auipc (rd : RegIdx) (imm : BitVec 20) (s : State) :
    exec (.auipc rd imm) s = .next (s.writeReg rd (auipcResult s imm)).advancePc := rfl

theorem exec_addiy (rd rs1 : RegIdx) (imm : BitVec 12) (s : State) :
    exec (.addiy rd rs1 imm) s = .next (s.writeReg rd (addiyResult (s.readReg rs1) imm)).advancePc := rfl

theorem exec_scbnds (rd rs1 rs2 : RegIdx) (s : State) :
    exec (.scbnds rd rs1 rs2) s = .next (s.writeReg rd (scbndsResult (s.readReg rs1) (s.readInt rs2))).advancePc := rfl

theorem exec_clrperm (rd rs1 rs2 : RegIdx) (s : State) :
    exec (.clrperm rd rs1 rs2) s =
      .next (s.writeReg rd (clrpermResult (s.readReg rs1) (permsNamed (s.readInt rs2)))).advancePc := rfl

theorem exec_gcperm (rd rs1 : RegIdx) (s : State) :
    exec (.gcperm rd rs1) s = .next (s.writeReg rd (Cap.int (permMask (permsShown (s.readReg rs1).perms)))).advancePc := rfl

theorem exec_jal_aligned {s : State} {imm : BitVec 21} (h : jalTarget s imm &&& 3 = 0) (rd : RegIdx) :
    exec (.jal rd imm) s = .next { s.writeReg rd (s.linkCap rd) with pcc := s.pcc.setAddr (jalTarget s imm) } := by
  show execJal rd imm s = _
  rw [execJal, if_neg (not_not_intro h)]

theorem exec_jal_misaligned {s : State} {imm : BitVec 21} (h : jalTarget s imm &&& 3 ≠ 0) (rd : RegIdx) :
    exec (.jal rd imm) s = .next (s.takeException (.instrAddressMisaligned (jalTarget s imm))) := by
  show execJal rd imm s = _
  rw [execJal, if_pos h]

theorem exec_jalr_aligned {s : State} {rs1 : RegIdx} {imm : BitVec 12} (h : jalrTarget (s.readReg rs1) imm &&& 3 = 0)
    (rd : RegIdx) :
    exec (.jalr rd rs1 imm) s =
      .next { s.writeReg rd (s.linkCap rd) with
        pcc := jalrPcc rd rs1 (s.readReg rs1) imm
        mie := jalrMie rd rs1 (s.readReg rs1) imm s.mie } := by
  show execJalr rd rs1 imm s = _
  rw [execJalr, if_neg (not_not_intro h)]

theorem exec_jalr_misaligned {s : State} {rs1 : RegIdx} {imm : BitVec 12}
    (h : jalrTarget (s.readReg rs1) imm &&& 3 ≠ 0) (rd : RegIdx) :
    exec (.jalr rd rs1 imm) s =
      .next (s.takeException (.instrAddressMisaligned (jalrTarget (s.readReg rs1) imm))) := by
  show execJalr rd rs1 imm s = _
  rw [execJalr, if_pos h]

/-- The forms a next state of exec takes: a result in a register and the pc advanced, a jump, or a misaligned target's
exception. -/
theorem exec_cases {i : Instr} {s t : State} (h : exec i s = .next t) :
    (∃ rd c, t = (s.writeReg rd c).advancePc) ∨
    (∃ rd c m, t = { s.writeReg rd (s.linkCap rd) with pcc := c, mie := m }) ∨
    (∃ target, t = s.takeException (.instrAddressMisaligned target)) := by
  cases i with
  | auipc rd imm => rw [exec_auipc] at h; cases h; exact .inl ⟨_, _, rfl⟩
  | addiy rd rs1 imm => rw [exec_addiy] at h; cases h; exact .inl ⟨_, _, rfl⟩
  | scbnds rd rs1 rs2 => rw [exec_scbnds] at h; cases h; exact .inl ⟨_, _, rfl⟩
  | clrperm rd rs1 rs2 => rw [exec_clrperm] at h; cases h; exact .inl ⟨_, _, rfl⟩
  | gcperm rd rs1 => rw [exec_gcperm] at h; cases h; exact .inl ⟨_, _, rfl⟩
  | jal rd imm =>
    by_cases ha : jalTarget s imm &&& 3 = 0
    · rw [exec_jal_aligned ha] at h; cases h
      exact .inr (.inl ⟨rd, _, (s.writeReg rd (s.linkCap rd)).mie, rfl⟩)
    · rw [exec_jal_misaligned ha] at h; cases h; exact .inr (.inr ⟨_, rfl⟩)
  | jalr rd rs1 imm =>
    by_cases ha : jalrTarget (s.readReg rs1) imm &&& 3 = 0
    · rw [exec_jalr_aligned ha] at h; cases h; exact .inr (.inl ⟨rd, _, _, rfl⟩)
    · rw [exec_jalr_misaligned ha] at h; cases h; exact .inr (.inr ⟨_, rfl⟩)

/-! ### step -/

/-- Everything a step that answers a next state did. -/
theorem stepWith_cases {enc : Enc} {s t : State} (h : stepWith enc s = .next t) :
    (∃ code s1, s.pollInterrupt = (some code, s1) ∧ t = s1.takeInterrupt code) ∨
    (∃ s1, s.pollInterrupt = (none, s1) ∧
      ((∃ x, s1.fetch = .trap x ∧ t = s1.takeException x) ∨
       (∃ w s2 i, s1.fetch = .word w s2 ∧ decodeWith enc w = .ok i ∧
         ((i.regsExist s2.plat.nregs = false ∧ t = s2.takeException (.illegalInstruction w)) ∨
          (i.regsExist s2.plat.nregs = true ∧ exec i s2 = .next t))))) := by
  unfold stepWith at h
  split at h
  · next code s1 hp => cases h; exact .inl ⟨_, _, hp, rfl⟩
  · next s1 hp =>
    refine .inr ⟨s1, hp, ?_⟩
    split at h
    · next x hf => cases h; exact .inl ⟨_, hf, rfl⟩
    · cases h
    · next w s2 hf =>
      unfold runWordWith at h
      split at h
      · cases h
      · next i hd =>
        refine .inr ⟨w, s2, i, hf, hd, ?_⟩
        split at h
        · next hr => exact .inr ⟨hr, h⟩
        · next hr => cases h; exact .inl ⟨by simpa using hr, rfl⟩

/-! ### A placed instruction -/

theorem ofNat_toNat_mod (w : Word) : BitVec.ofNat 32 (w.toNat % 256 ^ 4) = w := by
  apply BitVec.eq_of_toNat_eq
  have := w.isLt
  simp only [BitVec.toNat_ofNat]
  omega

/-- The next fetch of a canonical state whose fetch check passes reads the instruction placed there. -/
theorem State.fetch_withFetchWord {s : State} (hc : s.Canonical) (hf : s.fetchCheck = none)
    (hio : s.ioRange s.pc.toNat 4 = false) (nbits w : Nat) :
    (s.withFetchWord nbits w).fetch = .word (tableWord nbits w) (s.withFetchWord nbits w) := by
  have hf' : (s.withFetchWord nbits w).fetchCheck = none := hf
  have hpc : (s.withFetchWord nbits w).pc = s.pc := rfl
  have hio' : (s.withFetchWord nbits w).ioRange s.pc.toNat 4 = false := hio
  have hst : (s.withFetchWord nbits w).stored.hasRange s.pc.toNat 4 = false :=
    NatSet.hasRange_delRange hc.stored _ _
  have hrd : (s.withFetchWord nbits w).memRead s.pc 4 = (tableWord nbits w).toNat % 256 ^ 4 :=
    Memory.readLE_writeLE hc.mem _ _ _ (by decide)
  unfold State.fetch
  rw [hf']
  simp only [hpc, hst, State.readData_of_memory hio', hrd, ofNat_toNat_mod]
  simp

end Sys2Proof.Machine
end

