-- ==== Sys2Proof/Tests/Slice0.lean ====
section
/-! SUPPORT. The model's own tests: what the checks refuse, words written out from the formats, vectors of
95_test_vectors.md, and for each statement with hypotheses a state that meets them. -/

namespace Sys2Proof.Tests

open Sys2Proof.Machine

/-! ### Well-formedness -/

theorem test_wf_refuses_missing_register : (Instr.auipc 16 0).regsExist .x16 = false := by decide

theorem test_wf_refuses_missing_source : (Instr.scbnds 1 2 31).wf .x16 = false := by decide

theorem test_wf_accepts_high_register_of_32 : (Instr.scbnds 1 2 31).wf .x32 = true := by decide

theorem test_wf_refuses_odd_jump_offset : (Instr.jal 0 7).immOk = false := by decide

/-! ### Decoding

`sampleEnc` is made up for the tests: it is no claim about the hardware's ENC, which is a parameter (R60). -/

def sampleEnc : Enc where
  addiy := some { mask := 0x0000707F, value := 0x0000000B }
  scbnds := some { mask := 0xFE00707F, value := 0x0000100B }
  clrperm := some { mask := 0xFE00707F, value := 0x0200100B }
  gcperm := some { mask := 0xFFF0707F, value := 0x0400100B }

theorem test_sample_enc_ok : sampleEnc.ok = true := by decide

/-- `auipc a0, 0x7FFFF`: imm20 01111111111111111111, rd 01010, opcode 0010111 (V-A1). -/
theorem test_decode_auipc : decodeWith sampleEnc 0b01111111111111111111010100010111 = .ok (.auipc 10 0x7FFFF) := by decide

/-- `jal zr, -16`: imm[20] 1, imm[10:1] 1111111000, imm[11] 1, imm[19:12] 11111111, rd 00000, opcode 1101111. -/
theorem test_decode_jal : decodeWith sampleEnc 0b11111111000111111111000001101111 = .ok (.jal 0 (BitVec.ofInt 21 (-16))) := by
  decide

/-- `jal ra, +16128`: every part of the offset in its own place (V-J1). -/
theorem test_decode_jal_parts : decodeWith sampleEnc 0b01110000000100000011000011101111 = .ok (.jal 1 0x3F00) := by decide

/-- `jalr ra, 0(t0)`: imm12 0, rs1 00101, funct3 000, rd 00001, opcode 1100111 (P3). -/
theorem test_decode_jalr : decodeWith sampleEnc 0b00000000000000101000000011100111 = .ok (.jalr 1 5 0) := by decide

theorem test_decode_jalr_immediate : decodeWith sampleEnc 0b11111111110000101000001101100111 = .ok (.jalr 6 5 0xFFC) := by
  decide

theorem test_decode_addiy : decodeWith sampleEnc 0b10010001000001010000010110001011 = .ok (.addiy 11 10 0x910) := by decide

theorem test_decode_scbnds : decodeWith sampleEnc 0b00000000101101010001011000001011 = .ok (.scbnds 12 10 11) := by decide

theorem test_decode_clrperm : decodeWith sampleEnc 0b00000010011101100001011010001011 = .ok (.clrperm 13 12 7) := by decide

theorem test_decode_gcperm : decodeWith sampleEnc 0b00000100000001101001001100001011 = .ok (.gcperm 6 13) := by decide

/-- Opcode 1100111 with funct3 001 is no row of the table. -/
theorem test_decode_refuses_other_funct3 : decodeWith sampleEnc 0x00001067 = .error (.noRow 0x00001067) := by decide

theorem test_decode_refuses_zero : decodeWith sampleEnc 0 = .error (.noRow 0) := by decide

theorem test_decode_refuses_three_bytes : decode sampleEnc [0x17, 0x05, 0x00] = .error .truncated := by decide

theorem test_decode_table_word : decodeTableWord 32 0x00000517 = some (.auipc 10 0) := by decide

theorem test_encode_absent_row : encodeWith Enc.absent (.gcperm 1 2) = none := by decide

/-! ### Helpers -/

/-- A platform with 32 registers, everything else at its default. -/
def plat32 : Platform := { Config.platform with nregs := .x32 }

/-- The `pcc` of programs P1 to P5: the Executable root over [0x20000000, 0x20004000), at an address. -/
def codeCap (a : Word) : Cap := Cap.ofMeta true 0x5E1A0000 a

/-- The type 2 sentry of P3: R C LM LG X without ASR, at 0x20000400. -/
def sentry2 : Cap := Cap.ofMeta true 0x569A0000 0x20000400

/-- A machine at 0x20000100 with the given MIE and registers. -/
def start (mie : Bool) (l : List (RegIdx × Cap)) : State :=
  l.foldl (fun s p => s.writeReg p.1 p.2)
    { State.resetWith plat32 0 [] [] with pcc := codeCap 0x20000100, mie := mie }

/-- The next state of an outcome, for reading one field of it. -/
def after (o : Host.Outcome State Fault Refusal) : State :=
  match o with
  | .next s => s
  | .fault _ => start false []
  | .refused _ => start false []

/-- The outcome is a next state. -/
def goesOn (o : Host.Outcome State Fault Refusal) : Bool :=
  match o with
  | .next _ => true
  | .fault _ => false
  | .refused _ => false

theorem eq_next_after {o : Host.Outcome State Fault Refusal} (h : goesOn o = true) : o = .next (after o) := by
  cases o with
  | next s => rfl
  | fault r => cases h
  | refused r => cases h

/-! ### One instruction -/

/-- 43_auipc.md, worked example: imm20 = 1 adds 0x800, not 0x1000. -/
theorem test_auipc_shift : (after (exec (.auipc 10 1) (start false []))).readReg 10 = codeCap 0x20000900 := by
  decide

/-- 43_auipc.md, worked example: one step below the base loses the tag. -/
theorem test_auipc_below_base :
    (after (exec (.auipc 10 0xFFFFF) (start false []))).readReg 10 = { codeCap 0x1FFFF900 with tag := false } := by
  decide

/-- R110, worked example: bounds [0xBF0, 0xC10), address 0xBF8. -/
def smallCap (a : Word) : Cap := { rootRw with e := 0, t := 0x010, b := 0x1F0, addr := a }

theorem test_addiy_above_top :
    (after (exec (.addiy 11 10 0x10) (start false [(10, smallCap 0xBF8)]))).readReg 11 = smallCap 0xC08 := by
  decide

theorem test_addiy_below_base :
    (after (exec (.addiy 10 10 0xFF7) (start false [(10, smallCap 0xBF8)]))).readReg 10 =
      { smallCap 0xBEF with tag := false } := by
  decide

/-- R109, worked example: ROOT_RW at 0x12345678, length 0x1234, into the register that holds the length. -/
theorem test_scbnds_rounds_outward :
    let r := (after (exec (.scbnds 11 10 11) (start false [(10, { rootRw with addr := 0x12345678 }),
      (11, Cap.int 0x1234)]))).readReg 11
    (r.tag, r.e, r.t, r.b, r.base, r.top) = (true, 4, 0x08B, 0x167, 0x12345670, 0x123468B0) := by
  decide

/-- R109, corner case (4): the rounding overflow takes the next exponent. -/
theorem test_scbnds_rounding_overflow :
    let r := scbndsResult { rootRw with addr := 0x20000001 } 0x3FF
    (r.e, r.base, r.top) = (2, 0x20000000, 0x20000400) := by
  decide

/-- R83, worked example: clearing W from the RW root drops SL and keeps G. -/
theorem test_clrperm_rw_root :
    clrpermResult rootRw (PermSet.ofList [.W]) = { rootRw with p := 0b10111 } := by
  decide

/-- R83, corner case (5): a sealed source that changes loses its tag. -/
theorem test_clrperm_sealed_source : (clrpermResult sentry2 (PermSet.ofList [.LM])).tag = false := by decide

/-- R85: an untagged sealed source is read like any other, and the result is an integer. -/
theorem test_gcperm_integer :
    ((after (exec (.gcperm 6 5) (start false [(5, { sentry2 with tag := false })]))).readReg 6).metaWord = 0 := by
  decide

/-- P2: a direct call with MIE = 1 leaves a type 5 link and MIE. -/
theorem test_jal_link :
    let t := after (exec (.jal 1 8) (start true []))
    (t.readReg 1, t.pcc, t.mie) = (Cap.ofMeta true 0x5F5A0000 0x20000104, codeCap 0x20000108, true) := by
  decide

/-- R93: a target that is not a multiple of 4 raises and writes no link. -/
theorem test_jal_misaligned :
    let t := after (exec (.jal 1 6) (start true []))
    (t.readReg 1, t.mepc, t.mcause, t.mtval, t.mpie, t.mie) =
      (Cap.null, codeCap 0x20000100, 0, 0x20000106, true, false) := by
  decide

/-- P3: a call through the interrupt-disabling sentry. -/
theorem test_jalr_call_through_sentry :
    let t := after (exec (.jalr 1 5 0) (start true [(5, sentry2)]))
    (t.readReg 1, t.pcc, t.mie) = (Cap.ofMeta true 0x5F5A0000 0x20000104, Cap.ofMeta true 0x561A0000 0x20000400, false) := by
  decide

/-- P5: the same sentry entered without a link in `ra` is refused, and MIE stays. -/
theorem test_jalr_refused_sentry :
    let t := after (exec (.jalr 0 5 0) (start true [(5, sentry2)]))
    (t.pcc, t.mie) = (Cap.ofMeta false 0x561A0000 0x20000400, true) := by
  decide

/-! ### One step -/

theorem test_step_from_reset : (after (step (State.reset.withFetchWord 32 0x00000017))).pcc = { rootExec with addr := 4 } := by
  decide

/-- R112 with R22: the word of `auipc zr, 0` writes nothing. -/
theorem test_step_zr_reads_null : (after (step (State.reset.withFetchWord 32 0x00000017))).readReg 0 = Cap.null := by
  decide

/-- P5: the fetch through an untagged `pcc` traps to `mtvec`, which saves the untagged capability whole. -/
theorem test_step_untagged_pcc :
    let t := after (step { start true [] with pcc := Cap.ofMeta false 0x561A0000 0x20000400 })
    (t.mepc, t.pcc, t.mpie, t.mie) = (Cap.ofMeta false 0x561A0000 0x20000400, rootExec, true, false) := by
  decide

theorem test_step_unmatched_word : goesOn (stepWith sampleEnc State.reset) = false := by decide

/-- R121, R119: an interrupt before the instruction, bit 31 of the cause set. -/
theorem test_step_interrupt :
    let t := after (step { start true [] with irq := [some 7, none] })
    (t.mcause, t.mtval, t.mepc, t.irq) = (0x80000007, 0, codeCap 0x20000100, [none]) := by
  decide

/-! ### Memory -/

/-- R38, R42: little-endian, and the granule written loses its tag. -/
theorem test_store_clears_tag :
    let s := (start false []).memWriteCap 0x1000 rootRw
    let t := s.memWrite 0x1003 2 0xABCD
    (s.tagAt 0x1000, t.tagAt 0x1000, t.readMem 0x1003, t.readMem 0x1004) = (true, false, 0xCD, 0xAB) := by
  decide

/-- R13, R39: the image of the RW root, metadata word 0x7E3E0000 (R114). -/
theorem test_capability_image :
    let s := (start false []).memWriteCap 0x1000 { rootRw with addr := 0x11223344 }
    (s.memRead 0x1000 4, s.memRead 0x1004 4) = (0x11223344, 0x7E3E0000) := by
  decide

/-! ### Witnesses: for each statement with hypotheses, a state and operands that meet them -/

theorem witness_DecodeAfterEncode :
    sampleEnc.ok = true ∧ (Instr.jal 1 0x3F00).immOk = true ∧
    encodeWith sampleEnc (.jal 1 0x3F00) = some 0x701030EF ∧ encodeWith sampleEnc (.auipc 10 0x7FFFF) = some 0x7FFFF517 ∧
    encodeWith sampleEnc (.jalr 1 5 0) = some 0x000280E7 ∧ encodeWith sampleEnc (.addiy 11 10 0x910) = some 0x9105058B ∧
    encodeWith sampleEnc (.scbnds 12 10 11) = some 0x00B5160B ∧
    encodeWith sampleEnc (.clrperm 13 12 7) = some 0x0276168B ∧
    encodeWith sampleEnc (.gcperm 6 13) = some 0x0406930B := by decide

theorem witness_EncodeAfterDecode :
    (decodeWith sampleEnc 0x7FFFF517 = .ok (.auipc 10 0x7FFFF) ∧ auipcPattern.matches 0x7FFFF517 = true) ∧
    (decodeWith sampleEnc 0x701030EF = .ok (.jal 1 0x3F00) ∧ jalPattern.matches 0x701030EF = true) ∧
    (decodeWith sampleEnc 0x000280E7 = .ok (.jalr 1 5 0) ∧ jalrPattern.matches 0x000280E7 = true) := by decide

theorem witness_RowsShareNoWord : sampleEnc.ok = true := by decide

/-- The state that runs a word at 0x20000100. -/
def placed (w : Nat) : State := (start false []).withFetchWord 32 w

/-- The four bytes the fetch of a state reads. -/
def fetchBytes (s : State) : List Byte :=
  [s.readMem s.pc, s.readMem (s.pc + 1), s.readMem (s.pc + 2), s.readMem (s.pc + 3)]

theorem witness_StepRunsDecodedInstruction :
    let s := placed 0x000280E7
    s.presented = none ∧ s.fetchCheck = none ∧ s.ioRange s.pc.toNat 4 = false ∧ s.plat.fetchCoherent = true ∧
    s.stored.hasRange s.pc.toNat 4 = false ∧ decode sampleEnc (fetchBytes s) = .ok (.jalr 1 5 0, []) ∧
    (Instr.jalr 1 5 0).regsExist s.plat.nregs = true := by decide

theorem witness_StepRunsDecodedInstruction_mie :
    let s := { placed 0x00000517 with mie := true, irq := [none, some 7] }
    s.mie = true ∧ s.irq = none :: [some 7] ∧ s.presented = none ∧ s.fetchCheck = none ∧
    s.ioRange s.pc.toNat 4 = false ∧ s.plat.fetchCoherent = true ∧ (Instr.auipc 10 0).regsExist s.plat.nregs = true ∧ decode sampleEnc (fetchBytes s) = .ok (.auipc 10 0, []) := by decide

theorem witness_UnmatchedWordIsRefused :
    let s := placed 0x00001067
    s.presented = none ∧ s.fetchCheck = none ∧ s.ioRange s.pc.toNat 4 = false ∧ s.plat.fetchCoherent = true ∧
    decode sampleEnc (fetchBytes s) = .error (.noRow 0x00001067) := by decide

theorem witness_MissingRegisterIsIllegal :
    let s := { placed 0x00000817 with plat := { plat32 with nregs := .x16 } }
    s.presented = none ∧ s.fetchCheck = none ∧ s.ioRange s.pc.toNat 4 = false ∧ s.plat.fetchCoherent = true ∧
    decode sampleEnc (fetchBytes s) = .ok (.auipc 16 0, []) ∧ s.plat.nregs = .x16 ∧
    (16 : RegIdx) ∈ (Instr.auipc 16 0).regFields ∧ 16 ≤ (16 : RegIdx).toNat := by decide

theorem witness_SixPermissionEncodingSteps :
    encodeP (PermSet.ofList [.X, .R, .C, .ASR, .W]) = 0b01100 ∧ encodeP (PermSet.ofList [.R, .W, .C, .SL]) = 0b11100 ∧
    encodeP (PermSet.ofList [.R, .C, .LG, .SL]) = 0b10101 ∧ encodeP (PermSet.ofList [.W, .C, .X]) = 0b10000 ∧
    encodeP (PermSet.ofList [.R, .LG, .X]) = 0b10010 ∧ encodeP (PermSet.ofList [.C, .LM, .SDP0]) = 0b00100 := by decide

theorem witness_EncodingPermissionsNeverAdds :
    (decodeP (encodeP (PermSet.ofList [.R, .LG, .X]))).has .R = true ∧
    ∀ n ∈ Perm.all, (decodeP (encodeP (decodeP 0b10110))).has n = (decodeP 0b10110).has n := by decide

theorem witness_PermissionsThatExclude :
    (decodeP 0b00111).has .SDP0 = true ∧ (decodeP 0b01111).has .X = true ∧ (decodeP 0b10000).has .C = true ∧
    (decodeP 0b11100).has .SL = true ∧ (decodeP 0b10101).has .LG = true ∧ (decodeP 0b01100).has .ASR = true := by decide

/-- A capability with these bounds fields and address. -/
def boundsCap (e : BitVec 4) (t b : BitVec 9) (a : Word) : Cap := { rootRw with e := e, t := t, b := b, addr := a }

theorem witness_BoundsFieldByField :
    (boundsCap 14 0x1FF 0 0x7FC000).exp = 14 ∧ (boundsCap 0 0x010 0x1F0 0xBF8).exp ≤ 14 := by decide

theorem witness_BoundsAtMaximumExponent : (boundsCap 15 0x100 0 0).e = 15 := by decide

/-- Both ends of the representable region of [0xBF0, 0xC10), and one below the base. -/
theorem witness_RepresentableAddressKeepsBounds :
    let c := smallCap 0xBF8
    c.representable c.addr = true ∧ c.representable 0xBF0 = true ∧ c.representable 0xDEF = true ∧ c.exp ≤ 14 ∧
    0 < c.base ∧ (0xBEF : Word).toNat = c.base - 1 := by decide

theorem witness_TopIsRepresentable :
    let c := smallCap 0xBF8
    c.representable c.addr = true ∧ c.exp ≤ 14 ∧ c.base ≤ (0xBF0 : Word).toNat ∧ (0xBF0 : Word).toNat ≤ c.top ∧
    c.base ≤ (0xC10 : Word).toNat ∧ (0xC10 : Word).toNat = c.top := by decide

/-- A request that ends at the top of the address space, with smaller exponents ruled out. -/
theorem witness_EncodedBoundsCoverRequest :
    (0xFFFFFC00 : Word).toNat + (0x400 : Word).toNat ≤ 2 ^ 32 ∧ encodedExp 0xFFFFFC00 0x400 = 2 ∧
    encodedExp 0 0x7FC001 = 24 ∧ encodedExp 0 0 = 0 := by decide

theorem witness_ScbndsStaysInsideSource :
    ((smallCap 0xBF8).sound ∧ (scbndsResult (smallCap 0xBF8) 0x18).tag = true) ∧
    (({ rootRw with addr := 0xFFFFFFFF } : Cap).sound ∧ 2 ^ 32 < (0xFFFFFFFF : Word).toNat + (2 : Word).toNat) := by decide

theorem witness_JalResultAndFrame :
    (((start true []).pc.toNat : Int) + (8 : BitVec 21).toInt) % 4 = 0 ∧
    (((start true []).pc.toNat : Int) + (BitVec.ofInt 21 (-1048576)).toInt) % 4 = 0 := by decide

theorem witness_JalMisalignedTargetTraps :
    (((start true []).pc.toNat : Int) + (1048574 : BitVec 21).toInt) % 4 ≠ 0 := by decide

/-- The state of P3: `t0` holds the type 2 sentry. -/
def callState : State := start true [(5, sentry2)]

theorem witness_JalrResultAndFrame :
    (((callState.readReg 5).addr.toNat : Int) + (0 : BitVec 12).toInt) / 2 % 2 = 0 ∧
    (((callState.readReg 5).addr.toNat : Int) + (BitVec.ofInt 12 (-2047)).toInt) / 2 % 2 = 0 := by decide

theorem witness_JalrMisalignedTargetTraps :
    (((callState.readReg 5).addr.toNat : Int) + (2 : BitVec 12).toInt) / 2 % 2 ≠ 0 := by decide

theorem witness_SealTypeOfCapability :
    sentry2.ct ≠ 0 ∧ (decodeP sentry2.p).has .X = true ∧ rootRw.ct = 0 ∧
    (rootRw.withType 9).ct ≠ 0 ∧ (decodeP (rootRw.withType 9).p).has .X = false := by decide

theorem witness_LinkSealedByInterruptStance :
    (decodeP callState.pcc.p).has .X = true ∧ jalTarget callState 8 &&& 3 = 0 ∧
    goesOn (exec (.jal 1 8) callState) = true ∧ goesOn (exec (.jal 0 8) callState) = true ∧
    jalrTarget (callState.readReg 5) 0 &&& 3 = 0 ∧ goesOn (exec (.jalr 6 5 0) callState) = true := by decide

/-- Each row of the acceptance table refuses a type next to those it accepts. -/
theorem witness_UnacceptedTargetLeadsToTrap :
    jalrTarget (callState.readReg 5) 0 &&& 3 = 0 ∧ (after (exec (.jalr 0 5 0) callState)).presented = none ∧
    1 < (callState.readReg 5).sealType ∧
    3 < ((start true [(5, { sentry2 with ct := 4 })]).readReg 5).sealType ∧
    ((start true [(1, { sentry2 with ct := 3 })]).readReg 1).sealType ≠ 4 ∧
    ((start true [(1, { sentry2 with ct := 3 })]).readReg 1).sealType ≠ 5 := by decide

theorem witness_CallThenReturnRestoresStance :
    let t := after (exec (.jalr ra 5 0) callState)
    callState.pcc.tag = true ∧ callState.pcc.ct = 0 ∧ (decodeP callState.pcc.p).has .X = true ∧
    callState.pc &&& 3 = 0 ∧ callState.pcc.base ≤ callState.pc.toNat ∧ callState.pc.toNat + 4 ≤ callState.pcc.top ∧
    callState.pc.toNat + 4 < 2 ^ 32 ∧ jalrTarget (callState.readReg 5) 0 &&& 3 = 0 ∧
    goesOn (exec (.jalr ra 5 0) callState) = true ∧ (t.writeReg 10 rootRw).readReg ra = t.readReg ra := by decide

/-- Both ends of the offset's range, from the Executable root. -/
theorem witness_SameSignSplitReachesTarget :
    let s := { start false [] with pcc := { rootExec with addr := 0x40000000 } }
    s.pcc.tag = true ∧ s.pcc.ct = 0 ∧ s.pcc.top ≤ 2 ^ 32 ∧ s.pcc.base ≤ s.pc.toNat ∧ s.pc.toNat < s.pcc.top ∧
    (s.pcc.base : Int) ≤ s.pc.toNat + (-2 ^ 30) ∧ (s.pc.toNat : Int) + (2 ^ 30 - 1) < s.pcc.top ∧
    goesOn (exec (.auipc 5 (BitVec.ofInt 20 ((-2 ^ 30 : Int).tdiv 2048))) s) = true ∧
    goesOn (exec (.addiy 6 5 (BitVec.ofInt 12 ((2 ^ 30 - 1 : Int).tmod 2048))) s) = true := by decide

/-- The state of P3 with the call's word in memory. -/
def callPlaced : State := callState.withFetchWord 32 0x000280E7

/-- A state where the oracle presents an interrupt. -/
def interrupted : State := { callPlaced with irq := [some 7] }

/-- One step changes MIE through the sentry, the other by taking the interrupt. -/
theorem witness_OnlySentriesAndTrapsChangeMie :
    goesOn (step callPlaced) = true ∧ (after (step callPlaced)).mie ≠ callPlaced.mie ∧
    goesOn (step interrupted) = true ∧ (after (step interrupted)).mie ≠ interrupted.mie := by decide

/-- A machine about to fetch through a capability. -/
def fetcher (c : Cap) : State := { start false [] with pcc := c }

/-- Whether a capability covers the four bytes of the fetch. -/
def coversFetch (s : State) : Bool := decide (s.pcc.base ≤ s.pc.toNat) && decide (s.pc.toNat + 4 ≤ s.pcc.top)

/-- One state for each check of the fetch, the checks before it passed. -/
theorem witness_FetchCheckTakesFirstFailure :
    (fetcher Cap.null).presented = none ∧ (fetcher Cap.null).pcc.tag = false ∧
    (let s := fetcher sentry2; s.pcc.tag = true ∧ s.pcc.sealType ≠ 0) ∧
    (let s := fetcher rootRw; s.pcc.tag = true ∧ s.pcc.sealType = 0 ∧ s.pcc.perms.x = false) ∧
    (let s := fetcher (codeCap 0x20003FFD)
     s.pcc.tag = true ∧ s.pcc.sealType = 0 ∧ s.pcc.perms.x = true ∧ coversFetch s = false) ∧
    (let s := fetcher (codeCap 0x20003FFA)
     s.pcc.tag = true ∧ s.pcc.sealType = 0 ∧ s.pcc.perms.x = true ∧ coversFetch s = true ∧ s.pc.toNat % 4 ≠ 0) ∧
    (let s := { fetcher (codeCap 0x20003FFC) with plat := { plat32 with regions := [] } }
     s.pcc.tag = true ∧ s.pcc.sealType = 0 ∧ s.pcc.perms.x = true ∧ coversFetch s = true ∧ s.pc.toNat % 4 = 0 ∧
     s.backedRange s.pc.toNat 4 = false) := by decide

theorem witness_PresentedInterruptIsTaken : interrupted.mie = true ∧ interrupted.irq = some 7 :: [] := by decide

theorem witness_MaskedInterruptsStayPending :
    let s := { placed 0x00000517 with irq := [some 7] }
    s.mie = false ∧ goesOn (stepWith sampleEnc s) = true := by decide

theorem witness_TrapReturnNeedsAsr :
    (start false []).pcc.perms.asr = true ∧ (start false []).mepc.addr &&& 1 = 0 ∧
    (fetcher { sentry2 with ct := 0 }).pcc.perms.asr = false := by decide

/-- Vectors that are untagged, not executable, and one word past the top, each with a `pcc` that cannot be fetched. -/
theorem witness_UnusableVectorTrapsForEver :
    (({ fetcher Cap.null with mtvec := Cap.null } : State).mtvec.clearLow 3).tag = false ∧
    (({ fetcher Cap.null with mtvec := rootRw } : State).mtvec.clearLow 3).perms.x = false ∧
    (let c := ({ fetcher Cap.null with mtvec := codeCap 0x20004000 } : State).mtvec.clearLow 3
     c.tag = true ∧ c.sealType = 0 ∧ c.perms.x = true ∧ c.top < c.addr.toNat + 4) ∧
    (fetcher Cap.null).pcc.tag = false := by decide

theorem witness_CsrAccessNeedsAsr :
    (start false []).pcc.perms.asr = true ∧ (fetcher { sentry2 with ct := 0 }).pcc.perms.asr = false ∧
    (∀ r ∈ [Csr.mtvec, .mscratch, .mtidc, .mepc],
      ((start false []).csrReplace r sentry2).csrValue r = sentry2) ∧
    (∀ r ∈ [Csr.mcause, .mtval], ((start false []).csrReplace r sentry2).csrValue r = Cap.int 0x20000400) ∧
    (let t := (start false []).csrReplace .mstatus (Cap.int 0x88)
     t.mie = true ∧ t.mpie = true) := by decide

/-- A state with a byte, a tag and a stored address is in canonical form. -/
def withData : State := (start false []).memWriteCap 0x1000 rootRw

theorem canonical_withData : withData.Canonical := ⟨by decide, by decide, by decide⟩

/-- Eight bytes across the top of the address space. -/
theorem witness_MemWriteThenRead : withData.Canonical ∧ 8 ≤ 8 ∧
    ((withData.memWrite 0xFFFFFFFC 8 1).readMem 0xFFFFFFFC = 1) := ⟨canonical_withData, by decide, by decide⟩

theorem witness_DataWriteClearsTags :
    withData.Canonical ∧ (0x1000 : Word).toNat / 8 = ((0xFFF : Word) + BitVec.ofNat 32 1).toNat / 8 ∧
    withData.tagAt 0x1000 = true := ⟨canonical_withData, by decide, by decide⟩

theorem witness_CapabilityStoreThenLoad :
    withData.Canonical ∧ (0xFFFFFFF8 : Word).toNat % 8 = 0 ∧ withData.isTagged (0xFFFFFFF8 : Word).toNat = true :=
  ⟨canonical_withData, by decide, by decide⟩

/-- The state of `withData` with the RW root over [0x1000, 0x1010) in register 5. -/
def loader : State := withData.writeReg 5 { boundsCap 0 0x010 0x000 0x1000 with g := true }

/-- The same with another capability in register 5. -/
def loaderWith (c : Cap) : State := withData.writeReg 5 c

/-- Each check of a load fails somewhere with those before it passed, and all pass at both ends of the bounds. -/
theorem witness_LoadReportsFirstFailure :
    let c := loader.readReg 5
    (c.tag = true ∧ c.sealType = 0 ∧ c.perms.r = true ∧ c.base ≤ 0x1000 ∧ 0x1008 + 8 ≤ c.top ∧
      0x1000 % 8 = 0 ∧ 0x1008 % 8 = 0 ∧ loader.backedRange 0x1000 8 = true ∧ loader.ioRange 0x1000 8 = false) ∧
    (0x1001 % 4 ≠ 0 ∧ 0x1001 + 4 ≤ c.top ∧ ¬(0x100C + 8 ≤ c.top)) ∧
    ((loaderWith Cap.null).readReg 5).tag = false ∧
    ((loaderWith (rootRw.withType 9)).readReg 5).sealType ≠ 0 ∧
    ((loaderWith { rootRw with p := 0b10000 }).readReg 5).perms.r = false ∧
    ({ loader with plat := { plat32 with regions := [] } } : State).backedRange 0x1000 8 = false := by decide

theorem witness_StoreIsAuthorisedAndLocal :
    let c := loader.readReg 5
    ((loader.storeData 5 0x100C 4 7).toOption).isSome = true ∧ c.tag = true ∧ c.sealType = 0 ∧ c.perms.w = true ∧
    c.base ≤ (0x100C : Word).toNat ∧ (0x100C : Word).toNat + 4 ≤ c.top ∧ (0x100C : Word).toNat % 4 = 0 ∧
    loader.backedRange (0x100C : Word).toNat 4 = true ∧ loader.ioRange (0x100C : Word).toNat 4 = false := by decide

theorem canonical_loader : loader.Canonical := ⟨by decide, by decide, by decide⟩

/-- The platform of `loader` with one device byte, at 0x1004. -/
def deviceLoader : State :=
  { loader with plat := { plat32 with regions := { base := 0x1004, size := 1, tagged := true, io := true } :: plat32.regions } }

/-- R50: only the device's byte of a store leaves memory alone, and only it is a free value in a load. -/
theorem test_store_across_device_byte :
    let t := deviceLoader.writeData 0x1003 3 0xCCBBAA
    (t.readMem 0x1003, t.readMem 0x1004, t.readMem 0x1005) = (0xAA, deviceLoader.readMem 0x1004, 0xCC) := by decide

theorem test_load_beside_device_byte :
    (deviceLoader.writeData 0x1000 4 0x11223344).loadData 5 0x1000 4 = .ok (0x11223344,
      deviceLoader.writeData 0x1000 4 0x11223344) := by decide

/-- Log 19: a granule whose first byte lies in an untagged range has no tag, whatever the set of tags says. -/
theorem test_untagged_granule_reads_no_tag :
    let r : Region := { base := 0x1000, size := 4, tagged := false, io := false }
    let s := { withData with plat := { plat32 with regions := r :: plat32.regions } }
    (withData.tagAt 0x1004, s.tagAt 0x1004) = (true, false) := by decide

/-- A load and a store that touch the device, authorised, aligned and backed. -/
theorem witness_LoadReportsFirstFailure_device :
    let c := deviceLoader.readReg 5
    c.tag = true ∧ c.sealType = 0 ∧ c.perms.r = true ∧ c.perms.w = true ∧ c.base ≤ 0x1004 ∧ 0x1004 + 4 ≤ c.top ∧
    0x1004 % 4 = 0 ∧ deviceLoader.backedRange 0x1004 4 = true ∧ deviceLoader.ioRange 0x1004 4 = true ∧
    0x1000 % 8 = 0 ∧ deviceLoader.backedRange 0x1000 8 = true ∧ deviceLoader.ioRange 0x1000 8 = true := by decide

/-- Each check of a store fails somewhere with those before it passed, and all pass at both ends of the bounds. -/
theorem witness_StoreReportsFirstFailure :
    let c := loader.readReg 5
    (c.tag = true ∧ c.sealType = 0 ∧ c.perms.w = true ∧ c.base ≤ 0x1000 ∧ 0x1008 + 8 ≤ c.top ∧
      0x1000 % 8 = 0 ∧ 0x1008 % 8 = 0 ∧ loader.backedRange 0x1000 8 = true) ∧
    (0x1001 % 4 ≠ 0 ∧ 0x1001 + 4 ≤ c.top ∧ ¬(0x100C + 8 ≤ c.top)) ∧
    ((loaderWith Cap.null).readReg 5).tag = false ∧
    ((loaderWith (rootRw.withType 9)).readReg 5).sealType ≠ 0 ∧
    ((loaderWith { rootRw with p := 0b10100 }).readReg 5).perms.w = false ∧
    ({ loader with plat := { plat32 with regions := [] } } : State).backedRange 0x1000 8 = false := by decide

/-- Registers with LM and LG, with one of them, with neither, over a tagged unsealed value. -/
theorem witness_CapabilityLoadGivesStoredValue :
    let value := loader.memReadCap 0x1000
    (value.tag = true ∧ value.sealType = 0) ∧
    ∀ p ∈ [0b11111, 0b11110, 0b11101, 0b11100],
      let auth := (loaderWith { rootRw with p := p }).readReg 5
      auth.tag = true ∧ auth.sealType = 0 ∧ auth.perms.r = true ∧ auth.perms.c = true ∧ auth.base ≤ 0x1000 ∧
      0x1000 + 8 ≤ auth.top ∧ 0x1000 % 8 = 0 ∧ (loaderWith { rootRw with p := p }).backedRange 0x1000 8 = true ∧
      (loaderWith { rootRw with p := p }).ioRange 0x1000 8 = false ∧
      auth.perms.lm = p.getLsbD 1 ∧ auth.perms.lg = p.getLsbD 0 := by decide

/-- A register without C over a tagged value, and registers without LM or LG over a tagged sealed value. -/
theorem witness_CapabilityLoadGivesStoredValue_noC_sealed :
    (let s := loaderWith { rootRw with p := 0b10010 }
     (s.readReg 5).perms.r = true ∧ (s.readReg 5).perms.c = false ∧ (s.memReadCap 0x1000).tag = true ∧
     ((s.loadCap 5 0x1000).toOption.any fun r => !r.1.tag) = true) ∧
    ∀ p ∈ [0b11101, 0b11110, 0b11100],
      let s := (loaderWith { rootRw with p := p }).memWriteCap 0x1000 (rootRw.withType 9)
      (s.readReg 5).perms.r = true ∧ (s.readReg 5).perms.c = true ∧ (s.memReadCap 0x1000).tag = true ∧
      (s.memReadCap 0x1000).sealType = 9 ∧ ((s.loadCap 5 0x1000).toOption.any fun r => r.1.tag) = true := by decide

/-- A capability load that keeps its tag, through registers with and without LM and LG. -/
theorem witness_LoadedCapabilityIsFiltered :
    ((loader.loadCap 5 0x1000).toOption.any fun p => p.1.tag) = true ∧
    (((loaderWith { rootRw with p := 0b10100, addr := 0 }).loadCap 5 0x1000).toOption.any fun p =>
      p.1.tag && p.1.unsealed) = true ∧
    ((loaderWith { rootRw with p := 0b10100, addr := 0 }).readReg 5).perms.lm = false ∧
    ((loaderWith { rootRw with p := 0b10100, addr := 0 }).readReg 5).perms.lg = false := by decide

theorem canonical_deviceLoader : deviceLoader.Canonical := ⟨by decide, by decide, by decide⟩

theorem witness_StoredCapabilityIsFiltered :
    (loader.Canonical ∧ ((loader.storeCap 5 0x1008 rootExec).toOption).isSome = true ∧
      loader.ioRange (0x1008 : Word).toNat 8 = false ∧ loader.isTagged (0x1008 : Word).toNat = true) ∧
    (deviceLoader.Canonical ∧ ((deviceLoader.storeCap 5 0x1000 rootExec).toOption).isSome = true) :=
  ⟨⟨canonical_loader, by decide, by decide, by decide⟩, canonical_deviceLoader, by decide⟩

/-- A state whose fetch is not coherent and whose program has stored the last byte of the next instruction. -/
def staleState : State :=
  { placed 0x00000517 with plat := { plat32 with fetchCoherent := false }, stored := [0x20000103] }

theorem witness_StoredBytesAreNotExecuted :
    staleState.presented = none ∧ staleState.fetchCheck = none ∧ staleState.plat.fetchCoherent = false ∧
    staleState.stored.has (staleState.pc + BitVec.ofNat 32 3).toNat = true ∧ goesOn (step staleState) = false := by decide

/-- R42: the store the hart makes clears the tag of the granule it touches, and no other. -/
theorem test_store_data_clears_tag :
    let s := loader.writeCapData 0x1008 rootExec
    ((s.storeData 5 0x1007 1 0).toOption.map fun t => (s.tagAt 0x1000, t.tagAt 0x1000, t.tagAt 0x1008)) =
      some (true, false, true) := by decide

theorem witness_FirstFetchAfterReset :
    (0xFFFFFFFC : Word).toNat % 4 = 0 ∧
    (State.resetWith plat32 0xFFFFFFFC [] []).backedRange (0xFFFFFFFC : Word).toNat 4 = true := by decide

theorem witness_OnlyRootsAtReset : State.reset.holds rootSeal ∧ rootSeal.tag = true :=
  ⟨.inr (.inr (.inr (.inr (.inl rfl)))), rfl⟩

theorem witness_AdmittedStartIsSound : goesOn callState.admitStart = true ∧ after callState.admitStart = callState := by
  decide

theorem witness_MalformedStartIsRefused :
    ({ rootRw with r := true } : Cap).malformed = true ∧ (boundsCap 15 0x1FF 0 0).malformed = true ∧
    (boundsCap 15 0x001 0x002 0x02000000).malformed = true ∧ (boundsCap 15 0x100 0x010 0).malformed = true ∧
    (boundsCap 15 0x100 0x100 0).malformed = true ∧ ({ boundsCap 15 0x1FF 0 0 with tag := false } : Cap).malformed = false := by
  decide

theorem sound_callPlaced : callPlaced.Sound :=
  ⟨by decide, by decide, by decide, by decide, by decide, by decide, by decide⟩

theorem witness_StepKeepsCapabilitiesSound : callPlaced.Sound ∧ goesOn (step callPlaced) = true :=
  ⟨sound_callPlaced, by decide⟩

theorem witness_StepDerivesEveryCapability :
    let t := after (step callPlaced)
    callPlaced.Sound ∧ goesOn (step callPlaced) = true ∧ t.holds (t.readReg 1) ∧ (t.readReg 1).tag = true :=
  ⟨sound_callPlaced, by decide, .inl ⟨1, rfl⟩, by decide⟩

theorem witness_StepLeavesMemoryAndVectors : goesOn (step callPlaced) = true ∧ callPlaced.Canonical :=
  ⟨by decide, ⟨by decide, by decide, by decide⟩⟩

theorem witness_OnlyTrapsWriteTrapRegisters :
    goesOn (step interrupted) = true ∧ (after (step interrupted)).mepc ≠ interrupted.mepc := by decide

end Sys2Proof.Tests
end

section
/-! SUPPORT. The rules of CSR access: what a read and a write answer with ASR and without (R29), what a replaced CSR
leaves unchanged, and what it then reads as; and the named bits of an `mstatus` word (R25, R30). -/

namespace Sys2Proof.Machine

/-! ### The `mstatus` word -/

/-- The bits no source names do not disturb MIE, bit 3 (R25, U21). -/
@[simp] theorem mstatusMie_mstatusWord (mie mpie : Bool) (other : Word) :
    mstatusMie (mstatusWord mie mpie other) = mie := by
  cases mie <;> cases mpie <;> simp [mstatusMie, mstatusWord, mstatusNamed]

/-- The bits no source names do not disturb MPIE, bit 7 (R30, U21). -/
@[simp] theorem mstatusMpie_mstatusWord (mie mpie : Bool) (other : Word) :
    mstatusMpie (mstatusWord mie mpie other) = mpie := by
  cases mie <;> cases mpie <;> simp [mstatusMpie, mstatusWord, mstatusNamed]

section Csrs
variable (s : State) (r : Csr) (c : Cap)

/-! ### The ASR check -/

theorem State.csrRead_of_not_asr {s : State} (h : s.hasAsr = false) : s.csrRead r = .error asrFault := by
  simp [State.csrRead, h]

theorem State.csrWrite_of_not_asr {s : State} (h : s.hasAsr = false) : s.csrWrite r c = .error asrFault := by
  simp [State.csrWrite, h]

theorem State.csrRead_of_asr {s : State} (h : s.hasAsr = true) :
    s.csrRead r = .ok (s.csrValue r, if r = .mstatus then { s with draws := s.draws + 1 } else s) := by
  rw [State.csrRead, if_pos h]

theorem State.csrWrite_of_asr {s : State} (h : s.hasAsr = true) : s.csrWrite r c = .ok (s.csrReplace r c) := by
  rw [State.csrWrite, if_pos h]

/-! ### What a replaced CSR leaves unchanged -/

@[simp] theorem State.csrReplace_regs : (s.csrReplace r c).regs = s.regs := by cases r <;> rfl
@[simp] theorem State.csrReplace_pcc : (s.csrReplace r c).pcc = s.pcc := by cases r <;> rfl
@[simp] theorem State.csrReplace_mem : (s.csrReplace r c).mem = s.mem := by cases r <;> rfl
@[simp] theorem State.csrReplace_tags : (s.csrReplace r c).tags = s.tags := by cases r <;> rfl
@[simp] theorem State.csrReplace_plat : (s.csrReplace r c).plat = s.plat := by cases r <;> rfl

@[simp] theorem State.csrReplace_hasAsr : (s.csrReplace r c).hasAsr = s.hasAsr := by simp [State.hasAsr]

@[simp] theorem State.readReg_csrReplace (i : RegIdx) : (s.csrReplace r c).readReg i = s.readReg i :=
  State.readReg_congr (s.csrReplace_regs r c) i

/-- Memory reads depend on the bytes, the tags and the map alone (R31). -/
theorem State.SameMemory.of_fields {s t : State} (hmem : t.mem = s.mem) (htags : t.tags = s.tags)
    (hplat : t.plat = s.plat) : s.SameMemory t where
  bytes a := by simp only [State.readMem, hmem]
  tags a := by simp only [State.tagAt, State.isTagged, State.regionAt, htags, hplat]

theorem State.sameMemory_csrReplace : s.SameMemory (s.csrReplace r c) :=
  .of_fields (s.csrReplace_mem r c) (s.csrReplace_tags r c) (s.csrReplace_plat r c)

/-! ### What a replaced CSR reads as -/

/-- A capability CSR holds the whole value written (R29). -/
theorem State.csrValue_csrReplace_of_capability {r : Csr}
    (h : r = .mtvec ∨ r = .mscratch ∨ r = .mtidc ∨ r = .mepc) : (s.csrReplace r c).csrValue r = c := by
  obtain rfl | rfl | rfl | rfl := h <;> rfl

/-- A 32-bit CSR holds the integer value of the one written (R20, log 20). -/
theorem State.csrValue_csrReplace_of_word {r : Csr} (h : r = .mcause ∨ r = .mtval) :
    (s.csrReplace r c).csrValue r = Cap.int c.addr := by
  obtain rfl | rfl := h <;> rfl

@[simp] theorem State.csrReplace_mstatus_mie : (s.csrReplace .mstatus c).mie = mstatusMie c.addr := rfl
@[simp] theorem State.csrReplace_mstatus_mpie : (s.csrReplace .mstatus c).mpie = mstatusMpie c.addr := rfl

/-- `mstatus` reads as the word of its two named bits over free ones (R25, R30, U21). -/
theorem State.csrValue_mstatus_addr :
    (s.csrValue .mstatus).addr = mstatusWord s.mie s.mpie (Config.mstatusOther s.draws) := rfl

/-- Of the word written to `mstatus`, MIE and MPIE are kept, in the state and in the word read back (R25, R30). -/
theorem State.csrReplace_mstatus_keeps_named :
    mstatusMie ((s.csrReplace .mstatus c).csrValue .mstatus).addr = mstatusMie c.addr ∧
      mstatusMpie ((s.csrReplace .mstatus c).csrValue .mstatus).addr = mstatusMpie c.addr ∧
      (s.csrReplace .mstatus c).mie = mstatusMie c.addr ∧ (s.csrReplace .mstatus c).mpie = mstatusMpie c.addr := by
  simp [State.csrValue_mstatus_addr]

end Csrs

/-- Settles O39: the ASR check decides both accesses, and a write leaves `pcc`, so ASR is still held for the read;
what is read back then depends on the kind of CSR. -/
theorem csrAccessNeedsAsr : Obligations.CsrAccessNeedsAsr := by
  intro s r c
  refine ⟨fun hno => ⟨State.csrRead_of_not_asr r hno, State.csrWrite_of_not_asr r c hno⟩, fun hasr => ?_⟩
  have hread := State.csrRead_of_asr r ((s.csrReplace_hasAsr r c).trans hasr)
  refine ⟨_, State.csrWrite_of_asr r c hasr, s.sameMemory_csrReplace r c, s.readReg_csrReplace r c,
    _, hread, ?_, ?_, ?_⟩
  · exact s.csrValue_csrReplace_of_capability c
  · exact s.csrValue_csrReplace_of_word c
  · rintro rfl
    exact s.csrReplace_mstatus_keeps_named c

end Sys2Proof.Machine
end

section
/-! SUPPORT. The permissions of the three roots (R114), and where reset places them (R34, R35, R36). -/

namespace Sys2Proof.Machine

@[simp] theorem rootExec_perms : rootExec.perms = PermSet.ofList [.X, .R, .C, .LM, .LG, .ASR, .GL] := by decide
@[simp] theorem rootSeal_perms : rootSeal.perms = PermSet.ofList [.SDP0, .SE, .US, .GL] := by decide
@[simp] theorem rootRw_perms : rootRw.perms = PermSet.ofList [.W, .R, .C, .LM, .LG, .SL, .GL] := by decide

section Reset
variable (plat : Platform) (pcAddr : Word) (initMem : List Host.Cell) (initTags : List Nat)

@[simp] theorem State.resetWith_mtvec : (State.resetWith plat pcAddr initMem initTags).mtvec = rootExec := rfl
@[simp] theorem State.resetWith_mscratch : (State.resetWith plat pcAddr initMem initTags).mscratch = rootSeal := rfl
@[simp] theorem State.resetWith_mtidc : (State.resetWith plat pcAddr initMem initTags).mtidc = rootRw := rfl

end Reset

/-- Settles O47: reset places the roots by definition, and their fields and permissions are those of R114. -/
theorem resetPlacesRoots : Obligations.ResetPlacesRoots := by
  intro plat pcAddr initMem initTags s
  have hmtvec : s.mtvec = rootExec := State.resetWith_mtvec ..
  have hmscratch : s.mscratch = rootSeal := State.resetWith_mscratch ..
  have hmtidc : s.mtidc = rootRw := State.resetWith_mtidc ..
  rw [hmtvec, hmscratch, hmtidc]
  exact ⟨rfl, rfl, rfl, rootExec_perms, rootSeal_perms, rootRw_perms⟩

end Sys2Proof.Machine
end

section
/-! SUPPORT. The P field by its quadrant and its three dependent bits (R70): what its fields read as, what each of the
six formats grants (R71 to R76), and which field each of the six steps chooses (R81). -/

namespace Sys2Proof.Machine

/-- The P field of a quadrant P[4:3] and the bits P[2], P[1] and P[0] (R70). -/
def pField (quadrant : BitVec 2) (b2 b1 b0 : Bool) : BitVec 5 :=
  quadrant ++ BitVec.ofBool b2 ++ BitVec.ofBool b1 ++ BitVec.ofBool b0

section Fields
variable (q : BitVec 2) (b2 b1 b0 : Bool)

/-! ### What the fields of P read as -/

@[simp] theorem pField_quadrant : (pField q b2 b1 b0).extractLsb' 3 2 = q := by
  revert q b2 b1 b0; decide

@[simp] theorem pField_bit2 : (pField q b2 b1 b0)[2] = b2 := by
  revert q b2 b1 b0; decide

@[simp] theorem pField_bit1 : (pField q b2 b1 b0)[1] = b1 := by
  revert q b2 b1 b0; decide

@[simp] theorem pField_bit0 : (pField q b2 b1 b0)[0] = b0 := by
  revert q b2 b1 b0; decide

/-- Octant 4 is the half of quadrant 2 that Cap WO and Data RW share (R73, R74). -/
@[simp] theorem pField_octant_eq_four_iff :
    (pField q b2 b1 b0).extractLsb' 2 3 = 4#3 ↔ q = 2#2 ∧ b2 = false := by
  revert q b2 b1 b0; decide

/-- Octant 5 is the half of quadrant 2 that Cap RO takes (R75). -/
@[simp] theorem pField_octant_eq_five_iff :
    (pField q b2 b1 b0).extractLsb' 2 3 = 5#3 ↔ q = 2#2 ∧ b2 = true := by
  revert q b2 b1 b0; decide

@[simp] theorem pField_low_eq_zero_iff :
    (pField q b2 b1 b0).extractLsb' 0 2 = 0#2 ↔ b1 = false ∧ b0 = false := by
  revert q b2 b1 b0; decide

/-- The one P value of Cap WO (R73). -/
@[simp] theorem pField_eq_capWo_iff :
    pField q b2 b1 b0 = 16#5 ↔ q = 2#2 ∧ b2 = false ∧ b1 = false ∧ b0 = false := by
  revert q b2 b1 b0; decide

end Fields

/-- A P value has no more to it than its quadrant and its three bits. -/
theorem exists_pField (p : BitVec 5) : ∃ q b2 b1 b0, p = pField q b2 b1 b0 :=
  ⟨p.extractLsb' 3 2, p.getLsbD 2, p.getLsbD 1, p.getLsbD 0, by revert p; decide⟩

theorem quadrant_cases (q : BitVec 2) : q = 0#2 ∨ q = 1#2 ∨ q = 2#2 ∨ q = 3#2 := by
  revert q; decide

/-! ### What each format grants -/

section Formats
variable (b2 b1 b0 : Bool) (n : Perm)

/-- The Sealing format (R71). -/
theorem has_decodeP_sealing : (decodeP (pField 0#2 b2 b1 b0)).has n = true ↔
    (n = .SDP0 ∧ b2) ∨ (n = .SE ∧ b1) ∨ (n = .US ∧ b0) := by
  cases n <;> simp [decodeP, PermSet.has, PermSet.empty, PermSet.ofFn]

/-- The Executable format (R72). -/
theorem has_decodeP_executable : (decodeP (pField 1#2 b2 b1 b0)).has n = true ↔
    n = .R ∨ n = .C ∨ n = .X ∨ (n = .ASR ∧ b2) ∨ (n = .LM ∧ b1) ∨ (n = .LG ∧ b0) := by
  cases n <;> simp [decodeP, PermSet.has, PermSet.empty, PermSet.ofFn]

/-- The Cap WO format (R73). -/
theorem has_decodeP_capWo : (decodeP (pField 2#2 false false false)).has n = true ↔ n = .W ∨ n = .C := by
  cases n <;> simp [decodeP, PermSet.has, PermSet.empty, PermSet.ofFn]

/-- The Data RW format (R74). -/
theorem has_decodeP_dataRw {b1 b0 : Bool} (hlow : ¬(b1 = false ∧ b0 = false)) :
    (decodeP (pField 2#2 false b1 b0)).has n = true ↔ (n = .R ∧ b1) ∨ (n = .W ∧ b0) := by
  cases n <;> simp [decodeP, PermSet.has, PermSet.empty, PermSet.ofFn, hlow]

/-- The Cap RO format (R75). -/
theorem has_decodeP_capRo : (decodeP (pField 2#2 true b1 b0)).has n = true ↔
    n = .R ∨ n = .C ∨ (n = .LM ∧ b1) ∨ (n = .LG ∧ b0) := by
  cases n <;> simp [decodeP, PermSet.has, PermSet.empty, PermSet.ofFn]

/-- The Cap RW format (R76). -/
theorem has_decodeP_capRw : (decodeP (pField 3#2 b2 b1 b0)).has n = true ↔
    n = .R ∨ n = .W ∨ n = .C ∨ (n = .SL ∧ b2) ∨ (n = .LM ∧ b1) ∨ (n = .LG ∧ b0) := by
  cases n <;> simp [decodeP, PermSet.has, PermSet.empty, PermSet.ofFn]

end Formats

/-! ### Which field each step chooses -/

/-- The six steps of R81, with the field of each by its quadrant and bits. -/
theorem encodeP_eq_pField (s : PermSet) : encodeP s =
    if s.x = true ∧ s.r = true ∧ s.c = true then pField 1#2 s.asr s.lm s.lg
    else if s.r = true ∧ s.w = true ∧ s.c = true then pField 3#2 s.sl s.lm s.lg
    else if s.r = true ∧ s.c = true then pField 2#2 true s.lm s.lg
    else if s.w = true ∧ s.c = true then 16#5
    else if s.r = true ∨ s.w = true then pField 2#2 false s.r s.w
    else pField 0#2 s.sdp0 s.se s.us := by
  simp only [encodeP, Bool.and_eq_true, Bool.or_eq_true, and_assoc]
  rfl

/-- Settles O8: P is split by its quadrant, and quadrant 2 again by P[2] and by P[1:0]; in each format the conditions
of the other five are false, and what is left is what that format grants. -/
theorem permissionFormats : Obligations.PermissionFormats := by
  intro p n
  obtain ⟨q, b2, b1, b0, rfl⟩ := exists_pField p
  obtain rfl | rfl | rfl | rfl := quadrant_cases q
  · simp [has_decodeP_sealing]
  · simp [has_decodeP_executable]
  · cases b2 with
    | true => simp [has_decodeP_capRo]
    | false =>
      by_cases hlow : b1 = false ∧ b0 = false
      · obtain ⟨rfl, rfl⟩ := hlow
        simp [has_decodeP_capWo]
      · simp [has_decodeP_dataRw n hlow, hlow]
  · simp [has_decodeP_capRw]

/-- Settles O9: the hypotheses of each clause pick the step, and the fields of the P value it chooses are read off. -/
theorem sixPermissionEncodingSteps : Obligations.SixPermissionEncodingSteps := by
  intro s
  dsimp only
  rw [encodeP_eq_pField]
  refine ⟨fun exe => ?_, fun nexe rwc => ?_, fun nexe nrwc rc => ?_, fun nexe nrwc nrc wc => ?_,
    fun nexe nrwc nrc nwc data => ?_, fun nexe nrwc nrc nwc ndata => ?_⟩
  · rw [if_pos exe]; simp
  · rw [if_neg nexe, if_pos rwc]; simp
  · rw [if_neg nexe, if_neg nrwc, if_pos rc]; simp
  · rw [if_neg nexe, if_neg nrwc, if_neg nrc, if_pos wc]; rfl
  · rw [if_neg nexe, if_neg nrwc, if_neg nrc, if_neg nwc, if_pos data]; simp
  · rw [if_neg nexe, if_neg nrwc, if_neg nrc, if_neg nwc, if_neg ndata]; simp

end Sys2Proof.Machine
end

section
/-! SUPPORT. The sealed type: which P values grant X (R72), the type in each of the three cases of R86, and the types
each case can give. -/

namespace Sys2Proof.Machine

/-- Of the six formats the Executable one alone grants X (R72). -/
theorem has_X_decodeP_iff (p : BitVec 5) : (decodeP p).has .X = true ↔ p.extractLsb' 3 2 = 1 := by
  simpa using permissionFormats p .X

section SealType
variable {c : Cap}

theorem Cap.sealType_of_ct_eq_zero (hct : c.ct = 0) : c.sealType = 0 := if_pos hct

theorem Cap.sealType_of_has_X (hct : c.ct ≠ 0) (hx : (decodeP c.p).has .X = true) : c.sealType = c.ct.toNat := by
  rw [Cap.sealType, if_neg hct]
  exact if_pos hx

theorem Cap.sealType_of_not_has_X (hct : c.ct ≠ 0) (hx : (decodeP c.p).has .X = false) :
    c.sealType = c.ct.toNat + 8 := by
  rw [Cap.sealType, if_neg hct]
  exact if_neg (Bool.eq_false_iff.mp hx)

end SealType

/-- Type 8 would be CT = 0 without X, which is type 0; CT has three bits, so the types end at 15 (R86). -/
theorem Cap.sealType_range (c : Cap) : c.sealType ≤ 15 ∧ c.sealType ≠ 8 := by
  have hlt : c.ct.toNat < 8 := c.ct.isLt
  by_cases hct : c.ct = 0
  · rw [Cap.sealType_of_ct_eq_zero hct]
    omega
  · have hpos : c.ct.toNat ≠ 0 := fun h => hct (BitVec.eq_of_toNat_eq h)
    cases hx : (decodeP c.p).has .X with
    | true =>
      rw [Cap.sealType_of_has_X hct hx]
      omega
    | false =>
      rw [Cap.sealType_of_not_has_X hct hx]
      omega

/-- Settles O28: CT and the X permission choose the case, X is read off the six formats (O8), and the range follows
from the three bits of CT. -/
theorem sealTypeOfCapability : Obligations.SealTypeOfCapability := fun c =>
  ⟨Cap.sealType_of_ct_eq_zero, Cap.sealType_of_has_X, Cap.sealType_of_not_has_X, has_X_decodeP_iff c.p,
    c.sealType_range⟩

end Sys2Proof.Machine
end

section
/-! SUPPORT. The rows of the opcode table as one list (R59, R60): under a well-formed ENC they pairwise share no word,
so a word that matches a row decodes to that row's instruction (R61). -/

namespace Sys2Proof

/-! ### One pattern -/

theorem Pattern.matches_iff (p : Pattern) (w : Word) : p.matches w = true ↔ w &&& p.mask = p.value := by
  simp [Pattern.matches]

/-- On the bits its mask fixes, a word of a row agrees with the pattern. -/
theorem Pattern.getLsbD_of_matches {p : Pattern} {w : Word} (h : p.matches w = true) {i : Nat}
    (hi : p.mask.getLsbD i = true) : w.getLsbD i = p.value.getLsbD i := by
  rw [← (p.matches_iff w).mp h, BitVec.getLsbD_and, hi, Bool.and_true]

/-- Two patterns that differ on a bit both fix match no common word. -/
theorem Pattern.not_matches_of_disjoint {p q : Pattern} {w : Word} (h : p.disjoint q = true) (hp : p.matches w = true) :
    q.matches w = false := by
  refine Bool.eq_false_iff.mpr fun hq => ?_
  rw [Pattern.matches_iff] at hp hq
  simp only [Pattern.disjoint, bne_iff_ne, ne_eq] at h
  refine h (BitVec.eq_of_getLsbD_eq fun i hi => ?_)
  rw [← hp, ← hq, show (0 : Word).getLsbD i = false from BitVec.getLsbD_zero]
  simp only [BitVec.getLsbD_and, BitVec.getLsbD_xor]
  cases w.getLsbD i <;> cases p.mask.getLsbD i <;> cases q.mask.getLsbD i <;> rfl

/-- A pattern's value with bits its mask leaves free is a word of its row. -/
theorem Pattern.matches_or {fields : Word} {p : Pattern} (h : p.ok fields = true) {x : Word}
    (hx : x &&& fields = x) : p.matches (p.value ||| x) = true := by
  simp only [Pattern.ok, Bool.and_eq_true, beq_iff_eq] at h
  obtain ⟨⟨⟨hvalue, hfields⟩, _⟩, _⟩ := h
  have hfree : x &&& p.mask = 0 := by
    rw [← hx, BitVec.and_assoc, BitVec.and_comm fields, hfields]
    exact BitVec.and_zero
  rw [Pattern.matches_iff, BitVec.and_or_distrib_right, hvalue, hfree]
  exact BitVec.or_zero

/-! ### The rows -/

/-- The seven rows in the order the decoder tries them. -/
def Enc.rows (enc : Enc) : List (Option Pattern) :=
  [auipcPattern, jalPattern, jalrPattern, enc.addiy, enc.scbnds, enc.clrperm, enc.gcperm]

/-- No word matches both rows. -/
def Pattern.Exclusive (p q : Option Pattern) : Prop :=
  ∀ w : Word, Pattern.matchesOpt p w = true → Pattern.matchesOpt q w = false

theorem Pattern.Exclusive.symm {p q : Option Pattern} (h : Pattern.Exclusive p q) : Pattern.Exclusive q p :=
  fun w hq => Bool.eq_false_iff.mpr fun hp => Bool.false_ne_true ((h w hp).symm.trans hq)

theorem Pattern.exclusive_of_disjoint {p q : Pattern} (h : p.disjoint q = true) : Pattern.Exclusive p q :=
  fun _ hp => Pattern.not_matches_of_disjoint h hp

theorem Pattern.exclusive_of_apart {p : Option Pattern} {qs : List (Option Pattern)} (h : Pattern.apart p qs = true) :
    ∀ q ∈ qs, Pattern.Exclusive p q := by
  intro q hq w hp
  cases p with
  | none => cases hp
  | some a =>
    cases q with
    | none => rfl
    | some b =>
      have hab : a.disjoint b = true := List.all_eq_true.mp h _ hq
      exact Pattern.not_matches_of_disjoint hab hp

/-- What a well-formed ENC gives of its four patterns: each allows its operand fields. -/
theorem Enc.ok_fields {enc : Enc} (h : enc.ok = true) :
    enc.addiy.all (Pattern.ok iFields) = true ∧ enc.scbnds.all (Pattern.ok rFields) = true ∧
      enc.clrperm.all (Pattern.ok rFields) = true ∧ enc.gcperm.all (Pattern.ok gFields) = true := by
  simp only [Enc.ok, Bool.and_eq_true] at h
  obtain ⟨⟨⟨⟨⟨⟨⟨ha, hs⟩, hc⟩, hg⟩, _⟩, _⟩, _⟩, _⟩ := h
  exact ⟨ha, hs, hc, hg⟩

/-- Under a well-formed ENC no two rows share a word. -/
theorem Enc.rows_exclusive {enc : Enc} (h : enc.ok = true) : enc.rows.Pairwise Pattern.Exclusive := by
  simp only [Enc.ok, Bool.and_eq_true] at h
  obtain ⟨⟨⟨⟨_, ha⟩, hs⟩, hc⟩, hg⟩ := h
  have haddiy := Pattern.exclusive_of_apart ha
  have hscbnds := Pattern.exclusive_of_apart hs
  have hclrperm := Pattern.exclusive_of_apart hc
  have hgcperm := Pattern.exclusive_of_apart hg
  simp only [List.forall_mem_cons] at haddiy hscbnds hclrperm hgcperm
  obtain ⟨ha1, ha2, ha3, ha4, ha5, ha6, -⟩ := haddiy
  obtain ⟨hs1, hs2, hs3, hs4, hs5, -⟩ := hscbnds
  obtain ⟨hc1, hc2, hc3, hc4, -⟩ := hclrperm
  obtain ⟨hg1, hg2, hg3, -⟩ := hgcperm
  have h12 : Pattern.Exclusive auipcPattern jalPattern := Pattern.exclusive_of_disjoint (by decide)
  have h13 : Pattern.Exclusive auipcPattern jalrPattern := Pattern.exclusive_of_disjoint (by decide)
  have h23 : Pattern.Exclusive jalPattern jalrPattern := Pattern.exclusive_of_disjoint (by decide)
  simp only [Enc.rows, List.pairwise_cons, List.forall_mem_cons]
  exact ⟨⟨h12, h13, ha1.symm, hs1.symm, hc1.symm, hg1.symm, nofun⟩, ⟨h23, ha2.symm, hs2.symm, hc2.symm, hg2.symm, nofun⟩,
    ⟨ha3.symm, hs3.symm, hc3.symm, hg3.symm, nofun⟩, ⟨ha4, ha5, ha6, nofun⟩, ⟨hs4, hs5, nofun⟩, ⟨hc4, nofun⟩,
    nofun, List.Pairwise.nil⟩

theorem length_filter_le_one_of_pairwise {α : Type} {f : α → Bool} {l : List α}
    (h : l.Pairwise fun a b => f a = true → f b = false) : ((l.map f).filter fun b => b).length ≤ 1 := by
  induction h with
  | nil => simp
  | @cons a rest hhead _ ih =>
    cases ha : f a with
    | false => simpa [ha] using ih
    | true =>
      have hnone : (rest.map f).filter (fun b => b) = [] := by
        simpa [List.filter_eq_nil_iff] using fun b hb => hhead b hb ha
      simp [ha, hnone]

/-- Settles O3: the rows exclude each other in pairs, so at most one of their matches is true. -/
theorem rowsShareNoWord : Obligations.RowsShareNoWord := fun enc w hok =>
  length_filter_le_one_of_pairwise (f := fun p => Pattern.matchesOpt p w) (l := enc.rows)
    ((Enc.rows_exclusive hok).imp fun h => h w)

end Sys2Proof
end

section
/-! SUPPORT. Fields placed in a word and read back (R54, R55); and that the decoder and the encoder are inverse to each
other (R59, R60). -/

namespace Sys2Proof

/-! ### Placing a field and reading one -/

section Place
variable {w n m lo lo' : Nat} (v : BitVec n)

theorem getLsbD_place (i : Nat) :
    (place w lo v).getLsbD i = (decide (i < w) && !decide (i < lo) && v.getLsbD (i - lo)) := by
  simp only [place, BitVec.getLsbD_shiftLeft, BitVec.getLsbD_setWidth]
  by_cases hw : i < w
  · simp [hw, show i - lo < w by omega]
  · simp [hw]

/-- A field reads back from where it was placed. -/
theorem extractLsb'_place_same (h : lo + n ≤ w) : (place w lo v).extractLsb' lo n = v := by
  refine BitVec.eq_of_getLsbD_eq fun i hi => ?_
  rw [BitVec.getLsbD_extractLsb', getLsbD_place]
  simp [hi, show lo + i < w by omega]

/-- A field placed elsewhere reads as 0. -/
theorem extractLsb'_place_of_disjoint (h : lo' + m ≤ lo ∨ lo + n ≤ lo') : (place w lo v).extractLsb' lo' m = 0#m := by
  refine BitVec.eq_of_getLsbD_eq fun i hi => ?_
  simp only [BitVec.getLsbD_extractLsb', hi, decide_true, Bool.true_and, getLsbD_place, BitVec.getLsbD_zero]
  rcases h with h | h
  · simp [show lo' + i < lo by omega]
  · simp [v.getLsbD_of_ge (lo' + i - lo) (by omega)]

/-- A field placed where a mask is all 1 survives the mask. -/
theorem place_and_of_allOnes {fields : BitVec w} (h : fields.extractLsb' lo n = BitVec.allOnes n) :
    place w lo v &&& fields = place w lo v := by
  refine BitVec.eq_of_getLsbD_eq fun i hi => ?_
  rw [BitVec.getLsbD_and, getLsbD_place]
  by_cases hlo : i < lo
  · simp [hlo]
  by_cases hn : i - lo < n
  · have hbit := congrArg (·.getLsbD (i - lo)) h
    simp only [BitVec.getLsbD_extractLsb', hn, decide_true, Bool.true_and, BitVec.getLsbD_allOnes,
      show lo + (i - lo) = i by omega] at hbit
    simp [hbit]
  · simp [v.getLsbD_of_ge (i - lo) (by omega)]

end Place

/-- Reading a field the pattern leaves free passes over the pattern's value. -/
theorem Pattern.extractLsb'_value_or {fields : Word} {p : Pattern} (h : p.ok fields = true) {lo n : Nat}
    (hf : fields.extractLsb' lo n = BitVec.allOnes n) (x : Word) :
    (p.value ||| x).extractLsb' lo n = x.extractLsb' lo n := by
  have hzero : p.value.extractLsb' lo n = 0#n := by
    rw [← BitVec.and_allOnes (x := p.value.extractLsb' lo n), ← hf, ← BitVec.extractLsb'_and, Pattern.value_and_fields h]
    exact BitVec.extractLsb'_zero
  rw [BitVec.extractLsb'_or, hzero, BitVec.zero_or]

/-! ### The operand bits of a word -/

/-- The operand bits of an I-format word (R54). -/
def iOperands (rd rs1 : RegIdx) (imm : BitVec 12) : Word := place 32 20 imm ||| place 32 15 rs1 ||| place 32 7 rd

/-- The operand bits of an R-format word (R55). -/
def rOperands (rd rs1 rs2 : RegIdx) : Word := place 32 20 rs2 ||| place 32 15 rs1 ||| place 32 7 rd

theorem iWord_eq_or (p : Pattern) (rd rs1 : RegIdx) (imm : BitVec 12) :
    iWord p rd rs1 imm = p.value ||| iOperands rd rs1 imm := by
  simp only [iWord, iOperands, BitVec.or_assoc]

theorem rWord_eq_or (p : Pattern) (rd rs1 rs2 : RegIdx) :
    rWord p rd rs1 rs2 = p.value ||| rOperands rd rs1 rs2 := by
  simp only [rWord, rOperands, BitVec.or_assoc]

theorem iOperands_and_iFields (rd rs1 : RegIdx) (imm : BitVec 12) :
    iOperands rd rs1 imm &&& iFields = iOperands rd rs1 imm := by
  simp only [iOperands, BitVec.and_or_distrib_right]
  rw [place_and_of_allOnes imm (by decide), place_and_of_allOnes rs1 (by decide), place_and_of_allOnes rd (by decide)]

theorem rOperands_and_rFields (rd rs1 rs2 : RegIdx) :
    rOperands rd rs1 rs2 &&& rFields = rOperands rd rs1 rs2 := by
  simp only [rOperands, BitVec.and_or_distrib_right]
  rw [place_and_of_allOnes rs2 (by decide), place_and_of_allOnes rs1 (by decide), place_and_of_allOnes rd (by decide)]

theorem rOperands_and_gFields (rd rs1 : RegIdx) : rOperands rd rs1 0 &&& gFields = rOperands rd rs1 0 := by
  have hzero : place 32 20 (0 : RegIdx) = 0#32 := by decide
  simp only [rOperands, hzero, BitVec.zero_or, BitVec.and_or_distrib_right]
  rw [place_and_of_allOnes rs1 (by decide), place_and_of_allOnes rd (by decide)]

section Fields
variable (rd rs1 rs2 : RegIdx) (imm : BitVec 12)

theorem rdField_iOperands : (iOperands rd rs1 imm).extractLsb' 7 5 = rd := by
  simp [iOperands, BitVec.extractLsb'_or, extractLsb'_place_same, extractLsb'_place_of_disjoint]

theorem rs1Field_iOperands : (iOperands rd rs1 imm).extractLsb' 15 5 = rs1 := by
  simp [iOperands, BitVec.extractLsb'_or, extractLsb'_place_same, extractLsb'_place_of_disjoint]

theorem iImm_iOperands : (iOperands rd rs1 imm).extractLsb' 20 12 = imm := by
  simp [iOperands, BitVec.extractLsb'_or, extractLsb'_place_same, extractLsb'_place_of_disjoint]

theorem rdField_rOperands : (rOperands rd rs1 rs2).extractLsb' 7 5 = rd := by
  simp [rOperands, BitVec.extractLsb'_or, extractLsb'_place_same, extractLsb'_place_of_disjoint]

theorem rs1Field_rOperands : (rOperands rd rs1 rs2).extractLsb' 15 5 = rs1 := by
  simp [rOperands, BitVec.extractLsb'_or, extractLsb'_place_same, extractLsb'_place_of_disjoint]

theorem rs2Field_rOperands : (rOperands rd rs1 rs2).extractLsb' 20 5 = rs2 := by
  simp [rOperands, BitVec.extractLsb'_or, extractLsb'_place_same, extractLsb'_place_of_disjoint]

end Fields

theorem iWord_fields {p : Pattern} (h : p.ok iFields = true) (rd rs1 : RegIdx) (imm : BitVec 12) :
    rdField (iWord p rd rs1 imm) = rd ∧ rs1Field (iWord p rd rs1 imm) = rs1 ∧ iImm (iWord p rd rs1 imm) = imm := by
  rw [iWord_eq_or]
  exact ⟨(Pattern.extractLsb'_value_or h (by decide) _).trans (rdField_iOperands ..),
    (Pattern.extractLsb'_value_or h (by decide) _).trans (rs1Field_iOperands ..),
    (Pattern.extractLsb'_value_or h (by decide) _).trans (iImm_iOperands ..)⟩

theorem rWord_fields {p : Pattern} (h : p.ok rFields = true) (rd rs1 rs2 : RegIdx) :
    rdField (rWord p rd rs1 rs2) = rd ∧ rs1Field (rWord p rd rs1 rs2) = rs1 ∧ rs2Field (rWord p rd rs1 rs2) = rs2 := by
  rw [rWord_eq_or]
  exact ⟨(Pattern.extractLsb'_value_or h (by decide) _).trans (rdField_rOperands ..),
    (Pattern.extractLsb'_value_or h (by decide) _).trans (rs1Field_rOperands ..),
    (Pattern.extractLsb'_value_or h (by decide) _).trans (rs2Field_rOperands ..)⟩

theorem gWord_fields {p : Pattern} (h : p.ok gFields = true) (rd rs1 : RegIdx) :
    rdField (rWord p rd rs1 0) = rd ∧ rs1Field (rWord p rd rs1 0) = rs1 := by
  rw [rWord_eq_or]
  exact ⟨(Pattern.extractLsb'_value_or h (by decide) _).trans (rdField_rOperands ..),
    (Pattern.extractLsb'_value_or h (by decide) _).trans (rs1Field_rOperands ..)⟩

/-! ### The U and J formats -/

theorem auipcPattern_matches_uWord (rd : RegIdx) (imm : BitVec 20) :
    auipcPattern.matches (uWord auipcPattern rd imm) = true := by
  rw [uWord, BitVec.or_assoc]
  refine Pattern.matches_or (fields := 0xFFFFFF80) (by decide) ?_
  rw [BitVec.and_or_distrib_right, place_and_of_allOnes imm (by decide), place_and_of_allOnes rd (by decide)]

theorem uWord_fields (rd : RegIdx) (imm : BitVec 20) :
    rdField (uWord auipcPattern rd imm) = rd ∧ uImm (uWord auipcPattern rd imm) = imm := by
  have hok : auipcPattern.ok 0xFFFFFF80 = true := by decide
  rw [uWord, BitVec.or_assoc]
  refine ⟨(Pattern.extractLsb'_value_or hok (by decide) _).trans ?_,
    (Pattern.extractLsb'_value_or hok (by decide) _).trans ?_⟩ <;>
    simp [BitVec.extractLsb'_or, extractLsb'_place_same, extractLsb'_place_of_disjoint]

theorem jalPattern_matches_jWord (rd : RegIdx) (imm : BitVec 21) :
    jalPattern.matches (jWord jalPattern rd imm) = true := by
  simp only [jWord, BitVec.or_assoc]
  refine Pattern.matches_or (fields := 0xFFFFFF80) (by decide) ?_
  simp only [BitVec.and_or_distrib_right]
  rw [place_and_of_allOnes _ (by decide), place_and_of_allOnes _ (by decide), place_and_of_allOnes _ (by decide),
    place_and_of_allOnes _ (by decide), place_and_of_allOnes _ (by decide)]

theorem rdField_jWord (rd : RegIdx) (imm : BitVec 21) : rdField (jWord jalPattern rd imm) = rd := by
  simp only [jWord, BitVec.or_assoc]
  refine (Pattern.extractLsb'_value_or (fields := 0xFFFFFF80) (by decide) (by decide) _).trans ?_
  simp [BitVec.extractLsb'_or, extractLsb'_place_same, extractLsb'_place_of_disjoint]

/-- Four pieces of the J-format immediate, all of it but bit 0, make it up (R54, R58). -/
theorem jImm_pieces {imm : BitVec 21} (heven : imm.getLsbD 0 = false) :
    place 21 20 (imm.extractLsb' 20 1) ||| place 21 12 (imm.extractLsb' 12 8) ||| place 21 11 (imm.extractLsb' 11 1) |||
      place 21 1 (imm.extractLsb' 1 10) = imm := by
  refine BitVec.eq_of_getLsbD_eq fun i hi => ?_
  interval_cases i
  · simpa [place] using heven.symm
  all_goals simp [place]

/-- Each piece of the immediate is read back from its place in the word (R54). -/
theorem jImm_jWord (rd : RegIdx) {imm : BitVec 21} (heven : imm.getLsbD 0 = false) :
    jImm (jWord jalPattern rd imm) = imm := by
  have hok : jalPattern.ok 0xFFFFFF80 = true := by decide
  simp only [jImm, jWord, BitVec.or_assoc]
  rw [Pattern.extractLsb'_value_or hok (by decide), Pattern.extractLsb'_value_or hok (by decide),
    Pattern.extractLsb'_value_or hok (by decide), Pattern.extractLsb'_value_or hok (by decide)]
  simp only [BitVec.extractLsb'_or]
  simp only [extractLsb'_place_same, extractLsb'_place_of_disjoint, BitVec.or_zero, BitVec.zero_or, Nat.reduceAdd,
    Nat.reduceLeDiff, true_or, or_true, le_refl]
  rw [← BitVec.or_assoc, ← BitVec.or_assoc]
  exact jImm_pieces heven

end Sys2Proof
end

section
/-! SUPPORT. What the decoder answers on a word of each row, and that encoder and decoder are inverse (R59, R60, R61). -/

namespace Sys2Proof

/-! ### The decoder on a word of each row -/

section Rows
variable {enc : Enc} {w : Word}

theorem decodeWith_of_auipc (h : auipcPattern.matches w = true) :
    decodeWith enc w = .ok (.auipc (rdField w) (uImm w)) := by
  rw [decodeWith, if_pos h]

theorem decodeWith_of_jal (h : jalPattern.matches w = true) :
    decodeWith enc w = .ok (.jal (rdField w) (jImm w)) := by
  have hauipc := Pattern.not_matches_of_disjoint (q := auipcPattern) (by decide) h
  simp only [decodeWith, hauipc, h, Bool.false_eq_true, if_true, if_false]

theorem decodeWith_of_jalr (h : jalrPattern.matches w = true) :
    decodeWith enc w = .ok (.jalr (rdField w) (rs1Field w) (iImm w)) := by
  have hauipc := Pattern.not_matches_of_disjoint (q := auipcPattern) (by decide) h
  have hjal := Pattern.not_matches_of_disjoint (q := jalPattern) (by decide) h
  simp only [decodeWith, hauipc, hjal, h, Bool.false_eq_true, if_true, if_false]

/-- A word of one of ENC's rows is no word of the three rows whose opcodes are fixed. -/
theorem Enc.not_fixed_row (hok : enc.ok = true) {p : Option Pattern}
    (hp : p ∈ [enc.addiy, enc.scbnds, enc.clrperm, enc.gcperm]) (h : Pattern.matchesOpt p w = true) :
    auipcPattern.matches w = false ∧ jalPattern.matches w = false ∧ jalrPattern.matches w = false := by
  have hrows := Enc.rows_exclusive hok
  simp only [Enc.rows, List.pairwise_cons] at hrows
  obtain ⟨hauipc, hjal, hjalr, -⟩ := hrows
  exact ⟨(hauipc p (by simp at hp ⊢; tauto)).symm w h, (hjal p (by simp at hp ⊢; tauto)).symm w h,
    (hjalr p hp).symm w h⟩

theorem decodeWith_of_addiy (hok : enc.ok = true) (h : Pattern.matchesOpt enc.addiy w = true) :
    decodeWith enc w = .ok (.addiy (rdField w) (rs1Field w) (iImm w)) := by
  obtain ⟨hauipc, hjal, hjalr⟩ := Enc.not_fixed_row hok (by simp) h
  simp only [decodeWith, hauipc, hjal, hjalr, h, Bool.false_eq_true, if_true, if_false]

theorem decodeWith_of_scbnds (hok : enc.ok = true) (h : Pattern.matchesOpt enc.scbnds w = true) :
    decodeWith enc w = .ok (.scbnds (rdField w) (rs1Field w) (rs2Field w)) := by
  obtain ⟨hauipc, hjal, hjalr⟩ := Enc.not_fixed_row hok (by simp) h
  have hrows := Enc.rows_exclusive hok
  simp only [Enc.rows, List.pairwise_cons] at hrows
  obtain ⟨-, -, -, haddiy, -⟩ := hrows
  have haddiy := (haddiy _ (by simp)).symm w h
  simp only [decodeWith, hauipc, hjal, hjalr, haddiy, h, Bool.false_eq_true, if_true, if_false]

theorem decodeWith_of_clrperm (hok : enc.ok = true) (h : Pattern.matchesOpt enc.clrperm w = true) :
    decodeWith enc w = .ok (.clrperm (rdField w) (rs1Field w) (rs2Field w)) := by
  obtain ⟨hauipc, hjal, hjalr⟩ := Enc.not_fixed_row hok (by simp) h
  have hrows := Enc.rows_exclusive hok
  simp only [Enc.rows, List.pairwise_cons] at hrows
  obtain ⟨-, -, -, haddiy, hscbnds, -⟩ := hrows
  have haddiy := (haddiy _ (by simp)).symm w h
  have hscbnds := (hscbnds _ (by simp)).symm w h
  simp only [decodeWith, hauipc, hjal, hjalr, haddiy, hscbnds, h, Bool.false_eq_true, if_true, if_false]

theorem decodeWith_of_gcperm (hok : enc.ok = true) (h : Pattern.matchesOpt enc.gcperm w = true) :
    decodeWith enc w = .ok (.gcperm (rdField w) (rs1Field w)) := by
  obtain ⟨hauipc, hjal, hjalr⟩ := Enc.not_fixed_row hok (by simp) h
  have hrows := Enc.rows_exclusive hok
  simp only [Enc.rows, List.pairwise_cons] at hrows
  obtain ⟨-, -, -, haddiy, hscbnds, hclrperm, -⟩ := hrows
  have haddiy := (haddiy _ (by simp)).symm w h
  have hscbnds := (hscbnds _ (by simp)).symm w h
  have hclrperm := (hclrperm _ (by simp)).symm w h
  simp only [decodeWith, hauipc, hjal, hjalr, haddiy, hscbnds, hclrperm, h, Bool.false_eq_true, if_true, if_false]

end Rows

/-! ### Decoding an encoded instruction -/

/-- The encoder's word for a row is a word of the row: the operand bits are free in its pattern. -/
theorem Pattern.matchesOpt_or {fields : Word} {row : Option Pattern} {p : Pattern} (hrow : row = some p)
    (h : p.ok fields = true) {x : Word} (hx : x &&& fields = x) : Pattern.matchesOpt row (p.value ||| x) = true := by
  rw [hrow]
  exact Pattern.matches_or h hx

/-- Settles O1, instruction by instruction: the word matches its row, so the decoder answers that row's instruction,
and each operand field reads back what the encoder placed there. -/
theorem decodeAfterEncode : Obligations.DecodeAfterEncode := by
  intro enc i w hok himm hw
  obtain ⟨haddiy, hscbnds, hclrperm, hgcperm⟩ := Enc.ok_fields hok
  cases i with
  | auipc rd imm =>
    obtain rfl : uWord auipcPattern rd imm = w := Option.some.inj hw
    obtain ⟨hrd, himm⟩ := uWord_fields rd imm
    rw [decodeWith_of_auipc (auipcPattern_matches_uWord rd imm), hrd, himm]
  | jal rd imm =>
    obtain rfl : jWord jalPattern rd imm = w := Option.some.inj hw
    have heven : imm.getLsbD 0 = false := by simpa [Instr.immOk] using himm
    rw [decodeWith_of_jal (jalPattern_matches_jWord rd imm), rdField_jWord, jImm_jWord rd heven]
  | jalr rd rs1 imm =>
    obtain rfl : iWord jalrPattern rd rs1 imm = w := Option.some.inj hw
    have hfields : jalrPattern.ok iFields = true := by decide
    have hmatch : jalrPattern.matches (iWord jalrPattern rd rs1 imm) = true := by
      rw [iWord_eq_or]
      exact Pattern.matches_or hfields (iOperands_and_iFields ..)
    obtain ⟨hrd, hrs1, himm⟩ := iWord_fields hfields rd rs1 imm
    rw [decodeWith_of_jalr hmatch, hrd, hrs1, himm]
  | addiy rd rs1 imm =>
    obtain ⟨p, hp, rfl⟩ := Option.map_eq_some_iff.mp hw
    have hfields : p.ok iFields = true := by simpa [hp] using haddiy
    have hmatch : Pattern.matchesOpt enc.addiy (iWord p rd rs1 imm) = true := by
      rw [iWord_eq_or]
      exact Pattern.matchesOpt_or hp hfields (iOperands_and_iFields ..)
    obtain ⟨hrd, hrs1, himm⟩ := iWord_fields hfields rd rs1 imm
    rw [decodeWith_of_addiy hok hmatch, hrd, hrs1, himm]
  | scbnds rd rs1 rs2 =>
    obtain ⟨p, hp, rfl⟩ := Option.map_eq_some_iff.mp hw
    have hfields : p.ok rFields = true := by simpa [hp] using hscbnds
    have hmatch : Pattern.matchesOpt enc.scbnds (rWord p rd rs1 rs2) = true := by
      rw [rWord_eq_or]
      exact Pattern.matchesOpt_or hp hfields (rOperands_and_rFields ..)
    obtain ⟨hrd, hrs1, hrs2⟩ := rWord_fields hfields rd rs1 rs2
    rw [decodeWith_of_scbnds hok hmatch, hrd, hrs1, hrs2]
  | clrperm rd rs1 rs2 =>
    obtain ⟨p, hp, rfl⟩ := Option.map_eq_some_iff.mp hw
    have hfields : p.ok rFields = true := by simpa [hp] using hclrperm
    have hmatch : Pattern.matchesOpt enc.clrperm (rWord p rd rs1 rs2) = true := by
      rw [rWord_eq_or]
      exact Pattern.matchesOpt_or hp hfields (rOperands_and_rFields ..)
    obtain ⟨hrd, hrs1, hrs2⟩ := rWord_fields hfields rd rs1 rs2
    rw [decodeWith_of_clrperm hok hmatch, hrd, hrs1, hrs2]
  | gcperm rd rs1 =>
    obtain ⟨p, hp, rfl⟩ := Option.map_eq_some_iff.mp hw
    have hfields : p.ok gFields = true := by simpa [hp] using hgcperm
    have hmatch : Pattern.matchesOpt enc.gcperm (rWord p rd rs1 0) = true := by
      rw [rWord_eq_or]
      exact Pattern.matchesOpt_or hp hfields (rOperands_and_gFields ..)
    obtain ⟨hrd, hrs1⟩ := gWord_fields hfields rd rs1
    rw [decodeWith_of_gcperm hok hmatch, hrd, hrs1]

/-! ### Encoding a decoded word -/

/-- The bits a mask leaves out, and the bits it fixes to a row's value, are all of a word. -/
theorem Pattern.eq_value_or_of_matches {p : Pattern} {w : Word} (h : p.matches w = true) :
    w = p.value ||| (w &&& ~~~p.mask) := by
  rw [← (p.matches_iff w).mp h, ← BitVec.and_or_distrib_left, BitVec.or_not_self, BitVec.and_allOnes]

/-- The fields of a U-format word are all of its free bits (R54). -/
theorem uWord_of_matches {w : Word} (h : auipcPattern.matches w = true) :
    uWord auipcPattern (rdField w) (uImm w) = w := by
  conv_rhs => rw [Pattern.eq_value_or_of_matches h]
  rw [uWord, BitVec.or_assoc]
  congr 1
  refine BitVec.eq_of_getLsbD_eq fun i hi => ?_
  interval_cases i <;> simp [place, rdField, uImm, auipcPattern]

/-- The fields of a J-format word are all of its free bits (R54). -/
theorem jWord_of_matches {w : Word} (h : jalPattern.matches w = true) :
    jWord jalPattern (rdField w) (jImm w) = w := by
  conv_rhs => rw [Pattern.eq_value_or_of_matches h]
  simp only [jWord, BitVec.or_assoc]
  congr 1
  refine BitVec.eq_of_getLsbD_eq fun i hi => ?_
  interval_cases i <;> simp [place, rdField, jImm, jalPattern]

/-- The fields of a JALR word are all of its free bits (R54). -/
theorem iWord_of_matches {w : Word} (h : jalrPattern.matches w = true) :
    iWord jalrPattern (rdField w) (rs1Field w) (iImm w) = w := by
  conv_rhs => rw [Pattern.eq_value_or_of_matches h]
  rw [iWord_eq_or, iOperands]
  congr 1
  refine BitVec.eq_of_getLsbD_eq fun i hi => ?_
  interval_cases i <;> simp [place, rdField, rs1Field, iImm, jalrPattern]

theorem jImm_even (w : Word) : (jImm w).getLsbD 0 = false := by simp [jImm, place]

/-- Settles O2: the row a word matches decides what it decodes to, and its fields put the word together again. -/
theorem encodeAfterDecode : Obligations.EncodeAfterDecode := by
  intro enc i w hdec hrow
  obtain hauipc | hjal | hjalr := hrow
  · obtain rfl := Except.ok.inj ((decodeWith_of_auipc hauipc).symm.trans hdec)
    exact ⟨congrArg some (uWord_of_matches hauipc), rfl⟩
  · obtain rfl := Except.ok.inj ((decodeWith_of_jal hjal).symm.trans hdec)
    exact ⟨congrArg some (jWord_of_matches hjal), by simp only [Instr.immOk, jImm_even, Bool.not_false]⟩
  · obtain rfl := Except.ok.inj ((decodeWith_of_jalr hjalr).symm.trans hdec)
    exact ⟨congrArg some (iWord_of_matches hjalr), rfl⟩

/-- Settles O4: each word is of a row whose opcode is fixed, so ENC is not asked, and its fields are read off. -/
theorem writtenWordsDecode : Obligations.WrittenWordsDecode := fun enc =>
  ⟨decodeWith_of_auipc (by decide), decodeWith_of_jal (by decide), decodeWith_of_jal (by decide),
    decodeWith_of_jalr (by decide), decodeWith_of_jalr (by decide)⟩

end Sys2Proof
end

section
/-! SUPPORT. What every kind of update keeps: memory, the system registers and the general registers; a trap entry; and
what one step does, said once over the state with the oracle's answer and the free values used up. -/

namespace Sys2Proof.Machine

/-! ### The oracle's answers and the free values -/

/-- The state with other coming answers of the `IRQ` oracle and another count of free values. -/
def State.withOracle (s : State) (irq : List (Option (BitVec 31))) (draws : Nat) : State :=
  { s with irq := irq, draws := draws }

section Oracle
variable (s : State) (irq : List (Option (BitVec 31))) (draws : Nat)

@[simp] theorem State.withOracle_regs : (s.withOracle irq draws).regs = s.regs := rfl
@[simp] theorem State.withOracle_pcc : (s.withOracle irq draws).pcc = s.pcc := rfl
@[simp] theorem State.withOracle_pc : (s.withOracle irq draws).pc = s.pc := rfl
@[simp] theorem State.withOracle_mie : (s.withOracle irq draws).mie = s.mie := rfl
@[simp] theorem State.withOracle_mpie : (s.withOracle irq draws).mpie = s.mpie := rfl
@[simp] theorem State.withOracle_mtvec : (s.withOracle irq draws).mtvec = s.mtvec := rfl
@[simp] theorem State.withOracle_mscratch : (s.withOracle irq draws).mscratch = s.mscratch := rfl
@[simp] theorem State.withOracle_mtidc : (s.withOracle irq draws).mtidc = s.mtidc := rfl
@[simp] theorem State.withOracle_mepc : (s.withOracle irq draws).mepc = s.mepc := rfl
@[simp] theorem State.withOracle_mcause : (s.withOracle irq draws).mcause = s.mcause := rfl
@[simp] theorem State.withOracle_mtval : (s.withOracle irq draws).mtval = s.mtval := rfl
@[simp] theorem State.withOracle_mem : (s.withOracle irq draws).mem = s.mem := rfl
@[simp] theorem State.withOracle_tags : (s.withOracle irq draws).tags = s.tags := rfl
@[simp] theorem State.withOracle_stored : (s.withOracle irq draws).stored = s.stored := rfl
@[simp] theorem State.withOracle_irq : (s.withOracle irq draws).irq = irq := rfl
@[simp] theorem State.withOracle_draws : (s.withOracle irq draws).draws = draws := rfl
@[simp] theorem State.withOracle_plat : (s.withOracle irq draws).plat = s.plat := rfl
@[simp] theorem State.readReg_withOracle (i : RegIdx) : (s.withOracle irq draws).readReg i = s.readReg i := rfl
@[simp] theorem State.memCaps_withOracle : (s.withOracle irq draws).memCaps = s.memCaps := rfl
@[simp] theorem State.fetchCheck_withOracle : (s.withOracle irq draws).fetchCheck = s.fetchCheck := rfl

end Oracle

theorem State.afterPoll_eq_withOracle (s : State) : ∃ irq, s.afterPoll = s.withOracle irq s.draws := by
  unfold State.afterPoll
  split
  · exact ⟨_, rfl⟩
  · exact ⟨s.irq, rfl⟩

@[simp] theorem State.readReg_afterPoll (s : State) (i : RegIdx) : s.afterPoll.readReg i = s.readReg i :=
  State.readReg_congr s.afterPoll_regs i

@[simp] theorem State.afterPoll_pc (s : State) : s.afterPoll.pc = s.pc := congrArg Cap.addr s.afterPoll_pcc

@[simp] theorem State.fetchCheck_afterPoll (s : State) : s.afterPoll.fetchCheck = s.fetchCheck := by
  obtain ⟨irq, h⟩ := s.afterPoll_eq_withOracle
  rw [h]
  rfl

@[simp] theorem State.ioRange_afterPoll (s : State) (a n : Nat) : s.afterPoll.ioRange a n = s.ioRange a n := by
  simp only [State.ioRange, State.isIo, State.regionAt, State.afterPoll_plat]

/-! ### Memory and the system registers under an update -/

theorem State.SameMemory.refl (s : State) : s.SameMemory s := .of_fields rfl rfl rfl

theorem State.sameMemory_writeReg (s : State) (i : RegIdx) (c : Cap) : s.SameMemory (s.writeReg i c) :=
  .of_fields (s.writeReg_mem i c) (s.writeReg_tags i c) (s.writeReg_plat i c)

/-- The capabilities of tagged memory depend on the bytes, the tags and the map alone. -/
theorem State.memCaps_congr {s t : State} (hmem : t.mem = s.mem) (htags : t.tags = s.tags) (hplat : t.plat = s.plat) :
    t.memCaps = s.memCaps := by
  simp only [State.memCaps, State.memReadCap, State.memRead, State.tagAt, State.isTagged, State.regionAt, hmem, htags,
    hplat]

/-- What no step changes: memory, tags, the stored addresses, the capability CSRs but `mepc`, and the parameters. -/
structure State.SameStorage (s t : State) : Prop where
  mem : t.mem = s.mem
  tags : t.tags = s.tags
  stored : t.stored = s.stored
  mtvec : t.mtvec = s.mtvec
  mscratch : t.mscratch = s.mscratch
  mtidc : t.mtidc = s.mtidc
  plat : t.plat = s.plat

theorem State.SameStorage.sameMemory {s t : State} (h : s.SameStorage t) : s.SameMemory t :=
  .of_fields h.mem h.tags h.plat

theorem State.SameStorage.canonical {s t : State} (h : s.SameStorage t) (hc : s.Canonical) : t.Canonical :=
  ⟨h.mem ▸ hc.mem, h.tags ▸ hc.tags, h.stored ▸ hc.stored⟩

/-- No instruction stores anything (R45). -/
theorem exec_sameStorage {i : Instr} {s t : State} (h : exec i s = .next t) : s.SameStorage t := by
  obtain ⟨rd, c, rfl⟩ | ⟨rd, c, m, rfl⟩ | ⟨target, rfl⟩ := exec_cases h
  · exact ⟨s.writeReg_mem rd c, s.writeReg_tags rd c, s.writeReg_stored rd c, s.writeReg_mtvec rd c,
      s.writeReg_mscratch rd c, s.writeReg_mtidc rd c, s.writeReg_plat rd c⟩
  · exact ⟨s.writeReg_mem rd _, s.writeReg_tags rd _, s.writeReg_stored rd _, s.writeReg_mtvec rd _,
      s.writeReg_mscratch rd _, s.writeReg_mtidc rd _, s.writeReg_plat rd _⟩
  · exact ⟨rfl, rfl, rfl, rfl, rfl, rfl, rfl⟩

/-- An instruction either enters a trap, or leaves the registers a trap writes as they were (R121). -/
theorem exec_trapRegisters {i : Instr} {s t : State} (h : exec i s = .next t) :
    (∃ cause tval, t = s.trapEntry cause tval) ∨
    (t.mepc = s.mepc ∧ t.mcause = s.mcause ∧ t.mtval = s.mtval ∧ t.mpie = s.mpie) := by
  obtain ⟨rd, c, rfl⟩ | ⟨rd, c, m, rfl⟩ | ⟨target, rfl⟩ := exec_cases h
  · exact .inr ⟨s.writeReg_mepc rd c, s.writeReg_mcause rd c, s.writeReg_mtval rd c, s.writeReg_mpie rd c⟩
  · exact .inr ⟨s.writeReg_mepc rd _, s.writeReg_mcause rd _, s.writeReg_mtval rd _, s.writeReg_mpie rd _⟩
  · exact .inl ⟨_, _, rfl⟩

/-! ### Trap entry -/

/-- A trap entry is all of R121 and nothing else. -/
theorem State.trapped_trapEntry (s : State) (cause tval : Word) : s.Trapped (s.trapEntry cause tval) cause tval where
  mepc := rfl
  mcause := rfl
  mtval := rfl
  saved := rfl
  masked := rfl
  handler := (s.mtvec.clearLow_eq 3).1
  handlerTag := (s.mtvec.clearLow_eq 3).2
  alignedHandler := Cap.clearLow_of_clear
  regs _ := rfl
  mtvec := rfl
  mscratch := rfl
  mtidc := rfl
  stored := rfl
  irq := rfl
  draws := rfl
  plat := rfl
  memory := .of_fields rfl rfl rfl

theorem State.trapped_takeException (s : State) (x : Exc) : s.Trapped (s.takeException x) x.cause x.tval :=
  s.trapped_trapEntry _ _

/-- An interrupt's cause is its code with bit 31 set (R121). -/
theorem interruptCause_eq (code : BitVec 31) :
    (0x80000000 : Word) ||| code.setWidth 32 = BitVec.ofNat 32 (2 ^ 31 + code.toNat) := by
  have hlt := code.isLt
  have hdisjoint : (0x80000000 : Word) &&& code.setWidth 32 = 0#32 := by
    refine BitVec.eq_of_getLsbD_eq fun i hi => ?_
    interval_cases i <;> simp
  rw [← BitVec.add_eq_or_of_and_eq_zero _ _ hdisjoint]
  refine BitVec.eq_of_toNat_eq ?_
  have hbit : (0x80000000 : Word).toNat = 2 ^ 31 := rfl
  simp only [BitVec.toNat_add, BitVec.toNat_setWidth, BitVec.toNat_ofNat, hbit]
  omega

/-! ### One step -/

theorem State.fetch_of_trap {s : State} {x : Exc} (h : s.fetchCheck = some x) : s.fetch = .trap x := by
  rw [State.fetch, h]

section Step
variable {enc : Enc} {s : State}

theorem stepWith_of_presented {code : BitVec 31} (h : s.presented = some code) :
    stepWith enc s = .next (s.afterPoll.takeInterrupt code) := by
  have hpoll : s.pollInterrupt = (some code, s.afterPoll) := by rw [State.pollInterrupt, h]
  rw [stepWith, hpoll]

/-- A fetch check that fails is the exception the step takes (R116, R120). -/
theorem stepWith_of_fetchCheck {x : Exc} (hp : s.presented = none) (h : s.fetchCheck = some x) :
    stepWith enc s = .next (s.afterPoll.takeException x) := by
  have hfetch : s.afterPoll.fetch = .trap x := State.fetch_of_trap (s.fetchCheck_afterPoll.trans h)
  rw [stepWith, State.pollInterrupt_of_not_presented hp]
  simp only [hfetch]

/-- Bytes that may not be executed are refused (R52). -/
theorem stepWith_of_stale (hp : s.presented = none) (h : s.afterPoll.fetch = .stale) :
    stepWith enc s = .refused (.staleFetch s.pc) := by
  rw [stepWith, State.pollInterrupt_of_not_presented hp]
  simp only [h, State.afterPoll_pc]

/-- A fetched word is run from the state its fetch leaves (R120). -/
theorem stepWith_of_word {w : Word} {u : State} (hp : s.presented = none) (h : s.afterPoll.fetch = .word w u) :
    stepWith enc s = runWordWith enc w u := by
  rw [stepWith, State.pollInterrupt_of_not_presented hp]
  simp only [h]

end Step

/-- Everything a step that answers a next state did: it entered a trap, or its fetch passed and the instruction ran. -/
theorem stepWith_inversion {enc : Enc} {s t : State} (h : stepWith enc s = .next t) :
    ∃ irq draws,
      (∃ cause tval, t = (s.withOracle irq draws).trapEntry cause tval) ∨
      (∃ w i, s.pollInterrupt.2.fetch = .word w (s.withOracle irq draws) ∧ s.fetchCheck = none ∧
        decodeWith enc w = .ok i ∧ exec i (s.withOracle irq draws) = .next t) := by
  obtain ⟨irq, hpoll⟩ := s.afterPoll_eq_withOracle
  have hs1 : ∀ {answer s1}, s.pollInterrupt = (answer, s1) → s1 = s.withOracle irq s.draws := fun hp =>
    (congrArg Prod.snd hp).symm.trans hpoll
  obtain ⟨code, s1, hp, rfl⟩ | ⟨s1, hp, ⟨x, hf, rfl⟩ | ⟨w, s2, i, hf, hdec, hrun⟩⟩ := stepWith_cases h
  · obtain rfl := hs1 hp
    exact ⟨irq, s.draws, .inl ⟨_, _, rfl⟩⟩
  · obtain rfl := hs1 hp
    exact ⟨irq, s.draws, .inl ⟨_, _, rfl⟩⟩
  · obtain rfl := hs1 hp
    obtain ⟨hcheck, -, -, rfl⟩ := State.fetch_word hf
    refine ⟨irq, ((s.withOracle irq s.draws).readData s.pc 4).2.draws, ?_⟩
    obtain ⟨-, rfl⟩ | ⟨-, hexec⟩ := hrun
    · exact .inl ⟨_, _, rfl⟩
    · exact .inr ⟨w, i, by rw [hp]; exact hf, hcheck, hdec, hexec⟩

theorem step_sameStorage {s t : State} (h : step s = .next t) : s.SameStorage t := by
  obtain ⟨irq, draws, ⟨cause, tval, rfl⟩ | ⟨w, i, -, -, -, hexec⟩⟩ := stepWith_inversion h
  · exact ⟨rfl, rfl, rfl, rfl, rfl, rfl, rfl⟩
  · have hsame := exec_sameStorage hexec
    exact ⟨hsame.mem, hsame.tags, hsame.stored, hsame.mtvec, hsame.mscratch, hsame.mtidc, hsame.plat⟩

/-- Settles O55: traps and instructions alike leave the whole storage as it is. -/
theorem stepLeavesMemoryAndVectors : Obligations.StepLeavesMemoryAndVectors := fun _ _ h =>
  have hsame := step_sameStorage h
  ⟨hsame.sameMemory, hsame.mtvec, hsame.mscratch, hsame.mtidc, hsame.plat, hsame.canonical⟩

/-- Settles O56: a step that enters no trap runs an instruction that takes none, and that leaves these registers. -/
theorem onlyTrapsWriteTrapRegisters : Obligations.OnlyTrapsWriteTrapRegisters := by
  intro s t h hchanged
  have htrap : ∃ irq draws cause tval, t = (s.withOracle irq draws).trapEntry cause tval := by
    obtain ⟨irq, draws, ⟨cause, tval, ht⟩ | ⟨w, i, -, -, -, hexec⟩⟩ := stepWith_inversion h
    · exact ⟨irq, draws, cause, tval, ht⟩
    · obtain ⟨cause, tval, ht⟩ | ⟨hmepc, hmcause, hmtval, hmpie⟩ := exec_trapRegisters hexec
      · exact ⟨irq, draws, cause, tval, ht⟩
      · simp [hmepc, hmcause, hmtval, hmpie] at hchanged
  obtain ⟨irq, draws, cause, tval, rfl⟩ := htrap
  exact ⟨rfl, rfl, rfl, rfl, fun _ => rfl⟩

/-- MIE after `JALR` differs only for an accepted sentry of types 2 to 5 (R92, D8). -/
theorem jalrMie_ne {rd rs1 : RegIdx} {c : Cap} {imm : BitVec 12} {mie : Bool} (h : jalrMie rd rs1 c imm mie ≠ mie) :
    c.tag = true ∧ accepted rs1 rd c.sealType = true ∧ 2 ≤ c.sealType ∧ c.sealType ≤ 5 := by
  unfold jalrMie at h
  split at h
  · next hok =>
    simp only [jalrOk, Bool.and_eq_true] at hok
    obtain ⟨⟨htag, haccepted⟩, -⟩ := hok
    refine ⟨htag, haccepted, ?_⟩
    by_contra hrange
    exact h (by rw [newMie, if_neg (by omega), if_neg (by omega)])
  · exact absurd rfl h

/-- Of the instructions only `JALR` changes MIE without a trap (R92, R124). -/
theorem exec_mie {i : Instr} {s t : State} (h : exec i s = .next t) (hmie : t.mie ≠ s.mie) :
    (∃ cause tval, t = s.trapEntry cause tval) ∨
    ∃ rd rs1 imm, i = .jalr rd rs1 imm ∧ t.mie = jalrMie rd rs1 (s.readReg rs1) imm s.mie := by
  cases i with
  | auipc rd imm => rw [exec_auipc] at h; cases h; simp at hmie
  | addiy rd rs1 imm => rw [exec_addiy] at h; cases h; simp at hmie
  | scbnds rd rs1 rs2 => rw [exec_scbnds] at h; cases h; simp at hmie
  | clrperm rd rs1 rs2 => rw [exec_clrperm] at h; cases h; simp at hmie
  | gcperm rd rs1 => rw [exec_gcperm] at h; cases h; simp at hmie
  | jal rd imm =>
    by_cases ha : jalTarget s imm &&& 3 = 0
    · rw [exec_jal_aligned ha] at h; cases h; simp at hmie
    · rw [exec_jal_misaligned ha] at h; cases h; exact .inl ⟨_, _, rfl⟩
  | jalr rd rs1 imm =>
    by_cases ha : jalrTarget (s.readReg rs1) imm &&& 3 = 0
    · rw [exec_jalr_aligned ha] at h; cases h; exact .inr ⟨rd, rs1, imm, rfl, rfl⟩
    · rw [exec_jalr_misaligned ha] at h; cases h; exact .inl ⟨_, _, rfl⟩

/-- Settles O33: a step that changes MIE entered a trap, or its instruction is a `JALR` through an accepted sentry. -/
theorem onlySentriesAndTrapsChangeMie : Obligations.OnlySentriesAndTrapsChangeMie := by
  intro s t h hmie
  obtain ⟨irq, draws, ⟨cause, tval, rfl⟩ | ⟨w, i, hfetch, -, hdec, hexec⟩⟩ := stepWith_inversion h
  · exact .inl ⟨rfl, rfl, rfl⟩
  · obtain ⟨cause, tval, rfl⟩ | ⟨rd, rs1, imm, rfl, ht⟩ := exec_mie hexec hmie
    · exact .inl ⟨rfl, rfl, rfl⟩
    · rw [State.readReg_withOracle, State.withOracle_mie] at ht
      obtain ⟨htag, haccepted, hlow, hhigh⟩ := jalrMie_ne (ht ▸ hmie)
      exact .inr ⟨w, _, rd, rs1, imm, hfetch, hdec, htag, hlow, hhigh, haccepted⟩

end Sys2Proof.Machine
end

section
/-! SUPPORT. The checks of a used capability, one lemma for each (R48, R116), the fetch of four bytes of memory, and the
statements about what a step fetches, refuses and traps on. -/

namespace Sys2Proof.Machine

/-! ### The checks of a used capability -/

theorem Cap.unsealed_iff (c : Cap) : c.unsealed = true ↔ c.sealType = 0 := by simp [Cap.unsealed]

section UseCheck
variable {c : Cap} {need : Perm} {a n : Nat}

theorem Cap.useCheck_of_untagged (htag : c.tag = false) : c.useCheck need a n = some .tag := by
  simp [Cap.useCheck, htag]

theorem Cap.useCheck_of_sealed (htag : c.tag = true) (hseal : c.sealType ≠ 0) : c.useCheck need a n = some .seal := by
  simp [Cap.useCheck, htag, Cap.unsealed, hseal]

theorem Cap.useCheck_of_not_permitted (htag : c.tag = true) (hseal : c.sealType = 0)
    (hperm : c.perms.has need = false) : c.useCheck need a n = some .permission := by
  simp [Cap.useCheck, htag, Cap.unsealed, hseal, hperm]

theorem Cap.useCheck_of_not_covered (htag : c.tag = true) (hseal : c.sealType = 0) (hperm : c.perms.has need = true)
    (hbounds : ¬(c.base ≤ a ∧ a + n ≤ c.top)) : c.useCheck need a n = some .bounds := by
  simp only [Cap.useCheck, htag, (c.unsealed_iff).mpr hseal, hperm, Bool.not_true, Bool.false_eq_true, if_false]
  exact if_neg (by simpa using hbounds)

theorem Cap.useCheck_of_allowed (htag : c.tag = true) (hseal : c.sealType = 0) (hperm : c.perms.has need = true)
    (hbounds : c.base ≤ a ∧ a + n ≤ c.top) : c.useCheck need a n = none :=
  (c.useCheck_eq_none_iff need a n).mpr ⟨htag, (c.unsealed_iff).mpr hseal, hperm, hbounds⟩

end UseCheck

/-- Nothing passes the checks of a fetch through an unusable capability (R116, R123). -/
theorem Cap.useCheck_of_unusable {c : Cap} (h : c.unusable) : ∃ check, c.useCheck .X c.addr.toNat 4 = some check := by
  refine Option.ne_none_iff_exists'.mp fun hnone => ?_
  obtain ⟨htag, hunsealed, hperm, hbase, htop⟩ := (c.useCheck_eq_none_iff ..).mp hnone
  have hx : c.perms.x = true := hperm
  obtain h | h | h | h | h := h
  · rw [h] at htag; cases htag
  · exact h ((c.unsealed_iff).mp hunsealed)
  · rw [h] at hx; cases hx
  · omega
  · omega

/-- A multiple of 4, as a word and as a number. -/
theorem and_three_eq_zero_iff (w : Word) : w &&& 3 = 0 ↔ w.toNat % 4 = 0 := by
  have hmod : (w &&& 3).toNat = w.toNat % 4 := by
    rw [BitVec.toNat_and]
    exact Nat.and_two_pow_sub_one_eq_mod w.toNat 2
  rw [← hmod]
  exact ⟨fun h => by rw [h]; rfl, fun h => BitVec.eq_of_toNat_eq h⟩

/-! ### The fetch check -/

section FetchCheck
variable {s : State}

theorem State.fetchCheck_of_useCheck {check : CheriCheck} (h : s.pcc.useCheck .X s.pc.toNat 4 = some check) :
    s.fetchCheck = some (.cheri check .pcc) := by
  rw [State.fetchCheck, h]

theorem State.fetchCheck_of_misaligned (h : s.pcc.useCheck .X s.pc.toNat 4 = none) (halign : s.pc.toNat % 4 ≠ 0) :
    s.fetchCheck = some (.instrAddressMisaligned s.pc) := by
  rw [State.fetchCheck, h]
  exact if_pos (mt (and_three_eq_zero_iff s.pc).mp halign)

theorem State.fetchCheck_of_unbacked (h : s.pcc.useCheck .X s.pc.toNat 4 = none) (halign : s.pc.toNat % 4 = 0)
    (hback : s.backedRange s.pc.toNat 4 = false) : s.fetchCheck = some (.instrAccessFault s.pc) := by
  rw [State.fetchCheck, h]
  simp only [(and_three_eq_zero_iff s.pc).mpr halign, hback, ne_eq, not_true_eq_false, if_false, Bool.false_eq_true]

theorem State.fetchCheck_of_unusable (h : s.pcc.unusable) : ∃ check, s.fetchCheck = some (.cheri check .pcc) := by
  obtain ⟨check, hcheck⟩ := Cap.useCheck_of_unusable h
  exact ⟨check, State.fetchCheck_of_useCheck hcheck⟩

end FetchCheck

/-- A fetch exception enters the trap of R121 from the state with the oracle's answer used up. -/
theorem stepWith_trapped {s : State} {x : Exc} (enc : Enc) (hp : s.presented = none) (h : s.fetchCheck = some x) :
    ∃ t, stepWith enc s = .next t ∧ s.afterPoll.Trapped t x.cause x.tval :=
  ⟨_, stepWith_of_fetchCheck hp h, s.afterPoll.trapped_takeException x⟩

/-- Settles O34: the hypotheses of each clause are those of one check, and the step takes that check's exception. -/
theorem fetchCheckTakesFirstFailure : Obligations.FetchCheckTakesFirstFailure := by
  intro enc s hp
  have hcheri : ∀ {check}, s.pcc.useCheck .X s.pc.toNat 4 = some check → ∃ t, stepWith enc s = .next t ∧
      s.afterPoll.Trapped t (Config.causeCheri.setWidth 32) (Config.cheriTval check .pcc) := fun hcheck =>
    stepWith_trapped enc hp (State.fetchCheck_of_useCheck hcheck)
  refine ⟨fun htag => hcheri (Cap.useCheck_of_untagged htag),
    fun htag hseal => hcheri (Cap.useCheck_of_sealed htag hseal),
    fun htag hseal hperm => hcheri (Cap.useCheck_of_not_permitted htag hseal hperm),
    fun htag hseal hperm hbounds => hcheri (Cap.useCheck_of_not_covered htag hseal hperm hbounds),
    fun htag hseal hperm hbase htop => ?_⟩
  have hpass : s.pcc.useCheck .X s.pc.toNat 4 = none := Cap.useCheck_of_allowed htag hseal hperm ⟨hbase, htop⟩
  exact ⟨fun halign => stepWith_trapped enc hp (State.fetchCheck_of_misaligned hpass halign),
    fun halign hback => stepWith_trapped enc hp (State.fetchCheck_of_unbacked hpass halign hback)⟩

/-! ### Fetching four bytes of memory -/

/-- Addresses run modulo 2^32, as numbers and as words (R47). -/
theorem wrapAddr_toNat_add (a : Word) (k : Nat) : wrapAddr (a.toNat + k) = (a + BitVec.ofNat 32 k).toNat := by
  simp [wrapAddr, addressSpace]

theorem NatSet.hasRange_eq_true_iff (s : NatSet) (a n : Nat) :
    s.hasRange a n = true ↔ ∃ k < n, s.has (wrapAddr (a + k)) = true := by
  induction n generalizing a with
  | zero => simp [NatSet.hasRange]
  | succ n ih =>
    rw [NatSet.hasRange, Bool.or_eq_true, ih]
    constructor
    · rintro (h | ⟨k, hk, h⟩)
      · exact ⟨0, by omega, h⟩
      · exact ⟨k + 1, by omega, by rwa [show a + (k + 1) = a + 1 + k by omega]⟩
    · rintro ⟨k, hk, h⟩
      cases k with
      | zero => exact .inl h
      | succ k => exact .inr ⟨k, by omega, by rwa [show a + (k + 1) = a + 1 + k by omega] at h⟩

/-- A word is its four bytes, lowest first (R38, R53). -/
theorem wordOfBytes_extractLsb' (w : Word) :
    wordOfBytes (w.extractLsb' 0 8) (w.extractLsb' 8 8) (w.extractLsb' 16 8) (w.extractLsb' 24 8) = w := by
  refine BitVec.eq_of_getLsbD_eq fun i hi => ?_
  interval_cases i <;> simp [wordOfBytes, place]

/-- Byte k of a number is that byte of its low bits. -/
theorem ofNat_div_eq_extractLsb' {w k : Nat} (n : Nat) (hk : 8 * k + 8 ≤ w) :
    BitVec.ofNat 8 (n / 256 ^ k) = (BitVec.ofNat w n).extractLsb' (8 * k) 8 := by
  have hpow : 256 ^ k = 2 ^ (8 * k) := by rw [pow_mul]; norm_num
  refine BitVec.eq_of_getLsbD_eq fun i hi => ?_
  rw [hpow, BitVec.getLsbD_ofNat, Nat.testBit_div_two_pow, BitVec.getLsbD_extractLsb', BitVec.getLsbD_ofNat,
    show decide (8 * k + i < w) = true by simp; omega, Nat.add_comm i]
  simp

theorem wordOfBytes_ofNat (n : Nat) :
    wordOfBytes (BitVec.ofNat 8 (n / 256 ^ 0)) (BitVec.ofNat 8 (n / 256 ^ 1)) (BitVec.ofNat 8 (n / 256 ^ 2))
      (BitVec.ofNat 8 (n / 256 ^ 3)) = BitVec.ofNat 32 n := by
  rw [ofNat_div_eq_extractLsb' n (w := 32) (by omega), ofNat_div_eq_extractLsb' n (w := 32) (by omega),
    ofNat_div_eq_extractLsb' n (w := 32) (by omega), ofNat_div_eq_extractLsb' n (w := 32) (by omega)]
  exact wordOfBytes_extractLsb' _

/-- The word at the pc, byte by byte (R53). -/
def State.wordAtPc (s : State) : Word :=
  wordOfBytes (s.readMem s.pc) (s.readMem (s.pc + 1)) (s.readMem (s.pc + 2)) (s.readMem (s.pc + 3))

/-- Byte k of a multi-byte read is the byte at `a + k` (R38). -/
theorem Memory.readLE_byte (m : Memory) {a n k : Nat} (hk : k < n) :
    BitVec.ofNat 8 (m.readLE a n / 256 ^ k) = m.read (wrapAddr (a + k)) := by
  induction n generalizing a k with
  | zero => omega
  | succ n ih =>
    have hlow := (m.read (wrapAddr a)).isLt
    cases k with
    | zero =>
      refine BitVec.eq_of_toNat_eq ?_
      simp only [Memory.readLE, BitVec.toNat_ofNat, Nat.pow_zero, Nat.div_one, Nat.add_zero]
      omega
    | succ k =>
      rw [Memory.readLE, Nat.pow_succ', ← Nat.div_div_eq_div_mul,
        show ((m.read (wrapAddr a)).toNat + 256 * m.readLE (a + 1) n) / 256 = m.readLE (a + 1) n by omega,
        ih (by omega), show a + 1 + k = a + (k + 1) by omega]

theorem State.memRead_byte (s : State) (a : Word) {n k : Nat} (hk : k < n) :
    BitVec.ofNat 8 (s.memRead a n / 256 ^ k) = s.readMem (a + BitVec.ofNat 32 k) := by
  rw [State.memRead, Memory.readLE_byte s.mem hk, wrapAddr_toNat_add, State.readMem]

theorem State.ofNat_memRead_pc (s : State) : BitVec.ofNat 32 (s.memRead s.pc 4) = s.wordAtPc := by
  rw [← wordOfBytes_ofNat, s.memRead_byte _ (by omega), s.memRead_byte _ (by omega), s.memRead_byte _ (by omega),
    s.memRead_byte _ (by omega)]
  simp only [State.wordAtPc, BitVec.ofNat_eq_ofNat, BitVec.add_zero]

/-- A fetch whose check passes answers the four bytes as the hart reads them (R53, R116, R52). -/
theorem State.fetch_of_check {s : State} (hcheck : s.fetchCheck = none)
    (hfresh : s.plat.fetchCoherent = true ∨ s.stored.hasRange s.pc.toNat 4 = false) :
    s.fetch = .word (BitVec.ofNat 32 (s.readData s.pc 4).1) (s.readData s.pc 4).2 := by
  have hrun : (s.plat.fetchCoherent || !s.stored.hasRange s.pc.toNat 4) = true := by simpa using hfresh
  rw [State.fetch, hcheck]
  exact if_pos hrun

/-- A step at memory that is no device runs the word at the pc (R53, R120). -/
theorem stepWith_of_memory {s : State} (enc : Enc) (hp : s.presented = none) (hcheck : s.fetchCheck = none)
    (hio : s.ioRange s.pc.toNat 4 = false)
    (hfresh : s.plat.fetchCoherent = true ∨ s.stored.hasRange s.pc.toNat 4 = false) :
    stepWith enc s = runWordWith enc s.wordAtPc s.afterPoll := by
  obtain ⟨irq, hpoll⟩ := s.afterPoll_eq_withOracle
  refine stepWith_of_word hp ?_
  have hio' : s.afterPoll.ioRange s.afterPoll.pc.toNat 4 = false := by simpa using hio
  rw [State.fetch_of_check (by simpa using hcheck) (by simpa using hfresh), State.readData_of_memory hio',
    State.ofNat_memRead_pc, hpoll]
  rfl

/-! ### Running a word -/

section RunWord
variable {enc : Enc} {w : Word} {i : Instr} {s : State}

theorem runWordWith_of_instr (hdec : decodeWith enc w = .ok i) (hregs : i.regsExist s.plat.nregs = true) :
    runWordWith enc w s = exec i s := by
  simp only [runWordWith, hdec, hregs, if_true]

theorem runWordWith_of_missing_register (hdec : decodeWith enc w = .ok i) (hregs : i.regsExist s.plat.nregs = false) :
    runWordWith enc w s = .next (s.takeException (.illegalInstruction w)) := by
  simp only [runWordWith, hdec, hregs, Bool.false_eq_true, if_false]

theorem runWordWith_of_no_row {r : Reject} (hdec : decodeWith enc w = .error r) :
    runWordWith enc w s = .refused (.unknownWord w) := by
  simp only [runWordWith, hdec]

/-- Four bytes decode to the instruction of their word (R53). -/
theorem decode_four_ok {b0 b1 b2 b3 : Byte} (h : decode enc [b0, b1, b2, b3] = .ok (i, [])) :
    decodeWith enc (wordOfBytes b0 b1 b2 b3) = .ok i := by
  cases hdec : decodeWith enc (wordOfBytes b0 b1 b2 b3) with
  | error r => simp [decode, hdec, Except.map] at h
  | ok j => simpa [decode, hdec, Except.map] using h

/-- The decoder names the word it rejects (R61). -/
theorem decodeWith_error {r : Reject} (h : decodeWith enc w = .error r) : r = .noRow w := by
  unfold decodeWith at h
  repeat' split at h
  all_goals simp_all

theorem decode_four_error {b0 b1 b2 b3 : Byte} (h : decode enc [b0, b1, b2, b3] = .error (.noRow w)) :
    wordOfBytes b0 b1 b2 b3 = w ∧ decodeWith enc (wordOfBytes b0 b1 b2 b3) = .error (.noRow w) := by
  cases hdec : decodeWith enc (wordOfBytes b0 b1 b2 b3) with
  | error r =>
    obtain rfl := decodeWith_error hdec
    simpa [decode, hdec, Except.map] using h
  | ok j => simp [decode, hdec, Except.map] at h

end RunWord

/-- Settles O5: the step runs the word at the pc, which is the instruction; the clauses on the oracle are what asking
it answers. -/
theorem stepRunsDecodedInstruction : Obligations.StepRunsDecodedInstruction := by
  refine ⟨fun enc s i hp hcheck hio hfresh hdec hregs => ?_, fun s hquiet => ⟨?_, State.afterPoll_of_quiet hquiet⟩,
    fun s rest hmie hirq => ?_, fun s => rfl⟩
  · rw [stepWith_of_memory enc hp hcheck hio hfresh]
    exact runWordWith_of_instr (decode_four_ok hdec) (by simpa using hregs)
  · obtain hmie | hirq := hquiet
    · simp [State.presented, hmie]
    · simp [State.presented, hirq]
  · simp [State.presented, State.afterPoll, hmie, hirq]

/-- Settles O6: the step runs the word at the pc, and the decoder rejects it. -/
theorem unmatchedWordIsRefused : Obligations.UnmatchedWordIsRefused := by
  intro enc s w hp hcheck hio hfresh hdec
  obtain ⟨hword, hrej⟩ : s.wordAtPc = w ∧ decodeWith enc s.wordAtPc = .error (.noRow w) := decode_four_error hdec
  rw [stepWith_of_memory enc hp hcheck hio hfresh, runWordWith_of_no_row hrej, hword]

theorem Instr.regsExist_of_missing {i : Instr} (h : ∃ r ∈ i.regFields, 16 ≤ r.toNat) :
    i.regsExist .x16 = false := by
  obtain ⟨r, hr, hhigh⟩ := h
  rw [Instr.regsExist, List.all_eq_false]
  exact ⟨r, hr, by simpa [RegCount.admits] using hhigh⟩

/-- Settles O7: an index the machine has no register for makes the word the illegal-instruction exception's value. -/
theorem missingRegisterIsIllegal : Obligations.MissingRegisterIsIllegal := by
  intro enc s i hp hcheck hio hfresh hdec hn hmissing
  have hregs : i.regsExist s.afterPoll.plat.nregs = false := by
    rw [State.afterPoll_plat, hn]
    exact Instr.regsExist_of_missing hmissing
  refine ⟨s.afterPoll.takeException (.illegalInstruction s.wordAtPc), ?_, s.afterPoll.trapped_takeException _⟩
  rw [stepWith_of_memory enc hp hcheck hio hfresh]
  exact runWordWith_of_missing_register (decode_four_ok hdec) hregs

/-- Settles O60: a stored byte among the four is one the fetch may not execute. -/
theorem storedBytesAreNotExecuted : Obligations.StoredBytesAreNotExecuted := by
  intro enc s hp hcheck hcoherent ⟨k, hk, hstored⟩
  have hrange : s.stored.hasRange s.pc.toNat 4 = true :=
    (NatSet.hasRange_eq_true_iff ..).mpr ⟨k, hk, by rwa [wrapAddr_toNat_add]⟩
  refine stepWith_of_stale hp ?_
  rw [State.fetch, State.fetchCheck_afterPoll, hcheck]
  simp [hcoherent, hrange]

/-! ### Interrupts -/

/-- Settles O35: what is presented is taken, from the state with that answer used up. -/
theorem presentedInterruptIsTaken : Obligations.PresentedInterruptIsTaken := by
  intro enc s code rest hmie hirq
  have hpresented : s.presented = some code := by simp [State.presented, hmie, hirq]
  have hpoll : s.afterPoll = { s with irq := rest } := by simp [State.afterPoll, hmie, hirq]
  have hstep := stepWith_of_presented (enc := enc) hpresented
  rw [hpoll] at hstep
  refine ⟨_, hstep, ?_, hmie, rfl⟩
  rw [← interruptCause_eq]
  exact State.trapped_trapEntry _ _ _

/-- What the hart reads depends on the bytes and the map alone (R38, R50). -/
theorem State.readBytes_congr {s t : State} (hmem : t.mem = s.mem) (hplat : t.plat = s.plat) (d a n : Nat) :
    t.readBytes d a n = s.readBytes d a n := by
  have hio : ∀ x, t.isIo x = s.isIo x := fun x => by simp only [State.isIo, State.regionAt, hplat]
  induction n generalizing d a with
  | zero => rfl
  | succ n ih => simp only [State.readBytes, hio, hmem, ih]

theorem State.ioCount_congr {s t : State} (hplat : t.plat = s.plat) (a n : Nat) : t.ioCount a n = s.ioCount a n := by
  have hio : ∀ x, t.isIo x = s.isIo x := fun x => by simp only [State.isIo, State.regionAt, hplat]
  induction n generalizing a with
  | zero => rfl
  | succ n ih => simp only [State.ioCount, hio, ih]

section Pending
variable (pending : List (Option (BitVec 31)))

theorem State.writeReg_with_irq (s : State) (i : RegIdx) (c : Cap) :
    ({ s with irq := pending } : State).writeReg i c = { s.writeReg i c with irq := pending } := by
  unfold State.writeReg
  split <;> rfl

/-- No instruction asks the oracle or answers for it (R119). -/
theorem exec_with_irq {i : Instr} {s t : State} (h : exec i s = .next t) :
    t.irq = s.irq ∧ exec i { s with irq := pending } = .next { t with irq := pending } := by
  cases i with
  | auipc rd imm =>
    rw [exec_auipc] at h ⊢; cases h
    exact ⟨s.writeReg_irq rd _, by rw [State.writeReg_with_irq]; rfl⟩
  | addiy rd rs1 imm =>
    rw [exec_addiy] at h ⊢; cases h
    exact ⟨s.writeReg_irq rd _, by rw [State.writeReg_with_irq]; rfl⟩
  | scbnds rd rs1 rs2 =>
    rw [exec_scbnds] at h ⊢; cases h
    exact ⟨s.writeReg_irq rd _, by rw [State.writeReg_with_irq]; rfl⟩
  | clrperm rd rs1 rs2 =>
    rw [exec_clrperm] at h ⊢; cases h
    exact ⟨s.writeReg_irq rd _, by rw [State.writeReg_with_irq]; rfl⟩
  | gcperm rd rs1 =>
    rw [exec_gcperm] at h ⊢; cases h
    exact ⟨s.writeReg_irq rd _, by rw [State.writeReg_with_irq]; rfl⟩
  | jal rd imm =>
    by_cases ha : jalTarget s imm &&& 3 = 0
    · rw [exec_jal_aligned ha] at h; cases h
      refine ⟨s.writeReg_irq rd _, ?_⟩
      rw [exec_jal_aligned (s := { s with irq := pending }) ha, State.writeReg_with_irq]
      rfl
    · rw [exec_jal_misaligned ha] at h; cases h
      exact ⟨rfl, exec_jal_misaligned (s := { s with irq := pending }) ha rd⟩
  | jalr rd rs1 imm =>
    by_cases ha : jalrTarget (s.readReg rs1) imm &&& 3 = 0
    · rw [exec_jalr_aligned ha] at h; cases h
      refine ⟨s.writeReg_irq rd _, ?_⟩
      rw [exec_jalr_aligned (s := { s with irq := pending }) ha, State.writeReg_with_irq]
      rfl
    · rw [exec_jalr_misaligned ha] at h; cases h
      exact ⟨rfl, exec_jalr_misaligned (s := { s with irq := pending }) ha rd⟩

theorem State.readData_with_irq (s : State) (a : Word) (n : Nat) :
    ({ s with irq := pending } : State).readData a n =
      ((s.readData a n).1, { (s.readData a n).2 with irq := pending }) := by
  simp only [State.readData, State.readBytes_congr (s := s) (t := { s with irq := pending }) rfl rfl,
    State.ioCount_congr (s := s) (t := { s with irq := pending }) rfl]

theorem runWordWith_with_irq {enc : Enc} {w : Word} {s t : State} (h : runWordWith enc w s = .next t) :
    t.irq = s.irq ∧ runWordWith enc w { s with irq := pending } = .next { t with irq := pending } := by
  unfold runWordWith at h ⊢
  cases hdec : decodeWith enc w with
  | error r => rw [hdec] at h; cases h
  | ok i =>
    simp only [hdec] at h ⊢
    cases hregs : i.regsExist s.plat.nregs with
    | true =>
      simp only [hregs, if_true] at h ⊢
      exact exec_with_irq pending h
    | false =>
      simp only [hregs, Bool.false_eq_true, if_false] at h ⊢
      cases h
      exact ⟨rfl, rfl⟩

end Pending

/-- Settles O36: with MIE = 0 the oracle is not asked, and neither fetch nor instruction reads the answers. -/
theorem maskedInterruptsStayPending : Obligations.MaskedInterruptsStayPending := by
  intro enc s t pending hmie h
  have hstate : ∀ u : State, u.mie = false → u.presented = none ∧ u.afterPoll = u := fun u hu =>
    ⟨by simp [State.presented, hu], State.afterPoll_of_quiet (.inl hu)⟩
  obtain ⟨hp, hpoll⟩ := hstate s hmie
  obtain ⟨hp', hpoll'⟩ := hstate { s with irq := pending } hmie
  cases hfetch : s.fetch with
  | trap x =>
    have hcheck : s.fetchCheck = some x := State.fetch_trap hfetch
    rw [stepWith_of_fetchCheck hp hcheck, hpoll] at h
    cases h
    refine ⟨rfl, ?_⟩
    rw [stepWith_of_fetchCheck hp' (s := { s with irq := pending }) hcheck, hpoll']
    rfl
  | stale => rw [stepWith_of_stale hp (by rwa [hpoll])] at h; cases h
  | word w u =>
    rw [stepWith_of_word hp (by rw [hpoll]; exact hfetch)] at h
    obtain ⟨hcheck, hfresh, rfl, rfl⟩ := State.fetch_word hfetch
    have hfetch' : ({ s with irq := pending } : State).fetch =
        .word (BitVec.ofNat 32 (s.readData s.pc 4).1) { (s.readData s.pc 4).2 with irq := pending } := by
      rw [State.fetch_of_check (s := { s with irq := pending }) hcheck hfresh, State.readData_with_irq]
      rfl
    obtain ⟨hirq, hrun⟩ := runWordWith_with_irq pending h
    exact ⟨hirq, (stepWith_of_word hp' (by rw [hpoll']; exact hfetch')).trans hrun⟩

/-! ### Return from trap, and a vector nothing can be fetched through -/

/-- Settles O37: ASR decides between the return and the fault; clearing the address bit gains no tag. -/
theorem trapReturnNeedsAsr : Obligations.TrapReturnNeedsAsr := by
  intro s
  obtain ⟨hasr, hret⟩ | ⟨hasr, hret⟩ := s.trapReturn_cases
  · rw [hret]
    obtain ⟨hpcc, htag⟩ := s.mepc.clearLow_eq 1
    exact ⟨fun _ => ⟨rfl, rfl, hpcc, htag, Cap.clearLow_of_clear, rfl, fun _ => rfl, .of_fields rfl rfl rfl⟩,
      fun hno => absurd (hasr.symm.trans hno) Bool.noConfusion⟩
  · rw [hret]
    exact ⟨fun hyes => absurd (hasr.symm.trans hyes) Bool.noConfusion, fun _ => s.trapped_takeException asrFault⟩

/-- A step from an unusable `pcc` enters a trap: an interrupt's, or the CHERI fault of the fetch (R120, R123). -/
theorem step_of_unusable {s : State} (h : s.pcc.unusable) :
    ∃ cause tval, step s = .next (s.afterPoll.trapEntry cause tval) ∧
      (s.mie = false → cause = Config.causeCheri.setWidth 32) := by
  obtain ⟨check, hcheck⟩ := State.fetchCheck_of_unusable h
  cases hp : s.presented with
  | none => exact ⟨_, _, stepWith_of_fetchCheck hp hcheck, fun _ => rfl⟩
  | some code =>
    refine ⟨_, _, stepWith_of_presented hp, fun hmie => ?_⟩
    simp [State.presented, hmie] at hp

theorem run_succ_of_step (M : Host.Core) {s t : M.State} (h : M.step s = .next t) (k : Nat) :
    M.run (k + 1) s = M.run k t := by
  rw [Host.Core.run, h]

/-- The state is the handler's of a vector: its `pcc` is the vector, and interrupts are off (R121). -/
def State.inHandlerOf (s : State) (vector : Cap) : Prop := s.pcc = vector ∧ s.mie = false

/-- Settles O38 by induction on the number of steps: every step from an unusable `pcc` enters a trap, and leaves the
vector in `pcc` with interrupts off, from where the same holds. -/
theorem unusableVectorTrapsForEver : Obligations.UnusableVectorTrapsForEver := by
  have key : ∀ (k : Nat) (s : State), (s.mtvec.clearLow 3).unusable → s.pcc.unusable →
      ∃ (u t : State) (cause tval : Word),
        Host.Core.run Sys2Proof.core k s = .next u ∧ Host.Core.run Sys2Proof.core (k + 1) s = .next t ∧
        u.afterPoll.Trapped t cause tval ∧ t.pcc = s.mtvec.clearLow 3 ∧ t.mtvec = s.mtvec ∧
        (∀ i, t.readReg i = s.readReg i) ∧
        (0 < k ∨ s.inHandlerOf (s.mtvec.clearLow 3) →
          u.inHandlerOf (s.mtvec.clearLow 3) ∧ cause = Config.causeCheri.setWidth 32) := by
    intro k
    induction k with
    | zero =>
      intro s _ hpcc
      obtain ⟨cause, tval, hstep, hcause⟩ := step_of_unusable hpcc
      refine ⟨s, _, cause, tval, rfl, (run_succ_of_step Sys2Proof.core hstep 0).trans rfl, State.trapped_trapEntry .., ?_, ?_, ?_, ?_⟩
      · rw [State.trapEntry_pcc, State.afterPoll_mtvec]
      · rw [State.trapEntry_mtvec, State.afterPoll_mtvec]
      · exact fun i => s.readReg_afterPoll i
      · rintro (hk | hin)
        · omega
        · exact ⟨hin, hcause hin.2⟩
    | succ k ih =>
      intro s hvec hpcc
      obtain ⟨cause, tval, hstep, -⟩ := step_of_unusable hpcc
      have hmtvec : (s.afterPoll.trapEntry cause tval).mtvec = s.mtvec := s.afterPoll_mtvec
      have hin : (s.afterPoll.trapEntry cause tval).pcc = s.mtvec.clearLow 3 := by
        rw [State.trapEntry_pcc, State.afterPoll_mtvec]
      obtain ⟨u, t, cause', tval', hu, ht, htrap, htpcc, htvec, hregs, hhandler⟩ :=
        ih (s.afterPoll.trapEntry cause tval) (by rwa [hmtvec]) (by rwa [hin])
      rw [hmtvec] at htpcc htvec hhandler
      exact ⟨u, t, cause', tval', (run_succ_of_step Sys2Proof.core hstep k).trans hu, (run_succ_of_step Sys2Proof.core hstep (k + 1)).trans ht, htrap,
        htpcc, htvec, fun i => (hregs i).trans (s.readReg_afterPoll i), fun _ => hhandler (.inr ⟨hin, rfl⟩)⟩
  intro k s hvec hpcc
  obtain ⟨u, t, cause, tval, hu, ht, htrap, htpcc, htvec, hregs, hhandler⟩ := key k s hvec hpcc
  refine ⟨u, t, cause, tval, hu, ht, htrap, htpcc, htvec, hregs, fun hk => ?_⟩
  obtain ⟨⟨hupcc, humie⟩, hcause⟩ := hhandler (.inl hk)
  exact ⟨hupcc, humie, hcause⟩

end Sys2Proof.Machine
end

section
/-! SUPPORT. Permission sets: encoding one never adds a permission (R82), what no P value grants together (R79), and the
three roots (R80); then the two instructions on permissions. -/

namespace Sys2Proof.Machine

/-! ### Encoding and decoding P -/

/-- A P field encodes only permissions of the set it was made from (R82 (b)). -/
theorem has_of_has_decodeP_encodeP {x : PermSet} {n : Perm} (h : (decodeP (encodeP x)).has n = true) :
    x.has n = true := by
  rw [encodeP_eq_pField] at h
  split at h
  · next exe =>
    obtain ⟨hx, hr, hc⟩ := exe
    obtain rfl | rfl | rfl | ⟨rfl, hb⟩ | ⟨rfl, hb⟩ | ⟨rfl, hb⟩ := (has_decodeP_executable ..).mp h
    exacts [hr, hc, hx, hb, hb, hb]
  split at h
  · next rwc =>
    obtain ⟨hr, hw, hc⟩ := rwc
    obtain rfl | rfl | rfl | ⟨rfl, hb⟩ | ⟨rfl, hb⟩ | ⟨rfl, hb⟩ := (has_decodeP_capRw ..).mp h
    exacts [hr, hw, hc, hb, hb, hb]
  split at h
  · next rc =>
    obtain ⟨hr, hc⟩ := rc
    obtain rfl | rfl | ⟨rfl, hb⟩ | ⟨rfl, hb⟩ := (has_decodeP_capRo ..).mp h
    exacts [hr, hc, hb, hb]
  split at h
  · next wc =>
    obtain ⟨hw, hc⟩ := wc
    obtain rfl | rfl := (has_decodeP_capWo n).mp h
    exacts [hw, hc]
  split at h
  · next data =>
    have hlow : ¬(x.r = false ∧ x.w = false) := by simpa [or_iff_not_imp_left] using data
    obtain ⟨rfl, hb⟩ | ⟨rfl, hb⟩ := (has_decodeP_dataRw n hlow).mp h
    exacts [hb, hb]
  · obtain ⟨rfl, hb⟩ | ⟨rfl, hb⟩ | ⟨rfl, hb⟩ := (has_decodeP_sealing ..).mp h
    exacts [hb, hb, hb]

/-- A set that has an encoding keeps it (R82 (a)). -/
theorem encodeP_decodeP (p : BitVec 5) : encodeP (decodeP p) = p := by
  revert p; decide

/-- Settles O10: the clause on adding is read off the six steps; different P values decode differently because encoding
undoes decoding. -/
theorem encodingPermissionsNeverAdds : Obligations.EncodingPermissionsNeverAdds :=
  ⟨fun _ _ => has_of_has_decodeP_encodeP, encodeP_decodeP, fun p q h =>
    calc p = encodeP (decodeP p) := (encodeP_decodeP p).symm
      _ = encodeP (decodeP q) := congrArg encodeP (PermSet.ext_has h)
      _ = q := encodeP_decodeP q⟩

/-! ### What each format excludes -/

/-- Every P value is of one of the six formats (R70 to R76). -/
theorem format_cases (p : BitVec 5) :
    (∃ b2 b1 b0, p = pField 0#2 b2 b1 b0) ∨ (∃ b2 b1 b0, p = pField 1#2 b2 b1 b0) ∨
    p = pField 2#2 false false false ∨ (∃ b1 b0, ¬(b1 = false ∧ b0 = false) ∧ p = pField 2#2 false b1 b0) ∨
    (∃ b1 b0, p = pField 2#2 true b1 b0) ∨ ∃ b2 b1 b0, p = pField 3#2 b2 b1 b0 := by
  obtain ⟨q, b2, b1, b0, rfl⟩ := exists_pField p
  obtain rfl | rfl | rfl | rfl := quadrant_cases q
  · exact .inl ⟨b2, b1, b0, rfl⟩
  · exact .inr (.inl ⟨b2, b1, b0, rfl⟩)
  · cases b2 with
    | true => exact .inr (.inr (.inr (.inr (.inl ⟨b1, b0, rfl⟩))))
    | false =>
      by_cases hlow : b1 = false ∧ b0 = false
      · obtain ⟨rfl, rfl⟩ := hlow
        exact .inr (.inr (.inl rfl))
      · exact .inr (.inr (.inr (.inl ⟨b1, b0, hlow, rfl⟩)))
  · exact .inr (.inr (.inr (.inr (.inr ⟨b2, b1, b0, rfl⟩))))

/-- Settles O11: in each of the six formats the permissions granted are those of its row, and each clause is read off
the row. -/
theorem permissionsThatExclude : Obligations.PermissionsThatExclude := by
  intro p
  simp only [← Bool.not_eq_true]
  obtain ⟨b2, b1, b0, rfl⟩ | ⟨b2, b1, b0, rfl⟩ | rfl | ⟨b1, b0, hlow, rfl⟩ | ⟨b1, b0, rfl⟩ | ⟨b2, b1, b0, rfl⟩ :=
    format_cases p
  · simp only [has_decodeP_sealing]
    refine ⟨⟨.R, by simp⟩, ?_, by simp, by simp, by simp, by simp, by simp⟩
    rintro n m - ⟨h1, h2, h3⟩ -
    simp [h1, h2, h3]
  · simp only [has_decodeP_executable]
    refine ⟨⟨.SDP0, by simp⟩, ?_, by simp, by simp, by simp, by simp, by simp⟩
    rintro n m (rfl | rfl | rfl) - h <;> simp at h
  · simp only [has_decodeP_capWo]
    refine ⟨⟨.SDP0, by simp⟩, ?_, by simp, by simp, by simp, by simp, by simp⟩
    rintro n m (rfl | rfl | rfl) - h <;> simp at h
  · simp only [fun n => has_decodeP_dataRw n hlow]
    refine ⟨⟨.SDP0, by simp⟩, ?_, by simp, by simp, by simp, by simp, by simp⟩
    rintro n m (rfl | rfl | rfl) - h <;> simp at h
  · simp only [has_decodeP_capRo]
    refine ⟨⟨.SDP0, by simp⟩, ?_, by simp, by simp, by simp, by simp, by simp⟩
    rintro n m (rfl | rfl | rfl) - h <;> simp at h
  · simp only [has_decodeP_capRw]
    refine ⟨⟨.SDP0, by simp⟩, ?_, by simp, by simp, by simp, by simp, by simp⟩
    rintro n m (rfl | rfl | rfl) - h <;> simp at h

/-! ### The permissions of a capability -/

@[simp] theorem decodeP_gl (p : BitVec 5) : (decodeP p).gl = false := by
  revert p; decide

/-- GL is the G bit, and every other permission is of P (R78). -/
theorem Cap.has_perms (c : Cap) (n : Perm) :
    c.perms.has n = if n = .GL then c.g else (decodeP c.p).has n := by
  cases n <;> rfl

/-- A capability lies inside a root when its P does: the roots hold GL. -/
theorem perms_subset_root {c : Cap} {p : BitVec 5}
    (h : ∀ n, (decodeP c.p).has n = true → (decodeP p).has n = true) : c.perms.subset (Cap.root p).perms = true := by
  refine PermSet.subset_iff.mpr fun n hn => ?_
  rw [Cap.has_perms] at hn ⊢
  split
  · rfl
  · next hgl => exact h n (by rwa [if_neg hgl] at hn)

/-- Settles O12: the Sealing format is inside the Sealing root, the Executable one inside the Executable root, and the
four others inside the RW root. -/
theorem rootsHoldEveryPermissionSet : Obligations.RootsHoldEveryPermissionSet := by
  intro c
  have hseal : ∀ n, (decodeP 0b00111).has n = true ↔ _ := has_decodeP_sealing true true true
  have hexec : ∀ n, (decodeP 0b01111).has n = true ↔ _ := has_decodeP_executable true true true
  have hrw : ∀ n, (decodeP 0b11111).has n = true ↔ _ := has_decodeP_capRw true true true
  obtain ⟨b2, b1, b0, hp⟩ | ⟨b2, b1, b0, hp⟩ | hp | ⟨b1, b0, hlow, hp⟩ | ⟨b1, b0, hp⟩ | ⟨b2, b1, b0, hp⟩ :=
    format_cases c.p
  · refine .inl (perms_subset_root fun n => ?_)
    rw [hp, has_decodeP_sealing, hseal]
    tauto
  · refine .inr (.inl (perms_subset_root fun n => ?_))
    rw [hp, has_decodeP_executable, hexec]
    tauto
  all_goals refine .inr (.inr (perms_subset_root fun n => ?_))
  · rw [hp, has_decodeP_capWo, hrw]
    tauto
  · rw [hp, has_decodeP_dataRw n hlow, hrw]
    tauto
  · rw [hp, has_decodeP_capRo, hrw]
    tauto
  · rw [hp, has_decodeP_capRw, hrw]
    tauto

end Sys2Proof.Machine
end

section
/-! SUPPORT. What each instruction writes and what it leaves: the frame said once for a register write with a new `pcc`
and MIE, the address arithmetic of the immediates (R56 to R58), and the results field by field. -/

namespace Sys2Proof.Machine

/-! ### The frame -/

/-- A register write with a new `pcc` and MIE changes nothing else (R22). -/
theorem State.wroteOnly_jump (s : State) (rd : RegIdx) (c pcc : Cap) (mie : Bool) :
    s.WroteOnly { s.writeReg rd c with pcc := pcc, mie := mie } rd c where
  result := s.readReg_writeReg_same rd c
  others _ hj := s.readReg_writeReg_of_ne hj c
  sys := ⟨s.writeReg_mpie rd c, s.writeReg_mtvec rd c, s.writeReg_mscratch rd c, s.writeReg_mtidc rd c,
    s.writeReg_mepc rd c, s.writeReg_mcause rd c, s.writeReg_mtval rd c, s.writeReg_stored rd c, s.writeReg_irq rd c,
    s.writeReg_draws rd c, s.writeReg_plat rd c⟩
  memory := .of_fields (s.writeReg_mem rd c) (s.writeReg_tags rd c) (s.writeReg_plat rd c)

theorem State.wroteOnly_advancePc (s : State) (rd : RegIdx) (c : Cap) :
    s.WroteOnly (s.writeReg rd c).advancePc rd c :=
  s.wroteOnly_jump rd c _ (s.writeReg rd c).mie

theorem State.pcc_writeReg_advancePc (s : State) (rd : RegIdx) (c : Cap) :
    (s.writeReg rd c).advancePc.pcc = { s.pcc with addr := s.pc + 4 } := by
  simp [State.nextPc, State.pc]

/-! ### Address arithmetic -/

/-- An address plus a sign-extended offset, modulo 2^32 (R47, R56 to R58). -/
theorem toNat_add_signExtend (a : Word) {n : Nat} (imm : BitVec n) :
    ((a + imm.signExtend 32).toNat : Int) = ((a.toNat : Int) + imm.toInt) % 2 ^ 32 := by
  have himm : ((imm.signExtend 32).toNat : Int) = imm.toInt % 2 ^ 32 := by
    rw [BitVec.signExtend, BitVec.toNat_ofInt]
    exact Int.toNat_of_nonneg (Int.emod_nonneg _ (by decide))
  rw [BitVec.toNat_add]
  push_cast
  rw [himm]
  omega

/-- `imm20` with eleven 0 bits below it is `imm20 * 2048` (R56). -/
theorem toInt_append_auipcShift (imm : BitVec 20) :
    (imm ++ (0 : BitVec auipcShift)).toInt = imm.toInt * 2048 := by
  have hlt := imm.isLt
  have hnat : (imm ++ (0 : BitVec auipcShift)).toNat = imm.toNat * 2048 := by
    have hshift : imm.toNat <<< 11 ||| 0 = imm.toNat * 2048 := by rw [Nat.or_zero, Nat.shiftLeft_eq]
    exact BitVec.toNat_append imm (0 : BitVec auipcShift) ▸ hshift
  rw [BitVec.toInt_eq_toNat_cond, BitVec.toInt_eq_toNat_cond, hnat]
  by_cases hsign : 2 * imm.toNat < 2 ^ 20
  · rw [if_pos hsign, if_pos (by rw [auipcShift]; omega)]
    omega
  · rw [if_neg hsign, if_neg (by rw [auipcShift]; omega), auipcShift]
    omega

theorem auipcAddr_toNat (a : Word) (imm : BitVec 20) :
    ((a + auipcOffset imm).toNat : Int) = ((a.toNat : Int) + imm.toInt * 2048) % 2 ^ 32 := by
  rw [auipcOffset, toNat_add_signExtend, toInt_append_auipcShift]

/-- Clearing bit 0 rounds down to an even number (R94). -/
theorem toNat_and_not_one (w : Word) : (w &&& ~~~(1 : Word)).toNat = w.toNat / 2 * 2 := by
  have hshift : w &&& ~~~(1 : Word) = (w >>> 1) <<< 1 := by
    refine BitVec.eq_of_getLsbD_eq fun i hi => ?_
    interval_cases i <;> simp
  have hlt := w.isLt
  rw [hshift, BitVec.toNat_shiftLeft, BitVec.toNat_ushiftRight, Nat.shiftLeft_eq, Nat.shiftRight_eq_div_pow]
  omega

theorem jalTarget_toNat (s : State) (imm : BitVec 21) :
    ((jalTarget s imm).toNat : Int) = ((s.pc.toNat : Int) + imm.toInt) % 2 ^ 32 :=
  toNat_add_signExtend s.pc imm

theorem jalrTarget_toNat (t : Cap) (imm : BitVec 12) :
    ((jalrTarget t imm).toNat : Int) = ((t.addr.toNat : Int) + imm.toInt) / 2 * 2 % 2 ^ 32 := by
  have h := toNat_add_signExtend t.addr imm
  rw [jalrTarget, toNat_and_not_one, iOffset]
  omega

theorem jalTarget_aligned_iff (s : State) (imm : BitVec 21) :
    jalTarget s imm &&& 3 = 0 ↔ ((s.pc.toNat : Int) + imm.toInt) % 4 = 0 := by
  have h := jalTarget_toNat s imm
  rw [and_three_eq_zero_iff]
  omega

theorem jalrTarget_aligned_iff (t : Cap) (imm : BitVec 12) :
    jalrTarget t imm &&& 3 = 0 ↔ ((t.addr.toNat : Int) + imm.toInt) / 2 % 2 = 0 := by
  have h := jalrTarget_toNat t imm
  rw [and_three_eq_zero_iff]
  omega

/-! ### A capability at another address -/

/-- `SetAddr` keeps the tag exactly inside the representable region (R106). -/
theorem Cap.setAddr_tag_iff (c : Cap) (a : Word) :
    (c.setAddr a).tag = true ↔ c.tag = true ∧ c.base ≤ a.toNat ∧ a.toNat < c.base + 2 ^ (c.exp + 9) := by
  rw [Cap.setAddr_tag, Bool.and_eq_true, Cap.representable_iff]

/-- Settles O19: the result is `SetAddr` of `pcc` at the sum. -/
theorem auipcResultAndFrame : Obligations.AuipcResultAndFrame := fun s rd imm =>
  ⟨_, auipcResult s imm, exec_auipc rd imm s, s.wroteOnly_advancePc rd _, s.writeReg_mie rd _,
    s.pcc_writeReg_advancePc rd _, auipcAddr_toNat s.pc imm, s.pcc.setAddr_tag_iff _, rfl⟩

/-- The rule of `ADDIY` and `CLRPERM` for sealed sources: a result that was no more tagged than its source keeps its
tag when the source is unsealed or nothing changed (R83, R110). -/
theorem Cap.sealedSourceRule_eq {c r : Cap} {same : Prop} [Decidable same] (htag : r.tag = true → c.tag = true) :
    (if c.tag && !c.unsealed && decide (¬same) then { r with tag := false } else r) =
      { r with tag := r.tag && (c.unsealed || decide same) } := by
  cases hr : r.tag
  · rw [Bool.false_and, ← hr]
    split
    · rfl
    · rfl
  · rw [htag hr, Bool.true_and, Bool.true_and, decide_not, ← Bool.not_or]
    cases c.unsealed || decide same
    · rfl
    · exact congrArg (fun tag => { r with tag := tag }) hr

/-- Only a tagged sealed source that moves loses more than `SetAddr` takes (R110). -/
theorem addiyResult_eq (c : Cap) (imm : BitVec 12) :
    addiyResult c imm = { c.setAddr (c.addr + iOffset imm) with
      tag := (c.setAddr (c.addr + iOffset imm)).tag && (c.unsealed || decide (c.addr + iOffset imm = c.addr)) } :=
  Cap.sealedSourceRule_eq fun h => ((c.setAddr_tag_iff _).mp h).1

/-- Settles O20: the result is `SetAddr` of the source at the sum, but for the sealed-source rule. -/
theorem addiyResultAndFrame : Obligations.AddiyResultAndFrame := by
  intro s rd rs1 imm
  refine ⟨_, addiyResult (s.readReg rs1) imm, exec_addiy rd rs1 imm s, s.wroteOnly_advancePc rd _, s.writeReg_mie rd _,
    s.pcc_writeReg_advancePc rd _, ?_⟩
  rw [addiyResult_eq]
  refine ⟨toNat_add_signExtend _ imm, ?_, rfl⟩
  simp only [Bool.and_eq_true, Bool.or_eq_true, decide_eq_true_eq, Cap.setAddr_tag_iff, Cap.unsealed_iff,
    Cap.setAddr_addr, and_assoc]

theorem requestInBounds_iff (c : Cap) (len : Word) :
    requestInBounds c len = true ↔ c.base ≤ c.addr.toNat ∧ c.addr.toNat + len.toNat ≤ c.top := by
  simp [requestInBounds]

theorem scbndsResult_tag_iff (c : Cap) (len : Word) :
    (scbndsResult c len).tag = true ↔ c.tag = true ∧ c.sealType = 0 ∧
      c.base ≤ c.addr.toNat ∧ c.addr.toNat + len.toNat ≤ c.top := by
  simp only [scbndsResult, Bool.and_eq_true, requestInBounds_iff, Cap.unsealed_iff, and_assoc]

/-- Settles O21: the fields are those of the encoder and the tag is the three conditions of R109. -/
theorem scbndsResultAndFrame : Obligations.ScbndsResultAndFrame := fun s rd rs1 rs2 =>
  ⟨_, scbndsResult (s.readReg rs1) (s.readInt rs2), exec_scbnds rd rs1 rs2 s, s.wroteOnly_advancePc rd _,
    s.writeReg_mie rd _, s.pcc_writeReg_advancePc rd _, rfl, scbndsResult_tag_iff _ _, rfl⟩

/-! ### The instructions on permissions -/

/-- Permissions cleared are gone, and none is gained (R82, R83). -/
theorem Cap.has_perms_clearPerms {c : Cap} {k : PermSet} {n : Perm} (h : (c.clearPerms k).perms.has n = true) :
    c.perms.has n = true ∧ k.has n = false := by
  rw [Cap.has_perms] at h ⊢
  by_cases hgl : n = .GL
  · subst hgl
    have hk : k.has .GL = k.gl := rfl
    cases hg : k.gl <;> simp_all [Cap.clearPerms]
  · rw [if_neg hgl] at h ⊢
    have hdiff := has_of_has_decodeP_encodeP h
    simpa using hdiff

/-- Only a tagged sealed source that changes loses its tag (R83). -/
theorem clrpermResult_eq (c : Cap) (k : PermSet) :
    clrpermResult c k =
      { c.clearPerms k with tag := c.tag && (c.unsealed || decide (c.clearPerms k = c)) } :=
  Cap.sealedSourceRule_eq (r := c.clearPerms k) id

theorem Cap.clearPerms_eq_self_iff (c : Cap) (k : PermSet) :
    c.clearPerms k = c ↔ (c.clearPerms k).p = c.p ∧ (c.clearPerms k).g = c.g := by
  refine ⟨fun h => by rw [h]; exact ⟨rfl, rfl⟩, fun ⟨hp, hg⟩ => ?_⟩
  calc c.clearPerms k = { c with p := (c.clearPerms k).p, g := (c.clearPerms k).g } := rfl
    _ = c := by rw [hp, hg]

/-- Settles O22: P and G are the source's without what the mask names, and the tag follows the sealed-source rule. -/
theorem clrpermResultAndFrame : Obligations.ClrpermResultAndFrame := by
  intro s rd rs1 rs2
  refine ⟨_, clrpermResult (s.readReg rs1) (permsNamed (s.readInt rs2)), exec_clrperm rd rs1 rs2 s,
    s.wroteOnly_advancePc rd _, s.writeReg_mie rd _, s.pcc_writeReg_advancePc rd _, ?_⟩
  rw [clrpermResult_eq]
  refine ⟨rfl, fun n hn => ?_, ?_, ?_, rfl⟩
  · obtain ⟨hsource, hnamed⟩ := Cap.has_perms_clearPerms hn
    exact ⟨hsource, (permsNamed_has ..).symm.trans hnamed⟩
  · have hgl : (permsNamed (s.readInt rs2)).gl = (s.readReg rs2).addr.getLsbD (permBit .GL).toNat := permsNamed_has _ .GL
    simp only [Cap.clearPerms, hgl]
    cases (s.readReg rs2).addr.getLsbD (permBit .GL).toNat <;> simp
  · simp only [Bool.and_eq_true, Bool.or_eq_true, decide_eq_true_eq, Cap.unsealed_iff, Cap.clearPerms_eq_self_iff]

theorem getLsbD_foldl_or {α : Type} (f : α → Word) (l : List α) (v : Word) (k : Nat) :
    (l.foldl (fun v n => v ||| f n) v).getLsbD k = (v.getLsbD k || l.any fun n => (f n).getLsbD k) := by
  induction l generalizing v with
  | nil => simp
  | cons a rest ih => rw [List.foldl_cons, ih, BitVec.getLsbD_or, List.any_cons, Bool.or_assoc]

theorem getLsbD_permMaskBit (s : PermSet) (n : Perm) (k : Nat) :
    (permMaskBit s n).getLsbD k = (s.has n && decide ((permBit n).toNat = k)) := by
  have hlt := (permBit n).isLt
  unfold permMaskBit
  cases s.has n with
  | false => simp
  | true =>
    simp only [if_true, BitVec.getLsbD_shiftLeft, BitVec.getLsbD_one, Bool.true_and]
    by_cases hk : (permBit n).toNat = k
    · subst hk; simpa using hlt
    · simp only [hk, decide_false]
      by_cases hlow : k < (permBit n).toNat
      · simp [hlow]
      · simp [show ¬k - (permBit n).toNat = 0 by omega]

/-- Bit k of the mask of a set is 1 exactly when k is the number of a permission of the set (R85). -/
theorem getLsbD_permMask_iff (s : PermSet) (k : Nat) :
    (permMask s).getLsbD k = true ↔ ∃ n, s.has n = true ∧ (permBit n).toNat = k := by
  rw [permMask, getLsbD_foldl_or]
  simp [getLsbD_permMaskBit, Perm.mem_all]

/-- Different permissions have different bits, so the bit of each tells of it alone (D21). -/
theorem getLsbD_permMask (s : PermSet) (n : Perm) : (permMask s).getLsbD (permBit n).toNat = s.has n := by
  rw [Bool.eq_iff_iff, getLsbD_permMask_iff]
  refine ⟨fun ⟨m, hm, hbit⟩ => ?_, fun h => ⟨n, h, rfl⟩⟩
  rwa [← permBit_injective (BitVec.eq_of_toNat_eq hbit)]

/-- Only GL is hidden by the parameter (R85). -/
theorem has_permsShown (s : PermSet) {n : Perm} (hn : n ≠ .GL) : (permsShown s).has n = s.has n := by
  match n, hn with
  | .GL, hn => exact absurd rfl hn
  | .R, _ | .W, _ | .C, _ | .SL, _ | .LM, _ | .LG, _ | .X, _ | .ASR, _ | .SDP0, _ | .SE, _ | .US, _ => rfl

/-- Settles O23: the mask has one bit for each permission shown and no other. -/
theorem gcpermResultAndFrame : Obligations.GcpermResultAndFrame := by
  intro s rd rs1
  refine ⟨_, permMask (permsShown (s.readReg rs1).perms), exec_gcperm rd rs1 s, s.wroteOnly_advancePc rd _,
    s.writeReg_mie rd _, s.pcc_writeReg_advancePc rd _, fun n hn => ?_, getLsbD_permMask _ .GL, fun k hk => ?_⟩
  · rw [getLsbD_permMask, has_permsShown _ hn, Cap.has_perms, if_neg hn]
  · refine Bool.eq_false_iff.mpr fun hbit => ?_
    obtain ⟨n, -, hn⟩ := (getLsbD_permMask_iff ..).mp hbit
    exact hk n hn

/-! ### The jumps -/

/-- The three low bits of the link's type, as R93 and R94 write them. -/
theorem ofNat_linkType (rd : RegIdx) (mie : Bool) :
    BitVec.ofNat 3 (linkType rd mie) = if rd = ra then (if mie then 5 else 4) else 1 := by
  unfold linkType
  split
  · cases mie <;> rfl
  · rfl

theorem State.linkCap_eq (s : State) (rd : RegIdx) :
    s.linkCap rd = { s.pcc with
      addr := s.pc + 4
      tag := (s.linkCap rd).tag
      ct := if rd = ra then (if s.mie then 5 else 4) else 1 } := by
  rw [← ofNat_linkType]
  rfl

theorem State.linkCap_tag_iff (s : State) (rd : RegIdx) :
    (s.linkCap rd).tag = true ↔ s.pcc.tag = true ∧ s.pcc.base ≤ (s.pc + 4).toNat ∧
      (s.pc + 4).toNat < s.pcc.base + 2 ^ (s.pcc.exp + 9) :=
  s.pcc.setAddr_tag_iff (s.pc + 4)

/-- Settles O24: the aligned form of JAL, with the link and `pcc` by `SetAddr`. -/
theorem jalResultAndFrame : Obligations.JalResultAndFrame := by
  intro s rd imm halign
  have hexec := exec_jal_aligned ((jalTarget_aligned_iff s imm).mpr halign) rd
  exact ⟨_, s.linkCap rd, hexec, s.wroteOnly_jump rd _ _ (s.writeReg rd (s.linkCap rd)).mie, s.writeReg_mie rd _,
    jalTarget_toNat s imm, s.pcc.setAddr_tag_iff _, rfl, s.linkCap_tag_iff rd, s.linkCap_eq rd⟩

/-- Settles O25: the misaligned form of JAL is a trap entry with the target as its value. -/
theorem jalMisalignedTargetTraps : Obligations.JalMisalignedTargetTraps := by
  intro s rd imm halign
  have hexec := exec_jal_misaligned (mt (jalTarget_aligned_iff s imm).mp halign) rd
  exact ⟨_, _, hexec, s.trapped_takeException _, jalTarget_toNat s imm⟩

/-- Settles O27: the misaligned form of JALR is a trap entry with the target as its value. -/
theorem jalrMisalignedTargetTraps : Obligations.JalrMisalignedTargetTraps := by
  intro s rd rs1 imm halign
  have hexec := exec_jalr_misaligned (mt (jalrTarget_aligned_iff _ imm).mp halign) rd
  exact ⟨_, _, hexec, s.trapped_takeException _, jalrTarget_toNat _ imm⟩

/-- The acceptance table row by row (R91). -/
theorem accepted_iff (rs1 rd : RegIdx) (ty : Nat) :
    accepted rs1 rd ty = true ↔
      (rd = ra ∧ ty ≤ 3) ∨ (rd = zr ∧ rs1 = ra ∧ (ty = 4 ∨ ty = 5)) ∨
      (rd ≠ ra ∧ ¬(rd = zr ∧ rs1 = ra) ∧ ty ≤ 1) := by
  have hne : zr ≠ ra := by decide
  unfold accepted
  split
  · next hra => subst hra; simp [hne.symm]
  · next hra =>
    split
    · next hret => simp [hret, hne]
    · next hret =>
      simp only [hra, hret, decide_eq_true_eq, false_and, false_or, not_false_eq_true, ne_eq, true_and,
        ← and_assoc]

theorem jalrOk_iff (rd rs1 : RegIdx) (t : Cap) (imm : BitVec 12) :
    jalrOk rd rs1 t imm = true ↔
      t.tag = true ∧ accepted rs1 rd t.sealType = true ∧ (t.sealType = 0 ∨ imm = 0) := by
  simp only [jalrOk, Bool.and_eq_true, Bool.or_eq_true, decide_eq_true_eq, Cap.unsealed_iff, and_assoc]

/-- The installed `pcc`: the target unsealed, at the target address, with no tag when refused (R94). -/
theorem jalrPcc_eq (rd rs1 : RegIdx) (t : Cap) (imm : BitVec 12) :
    jalrPcc rd rs1 t imm = { (t.withType 0).setAddr (jalrTarget t imm) with
      tag := jalrOk rd rs1 t imm && ((t.withType 0).setAddr (jalrTarget t imm)).tag } := by
  unfold jalrPcc
  cases jalrOk rd rs1 t imm <;> rfl

theorem jalrPcc_addr (rd rs1 : RegIdx) (t : Cap) (imm : BitVec 12) :
    (jalrPcc rd rs1 t imm).addr = jalrTarget t imm := by
  rw [jalrPcc_eq]
  rfl

theorem jalrPcc_tag_iff (rd rs1 : RegIdx) (t : Cap) (imm : BitVec 12) :
    (jalrPcc rd rs1 t imm).tag = true ↔ jalrOk rd rs1 t imm = true ∧
      t.base ≤ (jalrPcc rd rs1 t imm).addr.toNat ∧ (jalrPcc rd rs1 t imm).addr.toNat < t.base + 2 ^ (t.exp + 9) := by
  rw [jalrPcc_addr]
  have htag : jalrOk rd rs1 t imm = true → t.tag = true := fun h => ((jalrOk_iff ..).mp h).1
  rw [jalrPcc_eq]
  simp only [Bool.and_eq_true, Cap.setAddr_tag, Cap.withType_tag, Cap.withType_representable, Cap.representable_iff]
  tauto

theorem jalrMie_of_ok {rd rs1 : RegIdx} {t : Cap} {imm : BitVec 12} (h : jalrOk rd rs1 t imm = true) (mie : Bool) :
    jalrMie rd rs1 t imm mie = newMie t.sealType mie := if_pos h

theorem jalrMie_of_not_ok {rd rs1 : RegIdx} {t : Cap} {imm : BitVec 12} (h : ¬jalrOk rd rs1 t imm = true) (mie : Bool) :
    jalrMie rd rs1 t imm mie = mie := if_neg h

theorem newMie_of_disabling {ty : Nat} (h : ty = 2 ∨ ty = 4) (mie : Bool) : newMie ty mie = false := if_pos h

theorem newMie_of_enabling {ty : Nat} (h : ty = 3 ∨ ty = 5) (mie : Bool) : newMie ty mie = true := by
  rw [newMie, if_neg (by omega), if_pos h]

theorem newMie_of_inheriting {ty : Nat} (h : ty ≤ 1) (mie : Bool) : newMie ty mie = mie := by
  rw [newMie, if_neg (by omega), if_neg (by omega)]

/-- Settles O26: the aligned form of JALR, with the acceptance table deciding the tag of `pcc` and MIE. -/
theorem jalrResultAndFrame : Obligations.JalrResultAndFrame := by
  intro s rd rs1 imm halign
  have hexec := exec_jalr_aligned ((jalrTarget_aligned_iff _ imm).mpr halign) rd
  refine ⟨_, s.linkCap rd, hexec, s.wroteOnly_jump .., ?_, s.linkCap_tag_iff rd, s.linkCap_eq rd⟩
  intro g ok
  have hok : jalrOk rd rs1 g imm = true ↔ ok := by rw [jalrOk_iff, accepted_iff]
  refine ⟨?_, ?_, ?_, fun h hty => ?_, fun h hty => ?_, fun h => ?_⟩
  · exact (congrArg (fun a : Word => (a.toNat : Int)) (jalrPcc_addr rd rs1 g imm)).trans (jalrTarget_toNat g imm)
  · exact (jalrPcc_tag_iff ..).trans (and_congr_left' hok)
  · rw [jalrPcc_eq]; rfl
  · exact (jalrMie_of_ok (hok.mpr h) s.mie).trans (newMie_of_disabling hty s.mie)
  · exact (jalrMie_of_ok (hok.mpr h) s.mie).trans (newMie_of_enabling hty s.mie)
  · by_cases hyes : ok
    · have hty : g.sealType ≤ 1 := h.resolve_left (not_not_intro hyes)
      exact (jalrMie_of_ok (hok.mpr hyes) s.mie).trans (newMie_of_inheriting hty s.mie)
    · exact jalrMie_of_not_ok (mt hok.mp hyes) s.mie

/-- The type of the link, where `pcc` grants X (R86, R89). -/
theorem State.linkCap_sealType {s : State} (rd : RegIdx) (hx : (decodeP s.pcc.p).has .X = true) :
    (s.linkCap rd).sealType = if rd ≠ ra then 1 else if s.mie then 5 else 4 := by
  have hct : (s.linkCap rd).ct = BitVec.ofNat 3 (linkType rd s.mie) := rfl
  have hval : ∀ mie : Bool, BitVec.ofNat 3 (linkType rd mie) ≠ 0 ∧
      (BitVec.ofNat 3 (linkType rd mie)).toNat = if rd ≠ ra then 1 else if mie then 5 else 4 := by
    intro mie
    by_cases hrd : rd = ra <;> cases mie <;> simp [linkType, hrd]
  rw [Cap.sealType_of_has_X (c := s.linkCap rd) (by rw [hct]; exact (hval s.mie).1) hx, hct]
  exact (hval s.mie).2

/-- Settles O29: whichever jump it is, the link is what `x[rd]` now reads as. -/
theorem linkSealedByInterruptStance : Obligations.LinkSealedByInterruptStance := by
  intro s t rd i hx hjump hexec
  have hlink : t.readReg rd = if rd = zr then Cap.null else s.linkCap rd := by
    obtain ⟨imm, rfl, halign⟩ | ⟨rs1, imm, rfl, halign⟩ := hjump
    · rw [exec_jal_aligned halign] at hexec
      cases hexec
      exact s.readReg_writeReg_same rd _
    · rw [exec_jalr_aligned halign] at hexec
      cases hexec
      exact s.readReg_writeReg_same rd _
  refine ⟨fun hrd => ?_, fun hrd => by rw [hlink, if_pos hrd]⟩
  rw [hlink, if_neg hrd]
  exact State.linkCap_sealType rd hx

/-- Settles O30: a refused target is installed without a tag, and the next fetch check stops at the tag. -/
theorem unacceptedTargetLeadsToTrap : Obligations.UnacceptedTargetLeadsToTrap := by
  intro enc s rd rs1 imm halign hty
  have hrefused : jalrOk rd rs1 (s.readReg rs1) imm = false := by
    refine Bool.eq_false_iff.mpr fun hok => ?_
    obtain ⟨-, haccepted, -⟩ := (jalrOk_iff ..).mp hok
    have hne : zr ≠ ra := by decide
    rw [accepted_iff] at haccepted
    obtain ⟨rfl, hbig⟩ | ⟨rfl, rfl, h4, h5⟩ | ⟨hra, hret, hbig⟩ := hty
    · obtain ⟨-, hsmall⟩ | ⟨hzr, -⟩ | ⟨hra, -⟩ := haccepted
      · omega
      · exact hne hzr.symm
      · exact hra rfl
    · simp [hne, h4, h5] at haccepted
    · obtain ⟨h, -⟩ | ⟨hzr, hrs1, -⟩ | ⟨-, -, hsmall⟩ := haccepted
      · exact hra h
      · exact hret ⟨hzr, hrs1⟩
      · omega
  have htag : (jalrPcc rd rs1 (s.readReg rs1) imm).tag = false := by rw [jalrPcc_eq, hrefused, Bool.false_and]
  refine ⟨_, exec_jalr_aligned halign rd, htag, jalrPcc_addr .., fun hp => ?_⟩
  exact stepWith_of_fetchCheck hp (State.fetchCheck_of_useCheck (Cap.useCheck_of_untagged htag))

end Sys2Proof.Machine
end

section
/-! SUPPORT. The bounds by their mantissas: base and top as whole multiples of 2^e (R98 to R101), which mantissa belongs
to an address, and so what an address inside the representable region keeps (R104, R105). -/

namespace Sys2Proof.Machine

/-! ### The corrected mantissas -/

/-- The whole number of 2^e steps at which the base stands before it is cut to 32 bits (R99, R100). -/
def Cap.baseMant (c : Cap) : Int := ((c.aTop : Int) + c.corrBase) * 512 + c.b.toNat

/-- The whole number of 2^e steps at which the top stands before it is cut to 33 bits (R99, R101). -/
def Cap.topMant (c : Cap) : Int := ((c.aTop : Int) + c.corrTop) * 512 + c.t.toNat

/-- The number of 2^e steps from base to top: `(T - B) mod 512` (R102). -/
def Cap.lengthMant (c : Cap) : Nat := (((c.t.toNat : Int) - c.b.toNat) % 512).toNat

/-- The address in 2^e steps. -/
def Cap.addrMant (c : Cap) : Nat := c.addr.toNat / 2 ^ c.exp

theorem two_pow_add_nine (e : Nat) : 2 ^ (e + 9) = 2 ^ e * 512 := pow_add 2 e 9

section Mantissas
variable (c : Cap)

theorem Cap.base_eq_baseMant : c.base = (c.baseMant * (2 ^ c.exp : Nat) % 4294967296).toNat := rfl

theorem Cap.top_eq_topMant : c.top = (c.topMant * (2 ^ c.exp : Nat) % 8589934592).toNat := rfl

theorem Cap.aMid_eq : c.aMid = c.addrMant % 512 := by
  rw [Cap.aMid, Cap.addrMant, Nat.shiftRight_eq_div_pow]

theorem Cap.aTop_eq : c.aTop = c.addrMant / 512 := by
  rw [Cap.aTop, Cap.addrMant, Nat.shiftRight_eq_div_pow, two_pow_add_nine, Nat.div_div_eq_div_mul]

theorem Cap.lengthMant_lt : c.lengthMant < 512 := by
  unfold Cap.lengthMant
  omega

/-- The base's mantissa ends in B and lies less than 512 steps below the address (R98, R99). -/
theorem Cap.baseMant_spec :
    c.baseMant % 512 = c.b.toNat ∧ c.baseMant ≤ c.addrMant ∧ (c.addrMant : Int) < c.baseMant + 512 := by
  have hb := c.b.isLt
  rw [Cap.baseMant, Cap.corrBase, Cap.aHi, Cap.aTop_eq, Cap.aMid_eq]
  split <;> omega

/-- That determines it. -/
theorem Cap.baseMant_eq_of {m : Int} (hb : m % 512 = c.b.toNat) (hle : m ≤ c.addrMant)
    (hlt : (c.addrMant : Int) < m + 512) : c.baseMant = m := by
  obtain ⟨hb', hle', hlt'⟩ := c.baseMant_spec
  omega

/-- The top's mantissa stands `(T - B) mod 512` steps above the base's (R99, R102). -/
theorem Cap.topMant_eq : c.topMant = c.baseMant + c.lengthMant := by
  have hb := c.b.isLt
  have ht := c.t.isLt
  rw [Cap.topMant, Cap.baseMant, Cap.lengthMant, Cap.corrTop, Cap.corrBase, Cap.tHi]
  split <;> omega

theorem Cap.addr_lt : c.addr.toNat < 2 ^ 32 := c.addr.isLt

end Mantissas

/-- Cutting a multiple of 2^e to `n` bits cuts its mantissa to `n - e` bits. -/
theorem mul_two_pow_emod (m : Int) {e n : Nat} (h : e ≤ n) :
    m * (2 ^ e : Nat) % (2 ^ n : Nat) = m % (2 ^ (n - e) : Nat) * (2 ^ e : Nat) := by
  have hpow : (2 ^ n : Nat) = 2 ^ e * 2 ^ (n - e) := by rw [← pow_add, Nat.add_sub_cancel' h]
  have hpos : (0 : Int) < (2 ^ e : Nat) := by exact_mod_cast Nat.two_pow_pos e
  rw [hpow, Int.natCast_mul, mul_comm m, Int.mul_emod_mul_of_pos _ _ hpos, mul_comm]

/-! ### Exponents up to 14 -/

section SmallExponent
variable {c : Cap}

/-- The base is a multiple of 2^e, by its mantissa cut to 32 - e bits (R100). -/
theorem Cap.base_eq_mul (h : c.exp ≤ 14) :
    (c.base : Int) = c.baseMant % (2 ^ (32 - c.exp) : Nat) * (2 ^ c.exp : Nat) := by
  rw [Cap.base_eq_baseMant, Int.toNat_of_nonneg (Int.emod_nonneg _ (by decide))]
  exact mul_two_pow_emod c.baseMant (n := 32) (by omega)

/-- The top is a multiple of 2^e, by its mantissa cut to 33 - e bits (R101). -/
theorem Cap.top_eq_mul (h : c.exp ≤ 14) :
    (c.top : Int) = c.topMant % (2 ^ (33 - c.exp) : Nat) * (2 ^ c.exp : Nat) := by
  rw [Cap.top_eq_topMant, Int.toNat_of_nonneg (Int.emod_nonneg _ (by decide))]
  exact mul_two_pow_emod c.topMant (n := 33) (by omega)

/-- An exponent up to 14 leaves at least 18 bits above it. -/
theorem two_pow_split {e : Nat} (h : e ≤ 14) :
    2 ^ e * 2 ^ (32 - e) = 2 ^ 32 ∧ 2 ^ 18 ≤ 2 ^ (32 - e) ∧ 0 < 2 ^ e ∧ 2 ^ (33 - e) = 2 * 2 ^ (32 - e) := by
  refine ⟨by rw [← pow_add, show e + (32 - e) = 32 by omega], Nat.pow_le_pow_right (by decide) (by omega),
    Nat.two_pow_pos e, ?_⟩
  rw [← Nat.pow_succ', show (32 - e).succ = 33 - e by omega]

theorem Cap.addrMant_lt (h : c.exp ≤ 14) : c.addrMant < 2 ^ (32 - c.exp) := by
  obtain ⟨hsplit, -, hpos, -⟩ := two_pow_split h
  have haddr := c.addr_lt
  rw [Cap.addrMant, Nat.div_lt_iff_lt_mul hpos, mul_comm, hsplit]
  exact haddr

/-- A base at or below the address is one whose mantissa did not wrap below 0 (R100). -/
theorem Cap.base_le_addr_iff (h : c.exp ≤ 14) : c.base ≤ c.addr.toNat ↔ 0 ≤ c.baseMant := by
  obtain ⟨-, hwide, hpos, -⟩ := two_pow_split h
  obtain ⟨-, hle, hlt⟩ := c.baseMant_spec
  have hq := c.addrMant_lt h
  have hbase := Cap.base_eq_mul h
  have hdown : c.addrMant * 2 ^ c.exp ≤ c.addr.toNat := Nat.div_mul_le_self _ _
  have hup : c.addr.toNat < (c.addrMant + 1) * 2 ^ c.exp := by
    rw [Nat.succ_mul]
    exact Nat.lt_div_mul_add hpos
  constructor
  · intro hba
    by_contra hneg
    have hwrap : c.baseMant % (2 ^ (32 - c.exp) : Nat) = c.baseMant + (2 ^ (32 - c.exp) : Nat) := by
      rw [← Int.add_emod_right, Int.emod_eq_of_lt] <;> omega
    have hstep : ((c.addrMant + 1) * 2 ^ c.exp : Nat) ≤ (c.base : Int) := by
      rw [hbase, hwrap, Int.natCast_mul]
      exact mul_le_mul_of_nonneg_right (by omega) (by omega)
    omega
  · intro hnonneg
    rw [Int.emod_eq_of_lt hnonneg (by omega)] at hbase
    have hstep : (c.base : Int) ≤ (c.addrMant * 2 ^ c.exp : Nat) := by
      rw [hbase, Int.natCast_mul]
      exact mul_le_mul_of_nonneg_right hle (by omega)
    omega

/-- With the base at or below the address nothing is cut off base or top (R100, R101). -/
theorem Cap.bounds_of_base_le_addr (h : c.exp ≤ 14) (hba : c.base ≤ c.addr.toNat) :
    ∃ m : Nat, c.baseMant = m ∧ c.base = m * 2 ^ c.exp ∧ c.top = (m + c.lengthMant) * 2 ^ c.exp := by
  obtain ⟨-, hwide, hpos, hdouble⟩ := two_pow_split h
  obtain ⟨-, hle, -⟩ := c.baseMant_spec
  have hq := c.addrMant_lt h
  have hlen := c.lengthMant_lt
  obtain ⟨m, hm⟩ := Int.eq_ofNat_of_zero_le ((Cap.base_le_addr_iff h).mp hba)
  have hbase := Cap.base_eq_mul h
  have htop := Cap.top_eq_mul h
  rw [hm, Int.emod_eq_of_lt (by omega) (by omega)] at hbase
  rw [Cap.topMant_eq, hm, Int.emod_eq_of_lt (by omega) (by omega)] at htop
  exact ⟨m, hm, by exact_mod_cast hbase, by exact_mod_cast htop⟩

/-- The addresses of the representable region, in steps of 2^e (R104). -/
theorem Cap.representable_iff_mant {m : Nat} (hbase : c.base = m * 2 ^ c.exp) (a : Word) :
    c.representable a = true ↔ m ≤ a.toNat / 2 ^ c.exp ∧ a.toNat / 2 ^ c.exp < m + 512 := by
  have hpos : 0 < 2 ^ c.exp := Nat.two_pow_pos _
  rw [Cap.representable_iff, hbase, Nat.le_div_iff_mul_le hpos, Nat.div_lt_iff_lt_mul hpos, Nat.add_mul,
    two_pow_add_nine, mul_comm (2 ^ c.exp)]

/-- An address with the same base mantissa decodes to the same bounds. -/
theorem Cap.bounds_congr {d : Cap} (hexp : d.exp = c.exp) (ht : d.t = c.t) (hb : d.b = c.b)
    (hmant : d.baseMant = c.baseMant) : d.base = c.base ∧ d.top = c.top := by
  have hlen : d.lengthMant = c.lengthMant := by rw [Cap.lengthMant, ht, hb, Cap.lengthMant]
  refine ⟨?_, ?_⟩
  · rw [Cap.base_eq_baseMant, Cap.base_eq_baseMant, hmant, hexp]
  · rw [Cap.top_eq_topMant, Cap.top_eq_topMant, Cap.topMant_eq, Cap.topMant_eq, hmant, hlen, hexp]

end SmallExponent

/-! ### The maximum exponent -/

theorem Cap.exp_eq_max_iff (c : Cap) : c.exp = 24 ↔ c.e = 15 := by
  have hcases : ∀ e : BitVec 4, decodeExp e = 24 ↔ e = 15 := by decide
  exact hcases c.e

/-- At the maximum exponent the bounds do not depend on the address: the corrections are cut off (R100, R101). -/
theorem Cap.bounds_of_exp_max {c : Cap} (h : c.exp = 24) :
    c.base = (c.b.toNat % 256) * 2 ^ 24 ∧ c.top = c.t.toNat * 2 ^ 24 := by
  have ht := c.t.isLt
  rw [Cap.base_eq_baseMant, Cap.top_eq_topMant, h, Cap.baseMant, Cap.topMant]
  omega

/-- Settles O14. -/
theorem boundsAtMaximumExponent : Obligations.BoundsAtMaximumExponent := fun c h =>
  Cap.bounds_of_exp_max (c.exp_eq_max_iff.mpr h)

/-! ### Field by field -/

/-- A number of 512-steps cut to 512 * k keeps the place inside the step and cuts the steps to k. -/
theorem emod_step_fields (m : Int) (k : Nat) :
    m % (512 * k : Nat) % 512 = m % 512 ∧ m % (512 * k : Nat) / 512 = m / 512 % k := by
  refine ⟨Int.emod_emod_of_dvd m (by push_cast; exact dvd_mul_right _ _), ?_⟩
  have hsplit : m % (512 * k : Nat) = 512 * (m / 512 % k) + m % 512 := by
    have hm : m = 512 * (m / 512) + m % 512 := (Int.mul_ediv_add_emod m 512).symm
    have hr := Int.emod_lt_of_pos m (show (0 : Int) < 512 by decide)
    have hr' := Int.emod_nonneg m (show (512 : Int) ≠ 0 by decide)
    rcases Nat.eq_zero_or_pos k with rfl | hk
    · simp [Int.mul_ediv_add_emod]
    have hq := Int.emod_lt_of_pos (m / 512) (show (0 : Int) < k by exact_mod_cast hk)
    have hq' := Int.emod_nonneg (m / 512) (show (k : Int) ≠ 0 by omega)
    have hk' : m / 512 = k * (m / 512 / k) + m / 512 % k := (Int.mul_ediv_add_emod (m / 512) k).symm
    have heq : m = (512 * (m / 512 % k) + m % 512) + (512 * k : Nat) * (m / 512 / k) := by
      calc m = 512 * (m / 512) + m % 512 := hm
        _ = 512 * (k * (m / 512 / k) + m / 512 % k) + m % 512 := by rw [← hk']
        _ = _ := by push_cast; ring
    conv_lhs => rw [heq, Int.add_mul_emod_self_left]
    refine Int.emod_eq_of_lt (by omega) ?_
    push_cast
    omega
  rw [hsplit]
  omega

/-- The fields of a bound that is a mantissa of `n - e` bits over e bits of 0. -/
theorem mantissa_fields {x e n : Nat} {m : Int} (hn : e + 9 ≤ n)
    (hx : (x : Int) = m % (2 ^ (n - e) : Nat) * (2 ^ e : Nat)) :
    x % 2 ^ e = 0 ∧ ((x / 2 ^ e % 512 : Nat) : Int) = m % 512 ∧
      ((x / 2 ^ (e + 9) : Nat) : Int) = m / 512 % (2 ^ (n - 9 - e) : Nat) := by
  have hpos : 0 < 2 ^ e := Nat.two_pow_pos e
  obtain ⟨y, hy⟩ := Int.eq_ofNat_of_zero_le
    (Int.emod_nonneg m (show ((2 ^ (n - e) : Nat) : Int) ≠ 0 by exact_mod_cast (Nat.two_pow_pos _).ne'))
  have hxy : x = y * 2 ^ e := by
    rw [hy] at hx
    exact_mod_cast hx
  have hpow : 2 ^ (n - e) = 512 * 2 ^ (n - 9 - e) := by
    rw [show n - e = 9 + (n - 9 - e) by omega, pow_add]
    norm_num
  rw [hpow] at hy
  obtain ⟨hlow, hhigh⟩ := emod_step_fields m (2 ^ (n - 9 - e))
  rw [hy] at hlow hhigh
  refine ⟨by rw [hxy]; exact Nat.mul_mod_left .., ?_, ?_⟩
  · rw [hxy, Nat.mul_div_cancel _ hpos, ← hlow]
    rfl
  · rw [two_pow_add_nine, ← Nat.div_div_eq_div_mul, hxy, Nat.mul_div_cancel _ hpos, ← hhigh]
    rfl

/-- Settles O13: base and top are their mantissas over e bits of 0, and the mantissas end in B and in T. -/
theorem boundsFieldByField : Obligations.BoundsFieldByField := by
  intro c h
  have hb := c.b.isLt
  have ht := c.t.isLt
  obtain ⟨hbase, hb', haHi⟩ := mantissa_fields (by omega) (Cap.base_eq_mul h)
  obtain ⟨htop, ht', htHi⟩ := mantissa_fields (by omega) (Cap.top_eq_mul h)
  refine ⟨hbase, ?_, ?_, htop, ?_, ?_⟩
  · rw [Cap.baseMant] at hb'
    omega
  · rw [show 23 - c.exp = 32 - 9 - c.exp by omega, haHi]
    congr 1
    rw [Cap.baseMant, Cap.corrBase]
    omega
  · rw [Cap.topMant] at ht'
    omega
  · rw [show 24 - c.exp = 33 - 9 - c.exp by omega, htHi]
    congr 1
    rw [Cap.topMant, Cap.corrTop]
    omega

/-! ### The representable region -/

/-- Inside the representable region of a capability with its base at or below its address, the bounds stay (R104). -/
theorem Cap.setAddr_bounds {c : Cap} {a : Word} (hba : c.base ≤ c.addr.toNat) (ha : c.representable a = true) :
    (c.setAddr a).base = c.base ∧ (c.setAddr a).top = c.top := by
  obtain hexp | hexp := c.exp_cases
  · obtain ⟨m, hm, hbase, -⟩ := Cap.bounds_of_base_le_addr hexp hba
    obtain ⟨hle, hlt⟩ := (Cap.representable_iff_mant hbase a).mp ha
    have hb := c.baseMant_spec.1
    refine Cap.bounds_congr rfl rfl rfl ?_
    rw [hm] at hb ⊢
    exact (c.setAddr a).baseMant_eq_of hb (by exact_mod_cast hle) (by exact_mod_cast hlt)
  · obtain ⟨hbase, htop⟩ := Cap.bounds_of_exp_max hexp
    obtain ⟨hbase', htop'⟩ := Cap.bounds_of_exp_max (c := c.setAddr a) hexp
    exact ⟨hbase'.trans hbase.symm, htop'.trans htop.symm⟩

/-- The base a capability would have one below its base lies a whole region lower (R104). -/
theorem Cap.setAddr_base_ne {c : Cap} {a : Word} (hexp : c.exp ≤ 14) (hba : c.base ≤ c.addr.toNat) (hpos : 0 < c.base)
    (ha : a.toNat = c.base - 1) : (c.setAddr a).base ≠ c.base := by
  obtain ⟨m, hm, hbase, -⟩ := Cap.bounds_of_base_le_addr hexp hba
  obtain ⟨-, hwide, hU, -⟩ := two_pow_split hexp
  have hmpos : 0 < m := Nat.pos_of_mul_pos_right (hbase ▸ hpos)
  have hmlt : m < 2 ^ (32 - c.exp) := by
    have hq := c.addrMant_lt hexp
    have hle := c.baseMant_spec.2.1
    omega
  have hq : (c.setAddr a).addrMant = m - 1 := by
    show a.toNat / 2 ^ c.exp = m - 1
    rw [ha, hbase]
    refine Nat.div_eq_of_lt_le ?_ ?_
    · rw [Nat.sub_mul, Nat.one_mul]
      omega
    · rw [Nat.sub_add_cancel hmpos]
      exact Nat.sub_lt (hbase ▸ hpos) Nat.one_pos
  have hmant : (c.setAddr a).baseMant = (m : Int) - 512 := by
    have hb := c.baseMant_spec.1
    refine (c.setAddr a).baseMant_eq_of ?_ ?_ ?_
    · rw [hm] at hb
      exact (Int.sub_emod_right (m : Int) 512).trans hb
    · omega
    · omega
  have hbase' := Cap.base_eq_mul (c := c.setAddr a) hexp
  rw [hmant, Cap.setAddr_exp] at hbase'
  intro heq
  rw [heq, hbase, Int.natCast_mul] at hbase'
  have hmod := mul_right_cancel₀ (show ((2 ^ c.exp : Nat) : Int) ≠ 0 by omega) hbase'
  by_cases hlow : m < 512
  · rw [← Int.add_emod_right, Int.emod_eq_of_lt (by omega) (by omega)] at hmod
    omega
  · rw [Int.emod_eq_of_lt (by omega) (by omega)] at hmod
    omega

/-- Settles O15. -/
theorem representableAddressKeepsBounds : Obligations.RepresentableAddressKeepsBounds := by
  intro c a hself
  obtain ⟨hba, -⟩ := (c.representable_iff c.addr).mp hself
  refine ⟨Cap.setAddr_bounds hba, fun hexp hpos ha => ⟨?_, Cap.setAddr_base_ne hexp hba hpos ha⟩⟩
  refine Bool.eq_false_iff.mpr fun hrep => ?_
  obtain ⟨hle, -⟩ := (c.representable_iff a).mp hrep
  omega

/-- Base to top is a part of the representable region (R105). -/
theorem Cap.representable_of_le_top {c : Cap} {a : Word} (hba : c.base ≤ c.addr.toNat) (hle : c.base ≤ a.toNat)
    (htop : a.toNat ≤ c.top) : c.representable a = true := by
  refine (c.representable_iff a).mpr ⟨hle, ?_⟩
  obtain hexp | hexp := c.exp_cases
  · obtain ⟨m, -, hbase, htop'⟩ := Cap.bounds_of_base_le_addr hexp hba
    have hlen : (m + c.lengthMant) * 2 ^ c.exp < (m + 512) * 2 ^ c.exp :=
      (Nat.mul_lt_mul_right (Nat.two_pow_pos _)).mpr (by have := c.lengthMant_lt; omega)
    rw [hbase, two_pow_add_nine, mul_comm (2 ^ c.exp), ← Nat.add_mul]
    omega
  · have ha := a.isLt
    rw [hexp]
    omega

/-- Settles O16. -/
theorem topIsRepresentable : Obligations.TopIsRepresentable := by
  intro c hself
  obtain ⟨hba, -⟩ := (c.representable_iff c.addr).mp hself
  refine ⟨fun a => Cap.representable_of_le_top hba, fun hexp => ?_⟩
  obtain ⟨m, -, hbase, htop⟩ := Cap.bounds_of_base_le_addr hexp hba
  have hlen : (c.lengthMant : Int) = ((c.t.toNat : Int) - c.b.toNat) % 512 :=
    Int.toNat_of_nonneg (Int.emod_nonneg _ (by decide))
  rw [← hlen, Cap.length, hbase, htop]
  push_cast
  ring

end Sys2Proof.Machine
end

section
/-! SUPPORT. Encoding a request (R107): the exponent chosen is the smallest whose rounded length fits nine bits, and the
fields decode to the request rounded outward (R108). -/

namespace Sys2Proof.Machine

/-! ### A request in steps of 2^e -/

/-- The step a request begins in. -/
def floorMant (base e : Nat) : Nat := base / 2 ^ e

/-- The step a request ends before, rounded up. -/
def ceilMant (top e : Nat) : Nat := (top + 2 ^ e - 1) / 2 ^ e

section Steps
variable (x e : Nat)

theorem floorMant_spec : floorMant x e * 2 ^ e ≤ x ∧ x < (floorMant x e + 1) * 2 ^ e := by
  refine ⟨Nat.div_mul_le_self x _, ?_⟩
  rw [Nat.succ_mul]
  exact Nat.lt_div_mul_add (Nat.two_pow_pos e)

theorem ceilMant_spec : x ≤ ceilMant x e * 2 ^ e ∧ ceilMant x e * 2 ^ e < x + 2 ^ e := by
  have hpos := Nat.two_pow_pos e
  obtain ⟨hle, hlt⟩ := floorMant_spec (x + 2 ^ e - 1) e
  rw [floorMant, Nat.succ_mul] at hlt
  rw [floorMant] at hle
  rw [ceilMant]
  omega

theorem ceilMant_le_of_le_mul {x e m : Nat} (h : x ≤ m * 2 ^ e) : ceilMant x e ≤ m := by
  have hlt := (ceilMant_spec x e).2
  by_contra hbig
  have hstep : (m + 1) * 2 ^ e ≤ ceilMant x e * 2 ^ e := Nat.mul_le_mul_right _ (by omega)
  rw [Nat.succ_mul] at hstep
  omega

theorem le_floorMant_of_mul_le {x e m : Nat} (h : m * 2 ^ e ≤ x) : m ≤ floorMant x e :=
  (Nat.le_div_iff_mul_le (Nat.two_pow_pos e)).mpr h

/-- Rounding up is rounding down, and one more where something is left (R107). -/
theorem ceilMant_eq : ceilMant x e = x / 2 ^ e + (if x % 2 ^ e = 0 then 0 else 1) := by
  have hpos := Nat.two_pow_pos e
  have hx := Nat.div_add_mod x (2 ^ e)
  have hmod := Nat.mod_lt x hpos
  rw [ceilMant]
  refine Nat.div_eq_of_lt_le ?_ ?_
  · rw [Nat.add_mul, mul_comm (x / 2 ^ e)]
    split <;> omega
  · rw [Nat.succ_mul, Nat.add_mul, mul_comm (x / 2 ^ e)]
    split <;> omega

end Steps

/-- The steps a request covers, rounded outward. -/
def stepsOf (base len e : Nat) : Nat := ceilMant (base + len) e - floorMant base e

section Requests
variable {base len e : Nat}

theorem floorMant_le_ceilMant : floorMant base e ≤ ceilMant (base + len) e := by
  by_contra hlt
  have hstep : (ceilMant (base + len) e + 1) * 2 ^ e ≤ floorMant base e * 2 ^ e := Nat.mul_le_mul_right _ (by omega)
  have hpos := Nat.two_pow_pos e
  have hdown := (floorMant_spec base e).1
  have hup := (ceilMant_spec (base + len) e).1
  rw [Nat.succ_mul] at hstep
  omega

/-- A request shorter than k steps covers at most k + 1. -/
theorem stepsOf_le {k : Nat} (h : len < k * 2 ^ e) : stepsOf base len e ≤ k + 1 := by
  have hup := (floorMant_spec base e).2
  have hceil : ceilMant (base + len) e ≤ floorMant base e + 1 + k :=
    ceilMant_le_of_le_mul (by rw [Nat.add_mul]; omega)
  rw [stepsOf]
  omega

/-- A request of k steps or more covers at least k. -/
theorem le_stepsOf {k : Nat} (h : k * 2 ^ e ≤ len) : k ≤ stepsOf base len e := by
  have hdown := (floorMant_spec base e).1
  have hup := (ceilMant_spec (base + len) e).1
  have hsum : (floorMant base e + k) * 2 ^ e ≤ ceilMant (base + len) e * 2 ^ e := by
    rw [Nat.add_mul]
    omega
  have hle := Nat.le_of_mul_le_mul_right hsum (Nat.two_pow_pos e)
  rw [stepsOf]
  omega

/-! ### The exponent -/

/-- The overflow test compares the covered steps with 512, when they are fewer than 1024 (R107 (b)). -/
theorem mantissaOverflows_iff (h : stepsOf base len e < 1024) :
    mantissaOverflows base (base + len) e = true ↔ 512 ≤ stepsOf base len e := by
  have hle := floorMant_le_ceilMant (base := base) (len := len) (e := e)
  have hceil := ceilMant_eq (base + len) e
  rw [mantissaOverflows, decide_eq_true_eq, topMantissa, baseMantissa, Nat.shiftRight_eq_div_pow,
    Nat.shiftRight_eq_div_pow]
  rw [stepsOf, floorMant] at *
  omega

/-- The number of leading zeros of a field tells its highest 1 bit (R107 (c)). -/
theorem countLeadingZeros_spec (w : Nat) {v : Nat} (hv : v < 2 ^ w) :
    countLeadingZeros w v ≤ w ∧ v < 2 ^ (w - countLeadingZeros w v) ∧
      (countLeadingZeros w v < w → 2 ^ (w - countLeadingZeros w v - 1) ≤ v) := by
  induction w with
  | zero => exact ⟨Nat.le_refl 0, hv, fun h => absurd h (Nat.lt_irrefl 0)⟩
  | succ w ih =>
    rw [countLeadingZeros]
    split
    · next hbit => exact ⟨Nat.zero_le _, hv, fun _ => Nat.ge_two_pow_of_testBit hbit⟩
    · next hbit =>
      have hlow : v < 2 ^ w := by
        refine Nat.lt_pow_two_of_testBit v fun i hi => ?_
        obtain rfl | hlt := Nat.eq_or_lt_of_le hi
        · simpa using hbit
        · exact Nat.testBit_lt_two_pow (Nat.lt_of_lt_of_le hv (Nat.pow_le_pow_right (by decide) hlt))
      obtain ⟨hle, hup, hdown⟩ := ih hlow
      rw [show w + 1 - (countLeadingZeros w v + 1) = w - countLeadingZeros w v by omega]
      exact ⟨by omega, hup, fun h => hdown (by omega)⟩

/-- The candidate before the clamp: the smallest exponent for which the length alone is below 512 steps (R107). -/
theorem candidate_spec (hlen : len < 2 ^ 32) :
    ∃ e, candidateExp len = clampExp e ∧ len < 512 * 2 ^ e ∧ ∀ f < e, 512 * 2 ^ f ≤ len := by
  have hfield : len >>> 9 < 2 ^ 23 := by
    rw [Nat.shiftRight_eq_div_pow]
    omega
  obtain ⟨-, hup, hdown⟩ := countLeadingZeros_spec 23 hfield
  refine ⟨23 - countLeadingZeros 23 (len >>> 9), rfl, ?_, fun f hf => ?_⟩
  · rw [Nat.shiftRight_eq_div_pow] at *
    omega
  · have hpow : 2 ^ f ≤ 2 ^ (23 - countLeadingZeros 23 (len >>> 9) - 1) :=
      Nat.pow_le_pow_right (by decide) (by omega)
    have hlow := hpow.trans (hdown (by omega))
    rw [Nat.shiftRight_eq_div_pow] at hlow
    omega

theorem clampExp_cases (e : Nat) : (e ≤ 14 ∧ clampExp e = e) ∨ (14 < e ∧ clampExp e = 24) := by
  rw [clampExp]
  split
  · next h => exact .inr ⟨h, rfl⟩
  · next h => exact .inl ⟨Nat.not_lt.mp h, rfl⟩

/-- A request fits the maximum exponent with room to spare. -/
theorem stepsOf_max_le (hlen : len < 2 ^ 32) : stepsOf base len 24 ≤ 257 :=
  stepsOf_le (k := 256) (by omega)

/-- The exponent chosen: one that is stored, whose rounded length fits nine bits, and the smallest such (R107, R108). -/
theorem encodedExp_spec (hlen : len < 2 ^ 32) :
    (encodedExp base len ≤ 14 ∨ encodedExp base len = 24) ∧ stepsOf base len (encodedExp base len) ≤ 511 ∧
      ∀ f ≤ 14, f < encodedExp base len → 512 ≤ stepsOf base len f := by
  obtain ⟨e, hcandidate, hfits, hbelow⟩ := candidate_spec hlen
  have hmax := stepsOf_max_le (base := base) hlen
  simp only [encodedExp, hcandidate]
  have hsmaller : ∀ f < e, 512 ≤ stepsOf base len f := fun f hf => le_stepsOf (hbelow f hf)
  obtain ⟨hsmall, hclamp⟩ | ⟨hbig, hclamp⟩ := clampExp_cases e <;> rw [hclamp]
  · have hnear : stepsOf base len e ≤ 513 := stepsOf_le hfits
    have hover := mantissaOverflows_iff (base := base) (len := len) (e := e) (by omega)
    by_cases hfull : 512 ≤ stepsOf base len e
    · rw [if_pos (hover.mpr hfull)]
      have hhalf : stepsOf base len (e + 1) ≤ 257 := stepsOf_le (k := 256) (by rw [Nat.pow_succ]; omega)
      obtain ⟨hsmall', hclamp'⟩ | ⟨hbig', hclamp'⟩ := clampExp_cases (e + 1) <;> rw [hclamp']
      · refine ⟨.inl hsmall', by omega, fun f _ hf => ?_⟩
        obtain rfl | hlt := Nat.eq_or_lt_of_le (Nat.le_of_lt_succ hf)
        · exact hfull
        · exact hsmaller f hlt
      · refine ⟨.inr rfl, by omega, fun f hf14 _ => ?_⟩
        obtain rfl | hlt := Nat.eq_or_lt_of_le (show f ≤ e by omega)
        · exact hfull
        · exact hsmaller f hlt
    · rw [if_neg (mt hover.mp hfull)]
      exact ⟨.inl hsmall, by omega, fun f _ hf => hsmaller f hf⟩
  · have hover := mantissaOverflows_iff (base := base) (len := len) (e := 24) (by omega)
    rw [if_neg (by rw [hover]; omega)]
    exact ⟨.inr rfl, by omega, fun f hf14 _ => hsmaller f (by omega)⟩

end Requests

/-! ### The fields of a request -/

/-- A stored exponent decodes to itself (R97, R107). -/
theorem decodeExp_encodeExp {e : Nat} (h : e ≤ 14 ∨ e = 24) : decodeExp (encodeExp e) = e := by
  obtain h | rfl := h
  · interval_cases e <;> decide
  · decide

/-- The capability a request's fields decode as, at the request's own base. -/
def Cap.encoded (c : Cap) (base len : Word) : Cap := { c.withBounds (encodeBounds base len) with addr := base }

section Encoded
variable (c : Cap) (base len : Word)

/-- The exponent, the base's mantissa and the covered steps of a request's fields (R107). -/
theorem Cap.encoded_mantissas :
    (c.encoded base len).exp = encodedExp base.toNat len.toNat ∧
    (c.encoded base len).baseMant = floorMant base.toNat (encodedExp base.toNat len.toNat) ∧
    (c.encoded base len).topMant = ceilMant (base.toNat + len.toNat) (encodedExp base.toNat len.toNat) := by
  obtain ⟨hstored, hfits, -⟩ := encodedExp_spec (base := base.toNat) len.isLt
  have hexp : (c.encoded base len).exp = encodedExp base.toNat len.toNat := decodeExp_encodeExp hstored
  have ht : (c.encoded base len).t =
      BitVec.ofNat 9 (topMantissa (base.toNat + len.toNat) (encodedExp base.toNat len.toNat)) := rfl
  have hb : (c.encoded base len).b = BitVec.ofNat 9 (baseMantissa base.toNat (encodedExp base.toNat len.toNat)) := rfl
  generalize encodedExp base.toNat len.toNat = e at *
  have hle := floorMant_le_ceilMant (base := base.toNat) (len := len.toNat) (e := e)
  have hceil := ceilMant_eq (base.toNat + len.toNat) e
  have hb' : (c.encoded base len).b.toNat = floorMant base.toNat e % 512 := by
    rw [hb, BitVec.toNat_ofNat, baseMantissa, Nat.shiftRight_eq_div_pow, floorMant]
    omega
  have ht' : (c.encoded base len).t.toNat = ceilMant (base.toNat + len.toNat) e % 512 := by
    rw [ht, BitVec.toNat_ofNat, topMantissa, Nat.shiftRight_eq_div_pow]
    omega
  have haddr : (c.encoded base len).addrMant = floorMant base.toNat e := by
    show base.toNat / 2 ^ (c.encoded base len).exp = _
    rw [hexp, floorMant]
  have hbase : (c.encoded base len).baseMant = floorMant base.toNat e :=
    (c.encoded base len).baseMant_eq_of (by rw [hb']; omega) (by rw [haddr]) (by rw [haddr]; omega)
  refine ⟨hexp, hbase, ?_⟩
  rw [stepsOf] at hfits
  rw [Cap.topMant_eq, Cap.lengthMant, hbase, hb', ht']
  omega

/-- The decoded bounds of a request: rounded outward to steps, the top cut to 33 bits (R108 (1), (2)). -/
theorem Cap.encoded_bounds :
    (c.encoded base len).base =
      floorMant base.toNat (encodedExp base.toNat len.toNat) * 2 ^ encodedExp base.toNat len.toNat ∧
    (c.encoded base len).top =
      ceilMant (base.toNat + len.toNat) (encodedExp base.toNat len.toNat) * 2 ^ encodedExp base.toNat len.toNat
        % 2 ^ 33 := by
  obtain ⟨hexp, hbase, htop⟩ := c.encoded_mantissas base len
  have hlt := base.isLt
  have hdown := (floorMant_spec base.toNat (encodedExp base.toNat len.toNat)).1
  rw [Cap.base_eq_baseMant, Cap.top_eq_topMant, hexp, hbase, htop]
  norm_cast
  exact ⟨Nat.mod_eq_of_lt (by omega), rfl⟩

/-- Whole steps inside the address space end inside it: 2^32 is a whole number of steps. -/
theorem ceilMant_mul_le {x e : Nat} (he : e ≤ 32) (hx : x ≤ 2 ^ 32) : ceilMant x e * 2 ^ e ≤ 2 ^ 32 := by
  have hsplit : 2 ^ (32 - e) * 2 ^ e = 2 ^ 32 := by rw [← pow_add, Nat.sub_add_cancel he]
  calc ceilMant x e * 2 ^ e ≤ 2 ^ (32 - e) * 2 ^ e :=
        Nat.mul_le_mul_right _ (ceilMant_le_of_le_mul (by rw [hsplit]; exact hx))
    _ = 2 ^ 32 := hsplit

/-- A request inside the address space: nothing of its rounded top is cut (R108 (1)). -/
theorem Cap.encoded_top_of_le (h : base.toNat + len.toNat ≤ 2 ^ 32) :
    (c.encoded base len).top =
      ceilMant (base.toNat + len.toNat) (encodedExp base.toNat len.toNat) * 2 ^ encodedExp base.toNat len.toNat ∧
    (c.encoded base len).top ≤ 2 ^ 32 := by
  obtain ⟨hstored, -, -⟩ := encodedExp_spec (base := base.toNat) len.isLt
  have hle := ceilMant_mul_le (e := encodedExp base.toNat len.toNat) (by omega) h
  rw [(c.encoded_bounds base len).2, Nat.mod_eq_of_lt (by omega)]
  exact ⟨rfl, hle⟩

end Encoded

/-- Settles O17: the exponent by the choice of the encoder, the bounds by the mantissas of the fields. -/
theorem encodedBoundsCoverRequest : Obligations.EncodedBoundsCoverRequest := by
  intro base len c e d roundedTop
  obtain ⟨hstored, hfits, hsmallest⟩ := encodedExp_spec (base := base.toNat) len.isLt
  obtain ⟨hbase, htop⟩ := c.encoded_bounds base len
  obtain ⟨hdown, hup⟩ := floorMant_spec base.toNat e
  obtain ⟨hcover, -⟩ := ceilMant_spec (base.toNat + len.toNat) e
  have hexp : d.exp = e := (c.encoded_mantissas base len).1
  have hpos := Nat.two_pow_pos e
  refine ⟨hexp, hstored, hbase, htop, fun hspace => ?_, ?_, ?_, fun f hf14 hf => ?_⟩
  · obtain ⟨htop', hspace'⟩ := c.encoded_top_of_le base len hspace
    exact ⟨hbase.trans_le hdown, hcover.trans_eq htop'.symm, htop', hspace'⟩
  · refine (d.representable_iff base).mpr ⟨hbase.trans_le hdown, ?_⟩
    have hd : d.base = floorMant base.toNat e * 2 ^ e := hbase
    rw [hd, hexp, two_pow_add_nine]
    rw [Nat.succ_mul] at hup
    omega
  · have hd : d.base = floorMant base.toNat e * 2 ^ e := hbase
    have hr : roundedTop = ceilMant (base.toNat + len.toNat) e * 2 ^ e := rfl
    rw [hd, hr, ← Nat.sub_mul]
    exact Nat.mul_le_mul_right _ hfits
  · exact Nat.lt_of_succ_le (hsmallest f hf14 hf)

/-! ### A request inside a source's bounds -/

/-- The bounds of a sound capability are whole steps of its own exponent, at most 511 apart or at the maximum. -/
theorem Cap.bounds_steps {c : Cap} (hba : c.base ≤ c.addr.toNat) :
    ∃ m n : Nat, c.base = m * 2 ^ c.exp ∧ c.top = n * 2 ^ c.exp ∧ (c.exp ≤ 14 → n ≤ m + 511) := by
  obtain hexp | hexp := c.exp_cases
  · obtain ⟨m, -, hbase, htop⟩ := Cap.bounds_of_base_le_addr hexp hba
    have hlen := c.lengthMant_lt
    exact ⟨m, m + c.lengthMant, hbase, htop, fun _ => by omega⟩
  · obtain ⟨hbase, htop⟩ := Cap.bounds_of_exp_max hexp
    exact ⟨_, _, by rw [hexp]; exact hbase, by rw [hexp]; exact htop, fun h => by omega⟩

/-- A number of steps of 2^e is a number of smaller steps. -/
theorem mul_two_pow_of_le {e f : Nat} (h : f ≤ e) (m : Nat) : m * 2 ^ e = m * 2 ^ (e - f) * 2 ^ f := by
  rw [Nat.mul_assoc, ← pow_add, Nat.sub_add_cancel h]

/-- The exponent of a request inside a source's bounds is at most the source's: at the source's own exponent the
request already fits (R108 (6)). -/
theorem encodedExp_le_of_inBounds {c : Cap} {len : Word} (hba : c.base ≤ c.addr.toNat)
    (htop : c.addr.toNat + len.toNat ≤ c.top) : encodedExp c.addr.toNat len.toNat ≤ c.exp := by
  obtain ⟨hstored, -, hsmallest⟩ := encodedExp_spec (base := c.addr.toNat) len.isLt
  obtain ⟨m, n, hbase, htop', hsteps⟩ := Cap.bounds_steps hba
  by_contra hlarger
  have hexp : c.exp ≤ 14 := c.exp_cases.resolve_right (by omega)
  have hfull := hsmallest c.exp hexp (by omega)
  have hceil : ceilMant (c.addr.toNat + len.toNat) c.exp ≤ n := ceilMant_le_of_le_mul (htop' ▸ htop)
  have hfloor : m ≤ floorMant c.addr.toNat c.exp := le_floorMant_of_mul_le (hbase ▸ hba)
  have hspan := hsteps hexp
  rw [stepsOf] at hfull
  omega

/-- Rounding outward in steps no larger than the source's stays inside the source's bounds (R108 (6)). -/
theorem scbnds_inside {c : Cap} {len : Word} (hba : c.base ≤ c.addr.toNat) (hin : c.addr.toNat + len.toNat ≤ c.top)
    (hspace : c.top ≤ 2 ^ 32) :
    c.base ≤ (c.encoded c.addr len).base ∧ (c.encoded c.addr len).base ≤ c.addr.toNat ∧
      c.addr.toNat + len.toNat ≤ (c.encoded c.addr len).top ∧ (c.encoded c.addr len).top ≤ c.top := by
  have hle := encodedExp_le_of_inBounds hba hin
  obtain ⟨hbase, -⟩ := c.encoded_bounds c.addr len
  obtain ⟨htop, -⟩ := c.encoded_top_of_le c.addr len (by omega)
  obtain ⟨m, n, hm, hn, -⟩ := Cap.bounds_steps hba
  generalize encodedExp c.addr.toNat len.toNat = e at *
  rw [mul_two_pow_of_le hle] at hm hn
  rw [hbase, htop]
  refine ⟨?_, (floorMant_spec ..).1, (ceilMant_spec ..).1, ?_⟩
  · rw [hm] at hba ⊢
    exact Nat.mul_le_mul_right _ (le_floorMant_of_mul_le hba)
  · rw [hn] at hin ⊢
    exact Nat.mul_le_mul_right _ (ceilMant_le_of_le_mul hin)

/-- The bounds of the result of `SCBNDS` are those of the request at the source's address (R109). -/
theorem scbndsResult_bounds (c : Cap) (len : Word) :
    (scbndsResult c len).base = (c.encoded c.addr len).base ∧ (scbndsResult c len).top = (c.encoded c.addr len).top :=
  ⟨rfl, rfl⟩

/-- Settles O18. -/
theorem scbndsStaysInsideSource : Obligations.ScbndsStaysInsideSource := by
  intro c len hsound
  have hinside : (scbndsResult c len).tag = true →
      c.base ≤ c.addr.toNat ∧ c.addr.toNat + len.toNat ≤ c.top ∧ c.top ≤ 2 ^ 32 := by
    intro htag
    obtain ⟨hsource, -, hba, hin⟩ := (scbndsResult_tag_iff c len).mp htag
    obtain ⟨-, -, -, hspace, -⟩ := hsound hsource
    exact ⟨hba, hin, hspace⟩
  refine ⟨fun htag => ?_, fun hpast => Bool.eq_false_iff.mpr fun htag => ?_⟩
  · obtain ⟨hba, hin, hspace⟩ := hinside htag
    rw [(scbndsResult_bounds c len).1, (scbndsResult_bounds c len).2]
    exact scbnds_inside hba hin hspace
  · obtain ⟨-, hin, hspace⟩ := hinside htag
    omega

end Sys2Proof.Machine
end

section
/-! SUPPORT. Capabilities derived at another address keep the region they came from, so a call's link returns to the
caller (R95) and the same-sign split of an offset reaches its target (R128). -/

namespace Sys2Proof.Machine

/-- A capability moved inside its region has the same region. -/
theorem Cap.setAddr_representable {c : Cap} {a : Word} (hba : c.base ≤ c.addr.toNat) (ha : c.representable a = true)
    (b : Word) : (c.setAddr a).representable b = c.representable b := by
  rw [Bool.eq_iff_iff, Cap.representable_iff, Cap.representable_iff, (Cap.setAddr_bounds hba ha).1, Cap.setAddr_exp]

/-! ### A call and its return -/

/-- The link of a call from inside the bounds keeps the tag and the whole region (R90, R105). -/
theorem State.linkCap_of_inBounds {s : State} (rd : RegIdx) (hbase : s.pcc.base ≤ s.pc.toNat)
    (htop : s.pc.toNat + 4 ≤ s.pcc.top) (hspace : s.pc.toNat + 4 < 2 ^ 32) :
    s.pcc.representable (s.pc + 4) = true ∧ (s.linkCap rd).representable (s.pc + 4) = true := by
  have haddr : (s.pc + 4).toNat = s.pc.toNat + 4 := BitVec.toNat_add_of_lt (y := 4) hspace
  have hrep : s.pcc.representable (s.pc + 4) = true :=
    Cap.representable_of_le_top hbase (by omega) (by omega)
  exact ⟨hrep, (Cap.setAddr_representable hbase hrep (s.pc + 4)).trans hrep⟩

/-- Settles O31: the link is a sentry whose type carries MIE, so entering it restores MIE and unseals `pcc`. -/
theorem callThenReturnRestoresStance : Obligations.CallThenReturnRestoresStance := by
  intro s t u rs1 imm htag hct hx hpc hbase htop hspace halign hcall hra
  have hlink : u.readReg ra = s.linkCap ra := by
    rw [exec_jalr_aligned halign] at hcall
    cases hcall
    exact hra.trans (s.readReg_writeReg_same ra _)
  obtain ⟨hrep, hrep'⟩ := State.linkCap_of_inBounds ra hbase htop hspace
  have hltag : (s.linkCap ra).tag = true := by
    show (s.pcc.tag && s.pcc.representable (s.pc + 4)) = true
    rw [htag, hrep, Bool.and_self]
  have hltype : (s.linkCap ra).sealType = if s.mie then 5 else 4 :=
    (State.linkCap_sealType ra hx).trans (if_neg (not_not_intro rfl))
  have htarget : jalrTarget (s.linkCap ra) 0 = s.pc + 4 := by
    have haddr : (s.pc + 4).toNat = s.pc.toNat + 4 := BitVec.toNat_add_of_lt (y := 4) hspace
    have heven := (and_three_eq_zero_iff s.pc).mp hpc
    have htn := jalrTarget_toNat (s.linkCap ra) 0
    have hladdr : (s.linkCap ra).addr = s.pc + 4 := rfl
    rw [hladdr, haddr, show (0 : BitVec 12).toInt = 0 from rfl] at htn
    exact BitVec.eq_of_toNat_eq (by omega)
  have hok : jalrOk zr ra (s.linkCap ra) 0 = true := by
    refine (jalrOk_iff ..).mpr ⟨hltag, (accepted_iff ..).mpr (.inr (.inl ⟨rfl, rfl, ?_⟩)), .inr rfl⟩
    rw [hltype]
    cases s.mie
    · exact .inl rfl
    · exact .inr rfl
  have halign' : jalrTarget (u.readReg ra) 0 &&& 3 = 0 := by
    have haddr : (s.pc + 4).toNat = s.pc.toNat + 4 := BitVec.toNat_add_of_lt (y := 4) hspace
    have heven := (and_three_eq_zero_iff s.pc).mp hpc
    rw [hlink, htarget, and_three_eq_zero_iff]
    omega
  refine ⟨_, exec_jalr_aligned halign' zr, ?_, ?_⟩
  · show jalrMie zr ra (u.readReg ra) 0 u.mie = s.mie
    rw [hlink, jalrMie_of_ok hok, hltype]
    cases s.mie <;> rfl
  · show jalrPcc zr ra (u.readReg ra) 0 = _
    rw [hlink, jalrPcc_eq, htarget, hok, Cap.setAddr_tag, Cap.withType_tag, Cap.withType_representable, hltag, hrep']
    show { s.pcc with addr := s.pc + 4, tag := true, ct := BitVec.ofNat 3 0 } = { s.pcc with addr := s.pc + 4 }
    rw [← htag]
    exact congrArg (fun ct => { s.pcc with addr := s.pc + 4, ct := ct }) hct.symm

/-! ### The same-sign split -/

/-- An offset is divided toward zero: both parts have its sign, and fit the fields of AUIPC and ADDIY (R128). -/
theorem sameSignSplit_spec {d : Int} (hlow : -2 ^ 30 ≤ d) (hhigh : d < 2 ^ 30) :
    (BitVec.ofInt 20 (d.tdiv 2048)).toInt * 2048 + (BitVec.ofInt 12 (d.tmod 2048)).toInt = d ∧
    (0 ≤ d → 0 ≤ (BitVec.ofInt 20 (d.tdiv 2048)).toInt ∧ 0 ≤ (BitVec.ofInt 12 (d.tmod 2048)).toInt) ∧
    (d ≤ 0 → (BitVec.ofInt 20 (d.tdiv 2048)).toInt ≤ 0 ∧ (BitVec.ofInt 12 (d.tmod 2048)).toInt ≤ 0) := by
  have hsum : 2048 * d.tdiv 2048 + d.tmod 2048 = d := Int.mul_tdiv_add_tmod d 2048
  have hpos : 0 ≤ d → 0 ≤ d.tmod 2048 := fun h => Int.tmod_nonneg 2048 h
  have hneg : d ≤ 0 → d.tmod 2048 ≤ 0 := fun h => by
    have hflip := Int.tmod_nonneg 2048 (show 0 ≤ -d by omega)
    rw [Int.neg_tmod] at hflip
    omega
  have hlt := Int.tmod_lt_of_pos d (show (0 : Int) < 2048 by decide)
  have hgt := Int.lt_tmod_of_pos d (show (0 : Int) < 2048 by decide)
  rw [BitVec.toInt_ofInt_eq_self (by decide) (by omega) (by omega),
    BitVec.toInt_ofInt_eq_self (by decide) (by omega) (by omega)]
  omega

/-- Settles O32: the address after AUIPC lies between `pc` and the target, so both moves stay inside the region. -/
theorem sameSignSplitReachesTarget : Obligations.SameSignSplitReachesTarget := by
  intro s t u rd1 rd2 d hrd1 hrd2 htag hct hspace hlow hhigh hbase htop hbase' htop' hauipc haddiy
  obtain ⟨hsum, hpos, hneg⟩ := sameSignSplit_spec hlow hhigh
  generalize BitVec.ofInt 20 (d.tdiv 2048) = imm20 at *
  generalize BitVec.ofInt 12 (d.tmod 2048) = imm12 at *
  have hc1 : t.readReg rd1 = s.pcc.setAddr (s.pc + auipcOffset imm20) := by
    rw [exec_auipc] at hauipc
    cases hauipc
    exact (s.readReg_writeReg_same rd1 _).trans (if_neg hrd1)
  have ha1 := auipcAddr_toNat s.pc imm20
  have ha1' : ((s.pc + auipcOffset imm20).toNat : Int) = s.pc.toNat + imm20.toInt * 2048 := by omega
  have hrep1 : s.pcc.representable (s.pc + auipcOffset imm20) = true :=
    Cap.representable_of_le_top hbase (by omega) (by omega)
  obtain ⟨hb1, ht1⟩ := Cap.setAddr_bounds hbase hrep1
  have hc2 : u.readReg rd2 = addiyResult (t.readReg rd1) imm12 := by
    rw [exec_addiy] at haddiy
    cases haddiy
    exact (t.readReg_writeReg_same rd2 _).trans (if_neg hrd2)
  rw [hc1, addiyResult_eq] at hc2
  generalize hc : s.pcc.setAddr (s.pc + auipcOffset imm20) = c1 at *
  have hunsealed : c1.unsealed = true := by
    rw [Cap.unsealed_iff, ← hc]
    exact Cap.sealType_of_ct_eq_zero hct
  have haddr1 : (c1.addr.toNat : Int) = s.pc.toNat + imm20.toInt * 2048 := by rw [← hc]; exact ha1'
  have ha2 := toNat_add_signExtend c1.addr imm12
  have ha2' : ((c1.addr + iOffset imm12).toNat : Int) = s.pc.toNat + d := by
    rw [iOffset]
    omega
  have hba1 : c1.base ≤ c1.addr.toNat := by omega
  have hrep2 : c1.representable (c1.addr + iOffset imm12) = true :=
    Cap.representable_of_le_top hba1 (by omega) (by omega)
  obtain ⟨hb2, ht2⟩ := Cap.setAddr_bounds hba1 hrep2
  have htag1 : c1.tag = true := by rw [← hc, Cap.setAddr_tag, htag, hrep1, Bool.and_self]
  rw [hc2]
  refine ⟨?_, ha2', hb2.trans hb1, ht2.trans ht1⟩
  rw [hunsealed, Cap.setAddr_tag, htag1, hrep2]
  rfl

end Sys2Proof.Machine
end

section
/-! SUPPORT. Memory by words: addresses modulo 2^32, the granules of a range, the image of a capability (R13, R39), and
what a write of data or of a capability leaves to be read (R38 to R43). -/

namespace Sys2Proof.Machine

/-! ### Granules -/

theorem granule_toNat (x : Word) : granule x.toNat = x.toNat / 8 := by
  rw [granule, wrapAddr_of_lt x.isLt]

theorem granule_toNat_add (a : Word) (k : Nat) : granule (a.toNat + k) = (a + BitVec.ofNat 32 k).toNat / 8 := by
  rw [granule, wrapAddr_toNat_add]

/-- The addresses of an aligned granule do not wrap (R39). -/
theorem toNat_add_of_aligned {a : Word} (ha : a.toNat % 8 = 0) {k : Nat} (hk : k < 8) :
    (a + BitVec.ofNat 32 k).toNat = a.toNat + k := by
  have hlt := a.isLt
  rw [BitVec.toNat_add, BitVec.toNat_ofNat]
  omega

/-- An address outside an aligned granule is none of its eight bytes (R39). -/
theorem ne_of_granule_ne {a x : Word} (ha : a.toNat % 8 = 0) (hx : x.toNat / 8 ≠ a.toNat / 8) {k : Nat} (hk : k < 8) :
    wrapAddr (a.toNat + k) ≠ x.toNat := by
  rw [wrapAddr_toNat_add, toNat_add_of_aligned ha hk]
  omega

/-! ### Multi-byte numbers -/

theorem Memory.readLE_lt (m : Memory) (a n : Nat) : m.readLE a n < 256 ^ n := by
  induction n generalizing a with
  | zero => exact Nat.one_pos
  | succ n ih =>
    have hbyte := (m.read (wrapAddr a)).isLt
    have hrest := ih (a + 1)
    rw [Memory.readLE, Nat.pow_succ']
    omega

/-- A multi-byte read in two parts (R38). -/
theorem Memory.readLE_add (m : Memory) (a i j : Nat) :
    m.readLE a (i + j) = m.readLE a i + 256 ^ i * m.readLE (a + i) j := by
  induction i generalizing a with
  | zero => simp [Memory.readLE]
  | succ i ih =>
    rw [show i + 1 + j = i + j + 1 by omega, Memory.readLE, Memory.readLE, ih, Nat.pow_succ',
      show a + 1 + i = a + (i + 1) by omega]
    ring

/-- Byte k of the low n bytes of a number. -/
theorem ofNat_mod_div {v n k : Nat} (hk : k < n) :
    BitVec.ofNat 8 (v % 256 ^ n / 256 ^ k) = BitVec.ofNat 8 (v / 256 ^ k) := by
  have hsplit : 256 ^ n = 256 ^ k * 256 ^ (n - k) := by rw [← pow_add, Nat.add_sub_cancel' (Nat.le_of_lt hk)]
  have hdvd : 256 ∣ 256 ^ (n - k) := dvd_pow_self 256 (by omega)
  refine BitVec.eq_of_toNat_eq ?_
  rw [hsplit, Nat.mod_mul_right_div_self, BitVec.toNat_ofNat, BitVec.toNat_ofNat, Nat.mod_mod_of_dvd _ hdvd]

/-! ### `MemWrite` -/

/-- Reading back what `MemWrite` stored (R38). -/
theorem State.memRead_memWrite {s : State} (h : s.Canonical) (a : Word) {n : Nat} (v : Nat) (hn : n ≤ addressSpace) :
    (s.memWrite a n v).memRead a n = v % 256 ^ n :=
  Memory.readLE_writeLE h.mem _ _ _ hn

/-- Settles O40. -/
theorem memWriteThenRead : Obligations.MemWriteThenRead := by
  intro s a n v h hn
  have hread := State.memRead_memWrite h a v (n := n) (by rw [addressSpace]; omega)
  refine ⟨hread, fun k hk => ?_, fun x hx => ?_⟩
  · rw [← State.memRead_byte _ a hk, hread, ofNat_mod_div hk]
  · refine Memory.read_writeLE_of_ne _ _ fun k hk => ?_
    rw [wrapAddr_toNat_add]
    exact fun heq => hx k hk (BitVec.eq_of_toNat_eq heq.symm)

section Tags
variable {s : State} {a x : Word} {n : Nat}

/-- The tag of a granule that a data write touches is cleared (R42). -/
theorem State.tagAt_writeData_of_touched (h : s.Canonical) (v : Nat)
    (hx : ∃ k < n, x.toNat / 8 = (a + BitVec.ofNat 32 k).toNat / 8) : (s.writeData a n v).tagAt x = false := by
  obtain ⟨k, hk, hgran⟩ := hx
  have htouched : ¬∀ k < n, granule x.toNat ≠ granule (a.toNat + k) := fun hall =>
    hall k hk (by rw [granule_toNat, granule_toNat_add, hgran])
  rw [State.tagAt_writeData h, decide_eq_false htouched, Bool.false_and]

/-- The tag of every other granule stays (R42). -/
theorem State.tagAt_writeData_of_untouched (h : s.Canonical) (v : Nat)
    (hx : ∀ k < n, x.toNat / 8 ≠ (a + BitVec.ofNat 32 k).toNat / 8) : (s.writeData a n v).tagAt x = s.tagAt x := by
  have huntouched : ∀ k < n, granule x.toNat ≠ granule (a.toNat + k) := fun k hk => by
    rw [granule_toNat, granule_toNat_add]
    exact hx k hk
  rw [State.tagAt_writeData h, decide_eq_true huntouched, Bool.true_and]

/-- `MemWrite` and the data write of a store do the same to the tags (R42). -/
theorem State.tagAt_memWrite (s : State) (a : Word) (n v : Nat) (x : Word) :
    (s.memWrite a n v).tagAt x = (s.writeData a n v).tagAt x := rfl

end Tags

/-- Settles O41. -/
theorem dataWriteClearsTags : Obligations.DataWriteClearsTags := by
  intro s a n v h
  refine ⟨fun x hx => ?_, fun x hx => ?_, fun tags => ⟨rfl, ?_⟩⟩
  · rw [State.tagAt_memWrite]
    have hclear := State.tagAt_writeData_of_touched h v hx
    exact ⟨hclear, hclear⟩
  · rw [State.tagAt_memWrite]
    have hkept := State.tagAt_writeData_of_untouched h v hx
    exact ⟨hkept, hkept⟩
  · exact State.readBytes_congr (s := s) (t := { s with tags := tags }) rfl rfl s.draws a.toNat n

/-! ### The image of a capability -/

/-- A part of a placed field reads as that part of the field. -/
theorem extractLsb'_place_inside {w n lo i m : Nat} (v : BitVec n) (h : lo + i + m ≤ w) :
    (place w lo v).extractLsb' (lo + i) m = v.extractLsb' i m := by
  refine BitVec.eq_of_getLsbD_eq fun j hj => ?_
  rw [BitVec.getLsbD_extractLsb', BitVec.getLsbD_extractLsb', getLsbD_place,
    show lo + i + j - lo = i + j by omega]
  simp [show lo + i + j < w by omega, show ¬lo + i + j < lo by omega]

/-- The high half of the image is the metadata word (R13). -/
theorem Cap.bits64_high (c : Cap) {i m : Nat} (h : i + m ≤ 32) :
    c.bits64.extractLsb' (32 + i) m = c.metaWord.extractLsb' i m := by
  rw [Cap.bits64, BitVec.extractLsb'_or, extractLsb'_place_inside _ (by omega),
    extractLsb'_place_of_disjoint _ (by omega), BitVec.or_zero]

/-- The low half of the image is the address (R13). -/
theorem Cap.bits64_low (c : Cap) : c.bits64.extractLsb' 0 32 = c.addr := by
  rw [Cap.bits64, BitVec.extractLsb'_or, extractLsb'_place_of_disjoint _ (by omega),
    extractLsb'_place_same _ (by omega), BitVec.zero_or]

/-- The fields of the metadata word (R13). -/
theorem Cap.metaWord_fields (c : Cap) :
    c.metaWord.extractLsb' 31 1 = BitVec.ofBool c.r ∧ c.metaWord.extractLsb' 30 1 = BitVec.ofBool c.g ∧
    c.metaWord.extractLsb' 25 5 = c.p ∧ c.metaWord.extractLsb' 22 3 = c.ct ∧ c.metaWord.extractLsb' 18 4 = c.e ∧
    c.metaWord.extractLsb' 9 9 = c.t ∧ c.metaWord.extractLsb' 0 9 = c.b := by
  simp only [Cap.metaWord, BitVec.extractLsb'_or]
  refine ⟨?_, ?_, ?_, ?_, ?_, ?_, ?_⟩ <;>
    simp only [extractLsb'_place_same, extractLsb'_place_of_disjoint, BitVec.or_zero, BitVec.zero_or, Nat.reduceAdd,
      Nat.reduceLeDiff, true_or, or_true, le_refl]

theorem getLsbD_of_extractLsb'_ofBool {w lo : Nat} {v : BitVec w} {b : Bool}
    (h : v.extractLsb' lo 1 = BitVec.ofBool b) : v.getLsbD lo = b := by
  have hbit := congrArg (·.getLsbD 0) h
  simpa using hbit

/-- A capability is its tag and its image (R13). -/
theorem Cap.ofBits64_bits64 (c : Cap) (tag : Bool) : Cap.ofBits64 tag c.bits64 = { c with tag := tag } := by
  obtain ⟨hr, hg, hp, hct, he, ht, hb⟩ := c.metaWord_fields
  rw [← c.bits64_high (by omega)] at hr hg hp hct he ht hb
  have hr := getLsbD_of_extractLsb'_ofBool hr
  have hg := getLsbD_of_extractLsb'_ofBool hg
  simp only [Nat.reduceAdd] at hr hg hp hct he ht hb
  rw [Cap.ofBits64, hr, hg, hp, hct, he, ht, hb, c.bits64_low]

/-- The image as a number: the address below, the metadata word above (R13, R39). -/
theorem Cap.bits64_toNat (c : Cap) : c.bits64.toNat % 2 ^ 32 = c.addr.toNat ∧ c.bits64.toNat / 2 ^ 32 = c.metaWord.toNat := by
  have hlow := congrArg BitVec.toNat c.bits64_low
  have hhigh := congrArg BitVec.toNat (c.bits64_high (i := 0) (m := 32) (by omega))
  have hlt := c.bits64.isLt
  have hmeta := c.metaWord.isLt
  rw [BitVec.extractLsb'_toNat, Nat.shiftRight_eq_div_pow] at hlow hhigh
  rw [BitVec.extractLsb'_toNat, Nat.shiftRight_eq_div_pow] at hhigh
  omega

/-- The image does not hold the tag (R13). -/
theorem Cap.bits64_with_tag (c : Cap) (tag : Bool) : Cap.bits64 { c with tag := tag } = c.bits64 := rfl

/-! ### `MemWriteCap` -/

section Capability
variable {s : State} {a : Word} (c : Cap)

theorem State.memRead_memWriteCap (h : s.Canonical) (a : Word) : (s.memWriteCap a c).memRead a 8 = c.bits64.toNat := by
  refine (Memory.readLE_writeLE h.mem a.toNat 8 _ (by decide)).trans ?_
  exact Nat.mod_eq_of_lt c.bits64.isLt

/-- What `MemReadCap` gives back: the whole image, and the tag the granule has (R40, R43). -/
theorem State.memReadCap_memWriteCap (h : s.Canonical) (a : Word) :
    (s.memWriteCap a c).memReadCap a = { c with tag := (s.memWriteCap a c).tagAt a } := by
  rw [State.memReadCap, State.memRead_memWriteCap c h, BitVec.ofNat_toNat, BitVec.setWidth_eq, Cap.ofBits64_bits64]

/-- The tag and the image go to the granule together, where it has a tag (R41, R46). -/
theorem State.tagAt_memWriteCap_same (h : s.Canonical) (a : Word) :
    (s.memWriteCap a c).tagAt a = (c.tag && s.isTagged a.toNat) := by
  have htagged : (s.memWriteCap a c).isTagged a.toNat = s.isTagged a.toNat := rfl
  rw [State.tagAt, State.memWriteCap_tags, htagged]
  split
  · next hkept =>
    rw [NatSet.has_add, hkept]
    simpa using (Bool.and_eq_true_iff.mp hkept).2
  · next hlost =>
    rw [NatSet.has_del h.tags, Bool.eq_false_iff.mpr hlost]
    simp

theorem State.tagAt_memWriteCap_of_ne (h : s.Canonical) {x : Word} (hx : x.toNat / 8 ≠ a.toNat / 8) :
    (s.memWriteCap a c).tagAt x = s.tagAt x := by
  have hgran : granule x.toNat ≠ granule a.toNat := by rwa [granule_toNat, granule_toNat]
  have htagged : (s.memWriteCap a c).isTagged x.toNat = s.isTagged x.toNat := rfl
  rw [State.tagAt, State.memWriteCap_tags, htagged, State.tagAt]
  split
  · rw [NatSet.has_add, decide_eq_false hgran.symm, Bool.false_or]
  · rw [NatSet.has_del h.tags, decide_eq_true hgran, Bool.true_and]

theorem State.readMem_memWriteCap_of_ne (ha : a.toNat % 8 = 0) {x : Word} (hx : x.toNat / 8 ≠ a.toNat / 8) :
    (s.memWriteCap a c).readMem x = s.readMem x :=
  Memory.read_writeLE_of_ne _ _ fun _ hk => ne_of_granule_ne ha hx hk

end Capability

/-- The two words of an eight-byte read (R38, R39). -/
theorem State.memRead_halves (s : State) {a : Word} (ha : a.toNat % 8 = 0) :
    s.memRead a 4 = s.memRead a 8 % 2 ^ 32 ∧ s.memRead (a + 4) 4 = s.memRead a 8 / 2 ^ 32 := by
  have hadd : (a + 4).toNat = a.toNat + 4 := toNat_add_of_aligned ha (k := 4) (by omega)
  have hsplit : s.mem.readLE a.toNat 8 = _ := s.mem.readLE_add a.toNat 4 4
  have hlow := s.mem.readLE_lt a.toNat 4
  rw [State.memRead, State.memRead, State.memRead, hadd]
  omega

/-- Settles O42. -/
theorem capabilityStoreThenLoad : Obligations.CapabilityStoreThenLoad := by
  intro s a c h ha htagged
  obtain ⟨hlow, hhigh⟩ := (s.memWriteCap a c).memRead_halves ha
  obtain ⟨haddr, hmeta⟩ := c.bits64_toNat
  rw [State.memRead_memWriteCap c h] at hlow hhigh
  refine ⟨?_, fun x hx => ⟨State.readMem_memWriteCap_of_ne c ha hx, State.tagAt_memWriteCap_of_ne c h hx⟩,
    hlow.trans haddr, hhigh.trans hmeta⟩
  rw [State.memReadCap_memWriteCap c h, State.tagAt_memWriteCap_same c h, htagged, Bool.and_true]

end Sys2Proof.Machine
end

section
/-! SUPPORT. Loads and stores: the checks in their order (R48, R44, R46), what the two filters do (R49), and what an
access that answers reads or leaves. -/

namespace Sys2Proof.Machine

/-! ### The checks of an access -/

/-- The checks of a load and of a store, which differ in the permission they need and in the exceptions they name. -/
def State.accessCheck (s : State) (need : Perm) (misaligned unbacked : Exc) (i : RegIdx) (a : Word) (n : Nat) :
    Option Exc :=
  match (s.readReg i).useCheck need a.toNat n with
  | some check => some (.cheri check (.reg i))
  | none =>
    if a.toNat % n ≠ 0 then some misaligned
    else if s.backedRange a.toNat n then none
    else some unbacked

theorem State.loadCheck_eq (s : State) (i : RegIdx) (a : Word) (n : Nat) :
    s.loadCheck i a n = s.accessCheck .R (.loadAddressMisaligned a) (.loadAccessFault a) i a n := rfl

theorem State.storeCheck_eq (s : State) (i : RegIdx) (a : Word) (n : Nat) :
    s.storeCheck i a n = s.accessCheck .W (.storeAddressMisaligned a) (.storeAccessFault a) i a n := rfl

section AccessCheck
variable {s : State} {need : Perm} {misaligned unbacked : Exc} {i : RegIdx} {a : Word} {n : Nat}

theorem State.accessCheck_of_useCheck {check : CheriCheck} (h : (s.readReg i).useCheck need a.toNat n = some check) :
    s.accessCheck need misaligned unbacked i a n = some (.cheri check (.reg i)) := by
  simp only [State.accessCheck, h]

theorem State.accessCheck_of_misaligned (h : (s.readReg i).useCheck need a.toNat n = none)
    (halign : a.toNat % n ≠ 0) : s.accessCheck need misaligned unbacked i a n = some misaligned := by
  simp only [State.accessCheck, h, if_pos halign]

theorem State.accessCheck_of_unbacked (h : (s.readReg i).useCheck need a.toNat n = none)
    (halign : a.toNat % n = 0) (hback : s.backedRange a.toNat n = false) :
    s.accessCheck need misaligned unbacked i a n = some unbacked := by
  simp only [State.accessCheck, h, if_neg (not_not_intro halign), hback, Bool.false_eq_true, if_false]

/-- An access passes exactly with the authority, aligned and backed (R48, R44, R46). -/
theorem State.accessCheck_eq_none_iff :
    s.accessCheck need misaligned unbacked i a n = none ↔
      (s.readReg i).useCheck need a.toNat n = none ∧ a.toNat % n = 0 ∧ s.backedRange a.toNat n = true := by
  cases huse : (s.readReg i).useCheck need a.toNat n with
  | some check => simp [State.accessCheck_of_useCheck huse]
  | none =>
    by_cases halign : a.toNat % n = 0
    · simp [State.accessCheck, huse, halign]
    · simp [State.accessCheck_of_misaligned huse halign, halign]

/-- An access with no authority reports the first check of its register that fails (R48, R117). -/
theorem State.accessCheck_cheri {fails : Exc → Prop}
    (hfails : ∀ {x}, s.accessCheck need misaligned unbacked i a n = some x → fails x) :
    ((s.readReg i).tag = false → fails (.cheri .tag (.reg i))) ∧
    ((s.readReg i).tag = true → (s.readReg i).sealType ≠ 0 → fails (.cheri .seal (.reg i))) ∧
    ((s.readReg i).tag = true → (s.readReg i).sealType = 0 → (s.readReg i).perms.has need = false →
      fails (.cheri .permission (.reg i))) ∧
    ((s.readReg i).tag = true → (s.readReg i).sealType = 0 → (s.readReg i).perms.has need = true →
      ¬((s.readReg i).base ≤ a.toNat ∧ a.toNat + n ≤ (s.readReg i).top) → fails (.cheri .bounds (.reg i))) :=
  ⟨fun htag => hfails (State.accessCheck_of_useCheck (Cap.useCheck_of_untagged htag)),
    fun htag hseal => hfails (State.accessCheck_of_useCheck (Cap.useCheck_of_sealed htag hseal)),
    fun htag hseal hperm => hfails (State.accessCheck_of_useCheck (Cap.useCheck_of_not_permitted htag hseal hperm)),
    fun htag hseal hperm hbounds =>
      hfails (State.accessCheck_of_useCheck (Cap.useCheck_of_not_covered htag hseal hperm hbounds))⟩

end AccessCheck

/-! ### What a load and a store answer -/

section Answers
variable {s : State} {i : RegIdx} {a : Word} {n : Nat}

theorem State.load_error {x : Exc} (h : s.loadCheck i a n = some x) :
    if n = 8 then s.loadCap i a = .error x else s.loadData i a n = .error x := by
  split
  · next hn => subst hn; rw [State.loadCap, h]
  · rw [State.loadData, h]

theorem State.store_error {x : Exc} (h : s.storeCheck i a n = some x) (v : Nat) (c : Cap) :
    if n = 8 then s.storeCap i a c = .error x else s.storeData i a n v = .error x := by
  split
  · next hn => subst hn; rw [State.storeCap, h]
  · rw [State.storeData, h]

theorem State.loadData_of_check (h : s.loadCheck i a n = none) : s.loadData i a n = .ok (s.readData a n) := by
  rw [State.loadData, h]

theorem State.loadCap_of_check (h : s.loadCheck i a 8 = none) :
    s.loadCap i a = .ok (loadFilter (s.readReg i).perms (s.readCapData a).1, (s.readCapData a).2) := by
  rw [State.loadCap, h]

theorem State.storeData_of_check (h : s.storeCheck i a n = none) (v : Nat) :
    s.storeData i a n v = .ok (s.writeData a n v) := by
  rw [State.storeData, h]

theorem State.storeCap_of_check (h : s.storeCheck i a 8 = none) (c : Cap) :
    s.storeCap i a c = .ok (s.writeCapData a (storeFilter (s.readReg i).perms c)) := by
  rw [State.storeCap, h]

end Answers

/-- A data read leaves the registers and memory (R38, R50). -/
theorem State.readData_keeps (s : State) (a : Word) (n : Nat) :
    (∀ j, (s.readData a n).2.readReg j = s.readReg j) ∧ s.SameMemory (s.readData a n).2 :=
  ⟨fun _ => rfl, .of_fields rfl rfl rfl⟩

/-- A capability write, of memory or of a device, leaves the registers (R41). -/
theorem State.writeCapData_keeps (s : State) (a : Word) (c : Cap) :
    (∀ j, (s.writeCapData a c).readReg j = s.readReg j) ∧ (s.writeCapData a c).pcc = s.pcc := by
  unfold State.writeCapData
  split
  · exact ⟨fun _ => rfl, rfl⟩
  · exact ⟨fun _ => rfl, rfl⟩

/-! ### The filters -/

/-- A loaded capability keeps its tag exactly when the register grants C (R49). -/
theorem loadFilter_tag (auth : PermSet) (c : Cap) : (loadFilter auth c).tag = (c.tag && auth.c) := by
  unfold loadFilter
  cases hc : auth.c with
  | false => simp
  | true =>
    simp only [Bool.not_true, Bool.false_eq_true, if_false, Bool.and_true]
    split <;> split <;> rfl

/-- Settles O43: the checks are those of the access, and an access that passes reads byte by byte. -/
theorem loadReportsFirstFailure : Obligations.LoadReportsFirstFailure := by
  intro s i a n hn c covers fails
  obtain ⟨htag, hseal, hperm, hbounds⟩ :=
    State.accessCheck_cheri (fails := fails) fun h => State.load_error ((s.loadCheck_eq i a n).trans h)
  refine ⟨⟨rfl, rfl, rfl, rfl⟩, htag, hseal, hperm, hbounds, fun htag hseal hperm hcov halign => ?_,
    fun htag hseal hperm hcov halign => ⟨fun hback => ?_, fun hback => ?_⟩⟩
  · exact State.load_error (State.accessCheck_of_misaligned (Cap.useCheck_of_allowed htag hseal hperm hcov) halign)
  · exact State.load_error (State.accessCheck_of_unbacked (Cap.useCheck_of_allowed htag hseal hperm hcov) halign hback)
  have hpass : s.loadCheck i a n = none :=
    State.accessCheck_eq_none_iff.mpr ⟨Cap.useCheck_of_allowed htag hseal hperm hcov, halign, hback⟩
  obtain ⟨hregs, hmem⟩ := s.readData_keeps a n
  refine ⟨fun hio => ?_, fun _ => ⟨_, _, State.loadData_of_check hpass, hregs, hmem, fun k hk hdev => ?_⟩, fun h8 => ?_⟩
  · split
    · next h8 => subst h8; rw [State.loadCap_of_check hpass, State.readCapData_of_memory hio]
    · rw [State.loadData_of_check hpass, State.readData_of_memory hio]
  · rw [← wrapAddr_toNat_add] at hdev
    rw [State.readMem, ← wrapAddr_toNat_add]
    exact State.readBytes_byte s.draws hk hdev
  · subst h8
    refine ⟨_, _, State.loadCap_of_check hpass, hregs, hmem, fun hdev => ?_⟩
    rw [loadFilter_tag]
    simp [State.readCapData, Cap.ofBits64, hdev]

/-- Settles O58. -/
theorem storeReportsFirstFailure : Obligations.StoreReportsFirstFailure := by
  intro s i a n v d hn c covers fails
  obtain ⟨htag, hseal, hperm, hbounds⟩ :=
    State.accessCheck_cheri (fails := fails) fun h => State.store_error ((s.storeCheck_eq i a n).trans h) v d
  refine ⟨⟨rfl, rfl, rfl, rfl⟩, htag, hseal, hperm, hbounds, fun htag hseal hperm hcov halign => ?_,
    fun htag hseal hperm hcov halign => ⟨fun hback => ?_, fun hback => ?_⟩⟩
  · exact State.store_error
      (State.accessCheck_of_misaligned (Cap.useCheck_of_allowed htag hseal hperm hcov) halign) v d
  · exact State.store_error
      (State.accessCheck_of_unbacked (Cap.useCheck_of_allowed htag hseal hperm hcov) halign hback) v d
  have hpass : s.storeCheck i a n = none :=
    State.accessCheck_eq_none_iff.mpr ⟨Cap.useCheck_of_allowed htag hseal hperm hcov, halign, hback⟩
  by_cases h8 : n = 8
  · subst h8
    exact ⟨_, State.storeCap_of_check hpass d, s.writeCapData_keeps a _⟩
  · refine ⟨s.writeData a n v, ?_, fun _ => rfl, rfl⟩
    rw [if_neg h8]
    exact State.storeData_of_check hpass v

/-- Settles O44: an answer is the data write after the checks passed, and the laws of the data write give the rest. -/
theorem storeIsAuthorisedAndLocal : Obligations.StoreIsAuthorisedAndLocal := by
  intro s i a n v c allowed
  refine ⟨fun t ht => ?_, fun h hn hallowed => ?_⟩
  · obtain ⟨hcheck, rfl⟩ := State.storeData_ok ht
    obtain ⟨huse, halign, hback⟩ := State.accessCheck_eq_none_iff.mp ((s.storeCheck_eq i a n).symm.trans hcheck)
    obtain ⟨htag, hseal, hperm, hbase, htop⟩ := (c.useCheck_eq_none_iff ..).mp huse
    refine ⟨⟨htag, (c.unsealed_iff).mp hseal, hperm, hbase, htop, halign, hback⟩, fun _ => rfl, rfl, fun x hx => ?_,
      fun h => ⟨fun x => State.tagAt_writeData_of_touched h v, fun x => State.tagAt_writeData_of_untouched h v⟩⟩
    refine State.read_writeBytes_of_ne _ _ fun k hk _ => ?_
    rw [wrapAddr_toNat_add]
    exact fun heq => hx k hk (BitVec.eq_of_toNat_eq heq.symm)
  · obtain ⟨htag, hseal, hperm, hbase, htop, halign, hback⟩ := hallowed
    have hpass : s.storeCheck i a n = none :=
      State.accessCheck_eq_none_iff.mpr ⟨Cap.useCheck_of_allowed htag hseal hperm ⟨hbase, htop⟩, halign, hback⟩
    have hsmall : n ≤ addressSpace := by rw [addressSpace]; omega
    refine ⟨_, State.storeData_of_check hpass v, fun hio => ?_, fun k hk hdev => ?_⟩
    · rw [State.writeData_of_memory hio]
      exact State.memRead_memWrite h a v hsmall
    · rw [← wrapAddr_toNat_add] at hdev
      rw [State.readMem, ← wrapAddr_toNat_add]
      exact State.read_writeBytes h.mem v hsmall hk hdev

/-! ### What a capability load lets through -/

/-- The type is 0 exactly when CT is, whatever P grants (R86). -/
theorem Cap.sealType_eq_zero_iff (c : Cap) : c.sealType = 0 ↔ c.ct = 0 := by
  refine ⟨fun h => ?_, Cap.sealType_of_ct_eq_zero⟩
  by_contra hct
  have hpos : c.ct.toNat ≠ 0 := fun h0 => hct (BitVec.eq_of_toNat_eq h0)
  rw [Cap.sealType, if_neg hct] at h
  split at h <;> omega

/-- Dropped permissions are gone, and none is gained (R49, R82). -/
theorem Cap.has_perms_dropPerms {c : Cap} {l : List Perm} {n : Perm} (h : (c.dropPerms l).perms.has n = true) :
    c.perms.has n = true ∧ (n ≠ .GL → n ∉ l) := by
  rw [Cap.has_perms] at h ⊢
  by_cases hgl : n = .GL
  · rw [if_pos hgl] at h ⊢
    exact ⟨h, fun hne => absurd hgl hne⟩
  · rw [if_neg hgl] at h ⊢
    have hdiff := has_of_has_decodeP_encodeP h
    simp only [PermSet.has_diff, PermSet.ofList, PermSet.has_ofFn, Bool.and_eq_true, Bool.not_eq_true'] at hdiff
    exact ⟨hdiff.1, fun _ hmem => by simp [hmem] at hdiff⟩

/-- The first of the two filters of a load: no W and no LM in an unsealed value, without LM (R49). -/
def lmFilter (auth : PermSet) (c : Cap) : Cap :=
  if auth.lm = false ∧ c.sealType = 0 then c.dropPerms [.W, .LM] else c

/-- The second: no LG and a clear G, without LG (R49). -/
def lgFilter (auth : PermSet) (c : Cap) : Cap :=
  if auth.lg = false then { c.dropPerms [.LG] with g := false } else c

section FilterCases
variable {auth : PermSet} {c : Cap}

theorem lmFilter_of_dropped (h : auth.lm = false ∧ c.sealType = 0) : lmFilter auth c = c.dropPerms [.W, .LM] := if_pos h

theorem lmFilter_of_kept (h : ¬(auth.lm = false ∧ c.sealType = 0)) : lmFilter auth c = c := if_neg h

theorem lgFilter_of_dropped (h : auth.lg = false) : lgFilter auth c = { c.dropPerms [.LG] with g := false } := if_pos h

theorem lgFilter_of_kept (h : auth.lg = true) : lgFilter auth c = c := if_neg (by simp [h])

theorem lmFilter_g : (lmFilter auth c).g = c.g := by
  unfold lmFilter
  split <;> rfl

end FilterCases

/-- A tagged value loaded with C passes the two filters in turn (R49). -/
theorem loadFilter_of_tagged {auth : PermSet} {c : Cap} (hc : auth.c = true) (htag : c.tag = true) :
    loadFilter auth c = lgFilter auth (lmFilter auth c) := by
  have hlm : (if (!auth.lm && c.tag && c.unsealed) = true then c.dropPerms [.W, .LM] else c) = lmFilter auth c := by
    simp only [lmFilter, Bool.and_eq_true, Bool.not_eq_true', Cap.unsealed_iff, htag, and_true]
  have htag' : (lmFilter auth c).tag = true := by
    unfold lmFilter
    split
    · exact htag
    · exact htag
  simp only [loadFilter, hc, Bool.not_true, Bool.false_eq_true, if_false, hlm, htag', Bool.and_true]
  simp only [lgFilter, Bool.not_eq_true']

/-- Every other value only loses its tag (R49). -/
theorem loadFilter_of_untagged {auth : PermSet} {c : Cap} (h : c.tag = false ∨ auth.c = false) :
    loadFilter auth c = { c with tag := false } := by
  unfold loadFilter
  cases hc : auth.c with
  | false => rfl
  | true =>
    have htag : c.tag = false := h.resolve_right (by simp [hc])
    simp only [htag, Bool.not_true, Bool.false_eq_true, if_false, Bool.and_false, Bool.false_and]
    rw [← htag]

theorem has_perms_lmFilter {auth : PermSet} {c : Cap} {n : Perm} (h : (lmFilter auth c).perms.has n = true) :
    c.perms.has n = true ∧ (auth.lm = false → c.sealType = 0 → n ≠ .W ∧ n ≠ .LM) := by
  unfold lmFilter at h
  split at h
  · obtain ⟨hc, hnot⟩ := Cap.has_perms_dropPerms h
    exact ⟨hc, fun _ _ => ⟨by rintro rfl; simp at hnot, by rintro rfl; simp at hnot⟩⟩
  · next hno => exact ⟨h, fun hlm hseal => absurd ⟨hlm, hseal⟩ hno⟩

theorem has_perms_lgFilter {auth : PermSet} {c : Cap} {n : Perm} (h : (lgFilter auth c).perms.has n = true) :
    c.perms.has n = true ∧ (auth.lg = false → n ≠ .LG ∧ n ≠ .GL) := by
  unfold lgFilter at h
  split at h
  · by_cases hgl : n = .GL
    · subst hgl
      exact absurd h Bool.false_ne_true
    · have hdrop : (c.dropPerms [.LG]).perms.has n = true := by
        rw [Cap.has_perms, if_neg hgl] at h ⊢
        exact h
      obtain ⟨hc, hnot⟩ := Cap.has_perms_dropPerms hdrop
      exact ⟨hc, fun _ => ⟨by rintro rfl; simp at hnot, hgl⟩⟩
  · next hno => exact ⟨h, fun hlg => absurd hlg hno⟩

/-- The filters leave CT. -/
theorem lgFilter_lmFilter_ct (auth : PermSet) (c : Cap) : (lgFilter auth (lmFilter auth c)).ct = c.ct := by
  unfold lgFilter lmFilter
  split <;> split <;> rfl

/-- Settles O45: a tag that is left means C, and no device; then the two filters say what is gone. -/
theorem loadedCapabilityIsFiltered : Obligations.LoadedCapabilityIsFiltered := by
  intro s t i a c hload htag
  obtain ⟨hcheck, hr⟩ := State.loadCap_ok hload
  obtain ⟨huse, -, -⟩ := State.accessCheck_eq_none_iff.mp ((s.loadCheck_eq i a 8).symm.trans hcheck)
  obtain ⟨-, -, hperm, -, -⟩ := ((s.readReg i).useCheck_eq_none_iff ..).mp huse
  obtain rfl : c = loadFilter (s.readReg i).perms (s.readCapData a).1 := congrArg Prod.fst hr
  rw [loadFilter_tag, Bool.and_eq_true] at htag
  obtain ⟨hvalue, hc⟩ := htag
  have hio : s.ioRange a.toNat 8 = false := by
    have hboth : (s.tagAt a && !s.ioRange a.toNat 8) = true := hvalue
    simpa using (Bool.and_eq_true_iff.mp hboth).2
  rw [State.readCapData_of_memory hio] at hvalue ⊢
  have hgone : ∀ {n}, (loadFilter (s.readReg i).perms (s.memReadCap a)).perms.has n = true →
      (s.memReadCap a).perms.has n = true ∧
      ((s.readReg i).perms.lm = false → (s.memReadCap a).sealType = 0 → n ≠ .W ∧ n ≠ .LM) ∧
      ((s.readReg i).perms.lg = false → n ≠ .LG ∧ n ≠ .GL) := by
    intro n hn
    rw [loadFilter_of_tagged hc hvalue] at hn
    obtain ⟨hn, hlg⟩ := has_perms_lgFilter hn
    obtain ⟨hn, hlm⟩ := has_perms_lmFilter hn
    exact ⟨hn, hlm, hlg⟩
  refine ⟨hperm, hc, fun hlm hseal => ?_, fun hlg => ?_, hvalue, PermSet.subset_iff.mpr fun n hn => (hgone hn).1⟩
  · have hseal' : (s.memReadCap a).sealType = 0 := by
      rw [Cap.sealType_eq_zero_iff] at hseal ⊢
      rwa [loadFilter_of_tagged hc hvalue, lgFilter_lmFilter_ct] at hseal
    exact ⟨Bool.eq_false_iff.mpr fun hw => ((hgone (n := .W) hw).2.1 hlm hseal').1 rfl,
      Bool.eq_false_iff.mpr fun hl => ((hgone (n := .LM) hl).2.1 hlm hseal').2 rfl⟩
  · exact ⟨Bool.eq_false_iff.mpr fun hg => ((hgone (n := .GL) hg).2.2 hlg).2 rfl,
      Bool.eq_false_iff.mpr fun hl => ((hgone (n := .LG) hl).2.2 hlg).1 rfl⟩

/-- Dropping W and LM and then LG from a P field is dropping the three at once (R49, R81). -/
theorem encodeP_drop_twice (p : BitVec 5) :
    encodeP ((decodeP (encodeP ((decodeP p).diff (PermSet.ofList [.W, .LM])))).diff (PermSet.ofList [.LG])) =
      encodeP ((decodeP p).diff (PermSet.ofList [.W, .LM, .LG])) := by
  revert p; decide

/-- The filters change P and G alone. -/
theorem lgFilter_lmFilter_frame (auth : PermSet) (c : Cap) :
    lgFilter auth (lmFilter auth c) =
      { c with g := (lgFilter auth (lmFilter auth c)).g, p := (lgFilter auth (lmFilter auth c)).p } := by
  unfold lgFilter lmFilter
  split <;> split <;> rfl

/-- Settles O57: the checks pass, and each of the four cases of the two filters is one clause. -/
theorem capabilityLoadGivesStoredValue : Obligations.CapabilityLoadGivesStoredValue := by
  intro s i a auth m noLm without htag hseal hperm hbase htop halign hback hio
  have hpass : s.loadCheck i a 8 = none :=
    State.accessCheck_eq_none_iff.mpr ⟨Cap.useCheck_of_allowed htag hseal hperm ⟨hbase, htop⟩, halign, hback⟩
  refine ⟨loadFilter auth.perms m, by rw [State.loadCap_of_check hpass, State.readCapData_of_memory hio], ?_⟩
  by_cases hkept : m.tag = true ∧ auth.perms.c = true
  · obtain ⟨hm, hc⟩ := hkept
    rw [loadFilter_of_tagged hc hm]
    have hframe := lgFilter_lmFilter_frame auth.perms m
    have htag' : (lgFilter auth.perms (lmFilter auth.perms m)).tag = true := by rw [hframe]; exact hm
    refine ⟨?_, by simp [htag', hm, hc], fun h => ?_, fun _ _ => ⟨?_, fun hno hlg => ?_, fun hlm hlg => ?_,
      fun hno hlg => ?_, fun hlm hlg => ?_⟩⟩
    · rw [htag', ← hm]
      exact hframe
    · simp [hm, hc] at h
    · cases hlg : auth.perms.lg with
      | false => rw [lgFilter_of_dropped hlg, Bool.and_false]
      | true => rw [lgFilter_of_kept hlg, lmFilter_g, Bool.and_true]
    · rw [lgFilter_of_kept hlg, lmFilter_of_kept hno]
    · rw [lgFilter_of_kept hlg, lmFilter_of_dropped hlm]
      rfl
    · rw [lgFilter_of_dropped hlg, lmFilter_of_kept hno]
      rfl
    · rw [lgFilter_of_dropped hlg, lmFilter_of_dropped hlm]
      exact encodeP_drop_twice m.p
  · have hlost : m.tag = false ∨ auth.perms.c = false := by
      rw [← Bool.not_eq_true, ← Bool.not_eq_true]
      exact not_and_or.mp hkept
    rw [loadFilter_of_untagged hlost]
    refine ⟨rfl, ?_, fun _ => ⟨rfl, rfl⟩, fun hm hc => absurd ⟨hm, hc⟩ hkept⟩
    exact iff_of_false Bool.false_ne_true hkept

/-! ### What a capability store puts into memory -/

/-- The store filter decides the tag and nothing else (R49). -/
theorem storeFilter_eq (auth : PermSet) (c : Cap) :
    storeFilter auth c = { c with tag := c.tag && (auth.c && (auth.sl || c.g)) } := by
  have hcases : ∀ tag c sl g : Bool,
      (tag && (c && (sl || g))) = if tag && (!c || (!sl && !g)) then false else tag := by decide
  rw [hcases, storeFilter]
  split <;> rfl

section CapStore
variable {s : State} {a : Word} (c : Cap)

/-- The tag a capability write leaves at its address (R41, logs 11, 19). -/
theorem State.tagAt_writeCapData_same (h : s.Canonical) (a : Word) :
    (s.writeCapData a c).tagAt a = (c.tag && s.isTagged a.toNat && !s.ioRange a.toNat 8) := by
  unfold State.writeCapData
  split
  · next hio =>
    rw [hio, Bool.not_true, Bool.and_false]
    exact State.tagAt_writeData_of_touched h _ ⟨0, by omega, by simp⟩
  · next hio =>
    rw [Bool.eq_false_iff.mpr hio, Bool.not_false, Bool.and_true]
    exact State.tagAt_memWriteCap_same c h a

/-- A capability write leaves every other granule (R41, R42). -/
theorem State.writeCapData_of_granule_ne (h : s.Canonical) (ha : a.toNat % 8 = 0) {x : Word}
    (hx : x.toNat / 8 ≠ a.toNat / 8) :
    (s.writeCapData a c).readMem x = s.readMem x ∧ (s.writeCapData a c).tagAt x = s.tagAt x := by
  unfold State.writeCapData
  split
  · refine ⟨State.read_writeBytes_of_ne _ _ fun k hk _ => ne_of_granule_ne ha hx hk,
      State.tagAt_writeData_of_untouched h _ fun k hk => ?_⟩
    rw [toNat_add_of_aligned ha hk]
    omega
  · exact ⟨State.readMem_memWriteCap_of_ne c ha hx, State.tagAt_memWriteCap_of_ne c h hx⟩

/-- The bytes a capability write leaves where memory takes them (R41, R50). -/
theorem State.readMem_writeCapData (h : s.Canonical) {k : Nat} (hk : k < 8)
    (hdev : s.isIo (a + BitVec.ofNat 32 k).toNat = false) :
    (s.writeCapData a c).readMem (a + BitVec.ofNat 32 k) = BitVec.ofNat 8 (c.bits64.toNat / 256 ^ k) := by
  unfold State.writeCapData
  split
  · rw [← wrapAddr_toNat_add] at hdev
    rw [State.readMem, ← wrapAddr_toNat_add]
    exact State.read_writeBytes h.mem _ (by decide) hk hdev
  · rw [← State.memRead_byte _ a hk, State.memRead_memWriteCap c h]

end CapStore

/-- Settles O46. -/
theorem storedCapabilityIsFiltered : Obligations.StoredCapabilityIsFiltered := by
  intro s t i a c h hstore kept
  obtain ⟨hcheck, rfl⟩ := State.storeCap_ok hstore
  obtain ⟨huse, halign, -⟩ := State.accessCheck_eq_none_iff.mp ((s.storeCheck_eq i a 8).symm.trans hcheck)
  obtain ⟨-, -, hperm, -, -⟩ := ((s.readReg i).useCheck_eq_none_iff ..).mp huse
  rw [storeFilter_eq]
  generalize hd : ({ c with tag := c.tag && ((s.readReg i).perms.c && ((s.readReg i).perms.sl || c.g)) } : Cap) = d
  have hbits : d.bits64 = c.bits64 := by rw [← hd, Cap.bits64_with_tag]
  have hkept : d.tag = true ↔ kept := by
    rw [← hd]
    simp only [Bool.and_eq_true, Bool.or_eq_true]
    rfl
  obtain ⟨hregs, hpcc⟩ := s.writeCapData_keeps a d
  have htagAt := State.tagAt_writeCapData_same d h a
  refine ⟨hperm, halign, hregs, hpcc, fun x => State.writeCapData_of_granule_ne d h halign, ?_,
    fun k hk hdev => ?_, fun hio => ?_⟩
  · rw [htagAt, Bool.and_eq_true, Bool.and_eq_true, hkept, Bool.not_eq_true', and_assoc]
  · rw [State.readMem_writeCapData d h hk hdev, hbits]
  · rw [State.writeCapData_of_memory hio] at htagAt ⊢
    rw [State.memReadCap_memWriteCap d h, Cap.bits64_with_tag, hbits]
    refine ⟨rfl, fun htagged => ?_⟩
    rw [htagAt, htagged, hio, ← hkept]
    simp

end Sys2Proof.Machine
end

section
/-! SUPPORT. Reset and the admission of a start state: what the reset machine holds (R33 to R37), and that an admitted
state is sound (R15, R66). -/

namespace Sys2Proof.Machine

/-! ### The first fetch -/

/-- The Executable root at an address covers the whole address space (R33, R114). -/
theorem rootExec_bounds (a : Word) :
    Cap.base { rootExec with addr := a } = 0 ∧ Cap.top { rootExec with addr := a } = 2 ^ 32 := by
  obtain ⟨hbase, htop⟩ := Cap.bounds_of_exp_max (c := { rootExec with addr := a }) rfl
  exact ⟨hbase.trans (show (rootExec.b.toNat % 256) * 2 ^ 24 = 0 by decide),
    htop.trans (show rootExec.t.toNat * 2 ^ 24 = 2 ^ 32 by decide)⟩

/-- Settles O48: of the checks of the fetch only alignment and backing can fail through the root. -/
theorem firstFetchAfterReset : Obligations.FirstFetchAfterReset := by
  intro plat pcAddr initMem initTags s
  obtain ⟨hbase, htop⟩ : s.pcc.base = 0 ∧ s.pcc.top = 2 ^ 32 := rootExec_bounds pcAddr
  have hexp : s.pcc.exp = 24 := rfl
  have hlt := pcAddr.isLt
  refine ⟨hbase, htop, fun a => (s.pcc.representable_iff a).mpr ⟨by omega, ?_⟩, ?_⟩
  · have ha := a.isLt
    rw [hbase, hexp]
    omega
  · rw [State.fetchCheck_eq_none_iff, and_three_eq_zero_iff]
    refine ⟨fun ⟨_, halign, hback⟩ => ⟨halign, hback⟩, fun ⟨halign, hback⟩ => ⟨?_, halign, hback⟩⟩
    have hin : s.pcc.base ≤ pcAddr.toNat ∧ pcAddr.toNat + 4 ≤ s.pcc.top := by omega
    have hexec : rootExec.perms.has .X = true := by decide
    exact Cap.useCheck_of_allowed (c := s.pcc) rfl rfl hexec hin

/-! ### What the reset machine holds -/

theorem State.readReg_resetWith (plat : Platform) (pcAddr : Word) (initMem : List Host.Cell) (initTags : List Nat)
    (i : RegIdx) : (State.resetWith plat pcAddr initMem initTags).readReg i = Cap.null := by
  simp [State.readReg, State.resetWith]

/-- Settles O49. -/
theorem onlyRootsAtReset : Obligations.OnlyRootsAtReset := by
  rintro c (⟨i, rfl⟩ | rfl | rfl | rfl | rfl | rfl | hmem) htag
  · rw [State.reset, State.readReg_resetWith] at htag
    cases htag
  · exact .inl rfl
  · cases htag
  · exact .inl rfl
  · exact .inr (.inl rfl)
  · exact .inr (.inr rfl)
  · cases hmem

/-- Settles O59. -/
theorem resetStorageCanonical : Obligations.ResetStorageCanonical := State.resetWith_canonical

/-! ### Admission -/

theorem Cap.malformed_iff (c : Cap) :
    c.malformed = true ↔ c.tag = true ∧
      (c.r = true ∨ 2 ^ 32 < c.top ∨ c.top < c.base ∨ c.addr.toNat < c.base ∨ (c.e = 15 ∧ 255 < c.b.toNat)) := by
  simp only [Cap.malformed, Bool.and_eq_true, Bool.or_eq_true, decide_eq_true_eq, or_assoc]
  rfl

/-- A tagged value is well formed exactly when it is sound (R15, R66). -/
theorem Cap.sound_of_not_malformed {c : Cap} (h : c.malformed = false) : c.sound := by
  intro htag
  have hno := mt (c.malformed_iff).mpr (Bool.eq_false_iff.mp h)
  simp only [htag, true_and, not_or, not_and, Bool.not_eq_true, Nat.not_lt] at hno
  obtain ⟨hr, hspace, hbt, hba, hmax⟩ := hno
  exact ⟨hr, hba, hbt, hspace, fun he => Nat.lt_succ_of_le (hmax he)⟩

theorem State.admitStart_eq_refused_iff (s : State) :
    s.admitStart = .refused .malformedStart ↔ ∃ c ∈ s.caps, c.malformed = true := by
  rw [← List.any_eq_true, State.admitStart]
  split
  · next h => exact iff_of_true rfl h
  · next h => exact iff_of_false (fun heq => by cases heq) h

theorem State.admitStart_of_wellformed {s : State} (h : ∀ c ∈ s.caps, c.malformed = false) : s.admitStart = .next s :=
  if_neg (by simpa using h)

theorem State.wellformed_of_admitStart {s : State} (h : s.admitStart = .next s) : ∀ c ∈ s.caps, c.malformed = false := by
  rw [State.admitStart] at h
  split at h
  · cases h
  · next hno => simpa using hno

/-- The roots are well formed, wherever they point, and so is an untagged value. -/
theorem State.reset_wellformed : ∀ c ∈ State.reset.caps, c.malformed = false := by
  have hcaps : State.reset.caps =
      List.replicate 32 Cap.null ++ [rootExec, rootExec, rootSeal, rootRw, Cap.null] ++ [] := rfl
  intro c hc
  rw [hcaps] at hc
  simp only [List.append_nil, List.mem_append, List.mem_replicate, List.mem_cons, List.not_mem_nil, or_false] at hc
  obtain ⟨-, rfl⟩ | rfl | rfl | rfl | rfl | rfl := hc <;> decide

/-- Settles O50. -/
theorem malformedStartIsRefused : Obligations.MalformedStartIsRefused := by
  refine ⟨fun s => ?_, State.admitStart_of_wellformed State.reset_wellformed⟩
  rw [State.admitStart_eq_refused_iff]
  simp only [Cap.malformed_iff]

/-- Settles O51: what the admission looks at holds every capability of the invariant. -/
theorem admittedStartIsSound : Obligations.AdmittedStartIsSound := by
  intro s h
  have hsound : ∀ c ∈ s.caps, c.sound := fun c hc => Cap.sound_of_not_malformed (State.wellformed_of_admitStart h c hc)
  have hpc : ∀ c ∈ s.caps, c.pcSound := fun c hc htag => by
    obtain ⟨hr, -, -, hspace, hmax⟩ := hsound c hc htag
    exact ⟨hr, hspace, hmax⟩
  refine ⟨fun i => ?_, hpc _ ?_, hpc _ ?_, hsound _ ?_, hsound _ ?_, hsound _ ?_, fun c hc => hsound c ?_⟩
  · by_cases hi : i = zr
    · subst hi
      exact fun htag => by cases htag
    · refine hsound _ ?_
      rw [s.readReg_of_ne hi, State.caps, List.append_assoc]
      exact List.mem_append_left _ (Vector.mem_toList_iff.mpr (Vector.getElem_mem i.isLt))
  iterate 5 · simp [State.caps]
  exact List.mem_append_right _ hc

/-- Settles O53: the reset state is admitted. -/
theorem resetCapabilitiesSound : Obligations.ResetCapabilitiesSound :=
  admittedStartIsSound _ malformedStartIsRefused.2

end Sys2Proof.Machine
end

section
/-! SUPPORT. Derivation (R115): what every capability an instruction or a trap makes has of the one it is made from, and
so what every step keeps of soundness and of authority. -/

namespace Sys2Proof.Machine

/-! ### Deriving one capability from another -/

/-- A capability made from another: with a tag, the other's tag, no more authority, and soundness (R115). -/
def Cap.DerivedFrom (c d : Cap) : Prop := (c.tag = true → d.tag = true ∧ c.within d) ∧ c.sound

/-- The same of a capability that is to be in `pcc`, whose address may have wrapped (R24, log 17). -/
def Cap.PcDerivedFrom (c d : Cap) : Prop := (c.tag = true → d.tag = true ∧ c.within d) ∧ c.pcSound

theorem Cap.sound.pcSound {c : Cap} (h : c.sound) : c.pcSound := fun htag => by
  obtain ⟨hr, -, -, hspace, hmax⟩ := h htag
  exact ⟨hr, hspace, hmax⟩

theorem Cap.DerivedFrom.pc {c d : Cap} (h : c.DerivedFrom d) : c.PcDerivedFrom d := ⟨h.1, h.2.pcSound⟩

theorem Cap.within_refl (c : Cap) : c.within c := ⟨PermSet.subset_refl _, Nat.le_refl _, Nat.le_refl _⟩

theorem Cap.derivedFrom_of_untagged {c : Cap} (d : Cap) (h : c.tag = false) : c.DerivedFrom d :=
  ⟨fun htag => absurd (htag.symm.trans h) Bool.noConfusion, fun htag => absurd (htag.symm.trans h) Bool.noConfusion⟩

/-- Losing the tag is losing everything. -/
theorem Cap.DerivedFrom.and_tag {c d : Cap} (h : c.DerivedFrom d) (keep : Bool) :
    Cap.DerivedFrom { c with tag := keep && c.tag } d := by
  cases keep with
  | true => rwa [Bool.true_and]
  | false => exact Cap.derivedFrom_of_untagged d rfl

section Derivations
variable {c : Cap}

/-- `SetAddr` moves inside the region, so it keeps the bounds (R104, R106). -/
theorem Cap.derivedFrom_setAddr (h : c.sound) (a : Word) : (c.setAddr a).DerivedFrom c := by
  have hparts : (c.setAddr a).tag = true → c.tag = true ∧ c.base ≤ a.toNat ∧ (c.setAddr a).base = c.base ∧
      (c.setAddr a).top = c.top := by
    intro htag
    rw [Cap.setAddr_tag, Bool.and_eq_true] at htag
    obtain ⟨hc, hrep⟩ := htag
    obtain ⟨-, hba, -⟩ := h hc
    exact ⟨hc, ((c.representable_iff a).mp hrep).1, Cap.setAddr_bounds hba hrep⟩
  refine ⟨fun htag => ?_, fun htag => ?_⟩
  · obtain ⟨hc, -, hbase, htop⟩ := hparts htag
    exact ⟨hc, PermSet.subset_refl _, hbase.ge, htop.le⟩
  · obtain ⟨hc, ha, hbase, htop⟩ := hparts htag
    obtain ⟨hr, -, hbt, hspace, hmax⟩ := h hc
    rw [hbase, htop]
    exact ⟨hr, ha, hbt, hspace, hmax⟩

/-- The type has no part in authority (R88). -/
theorem Cap.DerivedFrom.withType {d : Cap} (h : c.DerivedFrom d) (ty : Nat) : (c.withType ty).DerivedFrom d := h

theorem Cap.sound.withType (h : c.sound) (ty : Nat) : (c.withType ty).sound := h

theorem Cap.derivedFrom_addiyResult (h : c.sound) (imm : BitVec 12) : (addiyResult c imm).DerivedFrom c := by
  rw [addiyResult_eq, Bool.and_comm]
  exact (Cap.derivedFrom_setAddr h _).and_tag _

/-- Bounds at the maximum exponent keep B below 256 (R66, R107). -/
theorem Cap.encoded_b_lt (base len : Word) (h : (c.encoded base len).e = 15) : (c.encoded base len).b.toNat < 256 := by
  obtain ⟨hexp, hmant, -⟩ := c.encoded_mantissas base len
  have hmax := hexp.symm.trans ((Cap.exp_eq_max_iff _).mpr h)
  have hb := (c.encoded base len).baseMant_spec.1
  have hlt := base.isLt
  rw [hmant, hmax, floorMant] at hb
  omega

/-- A request inside the source's bounds has bounds inside them (R108 (6), R109). -/
theorem Cap.derivedFrom_scbndsResult (h : c.sound) (len : Word) : (scbndsResult c len).DerivedFrom c := by
  have hinside : (scbndsResult c len).tag = true → c.tag = true ∧
      c.base ≤ (scbndsResult c len).base ∧ (scbndsResult c len).base ≤ c.addr.toNat ∧
      c.addr.toNat + len.toNat ≤ (scbndsResult c len).top ∧ (scbndsResult c len).top ≤ c.top := fun htag =>
    ⟨((scbndsResult_tag_iff c len).mp htag).1, (scbndsStaysInsideSource c len h).1 htag⟩
  refine ⟨fun htag => ?_, fun htag => ?_⟩
  · obtain ⟨hc, hbase, -, -, htop⟩ := hinside htag
    exact ⟨hc, PermSet.subset_refl _, hbase, htop⟩
  · obtain ⟨hc, -, hbase, hcover, htop⟩ := hinside htag
    obtain ⟨hr, -, -, hspace, -⟩ := h hc
    have hbt : (scbndsResult c len).base ≤ (scbndsResult c len).top := by omega
    exact ⟨hr, hbase, hbt, htop.trans hspace, fun he => Cap.encoded_b_lt c.addr len he⟩

/-- Clearing permissions gains none and leaves the bounds (R82, R83). -/
theorem Cap.derivedFrom_clearPerms (h : c.sound) (k : PermSet) : (c.clearPerms k).DerivedFrom c :=
  ⟨fun htag => ⟨htag, PermSet.subset_iff.mpr fun _ hn => (Cap.has_perms_clearPerms hn).1, Nat.le_refl _, Nat.le_refl _⟩,
    h⟩

theorem Cap.derivedFrom_clrpermResult (h : c.sound) (k : PermSet) : (clrpermResult c k).DerivedFrom c := by
  rw [clrpermResult_eq, Bool.and_comm]
  exact (Cap.derivedFrom_clearPerms h k).and_tag _

theorem Cap.derivedFrom_jalrPcc (h : c.sound) (rd rs1 : RegIdx) (imm : BitVec 12) :
    (jalrPcc rd rs1 c imm).DerivedFrom c := by
  rw [jalrPcc_eq]
  exact (Cap.derivedFrom_setAddr (h.withType 0) _).and_tag _

theorem Cap.derivedFrom_clearLow (h : c.sound) (bits : Word) : (c.clearLow bits).DerivedFrom c := by
  obtain heq | heq := c.clearLow_cases bits <;> rw [heq]
  · exact ⟨fun htag => ⟨htag, c.within_refl⟩, h⟩
  · exact Cap.derivedFrom_setAddr h _

end Derivations

/-! ### The unchecked advance -/

/-- Advancing from inside the bounds keeps the base, and can only lower the top: past the last word of the address space
the mantissas of both fall by a whole address space, which the base's 32 bits hide (R24, D27). -/
theorem Cap.advance_bounds {c : Cap} (hbase : c.base ≤ c.addr.toNat) (htop : c.addr.toNat + 4 ≤ c.top)
    (hspace : c.top ≤ 2 ^ 32) : (c.setAddr (c.addr + 4)).base = c.base ∧ (c.setAddr (c.addr + 4)).top ≤ c.top := by
  by_cases hwrap : c.addr.toNat + 4 < 2 ^ 32
  · have haddr : (c.addr + 4).toNat = c.addr.toNat + 4 := BitVec.toNat_add_of_lt (y := 4) hwrap
    have hrep : c.representable (c.addr + 4) = true := Cap.representable_of_le_top hbase (by omega) (by omega)
    obtain ⟨hb, ht⟩ := Cap.setAddr_bounds hbase hrep
    exact ⟨hb, ht.le⟩
  obtain hexp | hexp := c.exp_cases
  · obtain ⟨m, hm, hmbase, hmtop⟩ := Cap.bounds_of_base_le_addr hexp hbase
    obtain ⟨hsplit, hwide, hpos, -⟩ := two_pow_split hexp
    have haddr : (c.addr + 4).toNat = 0 := by
      have hlt := c.addr.isLt
      rw [BitVec.toNat_add, show (4 : Word).toNat = 4 from rfl]
      omega
    have hend : m + c.lengthMant = 2 ^ (32 - c.exp) := by
      refine Nat.eq_of_mul_eq_mul_right hpos ?_
      rw [← hmtop, mul_comm, hsplit]
      omega
    have hzero : (c.setAddr (c.addr + 4)).addrMant = 0 := by
      show (c.addr + 4).toNat / 2 ^ c.exp = 0
      rw [haddr, Nat.zero_div]
    have hlen := c.lengthMant_lt
    have hlenpos : 0 < c.lengthMant := by
      refine Nat.pos_of_ne_zero fun h0 => ?_
      rw [h0, Nat.add_zero] at hmtop
      omega
    have hmant : (c.setAddr (c.addr + 4)).baseMant = -(c.lengthMant : Int) := by
      have hb := c.baseMant_spec.1
      have hlenmod : (c.lengthMant : Int) = ((c.t.toNat : Int) - c.b.toNat) % 512 :=
        Int.toNat_of_nonneg (Int.emod_nonneg _ (by decide))
      have hwhole : ((2 ^ (32 - c.exp) : Nat) : Int) % 512 = 0 := by
        have hdvd : 512 ∣ 2 ^ (32 - c.exp) := pow_dvd_pow 2 (show 9 ≤ 32 - c.exp by omega)
        omega
      refine (c.setAddr (c.addr + 4)).baseMant_eq_of ?_ (by omega) (by omega)
      rw [Cap.setAddr_b]
      omega
    have hbase' := Cap.base_eq_mul (c := c.setAddr (c.addr + 4)) hexp
    have hlen' : (c.setAddr (c.addr + 4)).lengthMant = c.lengthMant := rfl
    refine ⟨?_, ?_⟩
    · rw [hmant, Cap.setAddr_exp, ← Int.add_emod_right, Int.emod_eq_of_lt (by omega) (by omega)] at hbase'
      have hsum : -(c.lengthMant : Int) + (2 ^ (32 - c.exp) : Nat) = m := by omega
      rw [hsum, ← Int.natCast_mul, ← hmbase] at hbase'
      exact_mod_cast hbase'
    · rw [Cap.top_eq_topMant, Cap.topMant_eq, hmant, hlen', neg_add_cancel, zero_mul]
      exact Nat.zero_le _
  · obtain ⟨hb, ht⟩ := Cap.bounds_of_exp_max hexp
    obtain ⟨hb', ht'⟩ := Cap.bounds_of_exp_max (c := c.setAddr (c.addr + 4)) hexp
    exact ⟨hb'.trans hb.symm, (ht'.trans ht.symm).le⟩

/-- `pcc` after the advance is still inside what it was (R24, R115). -/
theorem Cap.pcDerivedFrom_advance {c : Cap} (h : c.sound) (hbase : c.base ≤ c.addr.toNat)
    (htop : c.addr.toNat + 4 ≤ c.top) : Cap.PcDerivedFrom { c with addr := c.addr + 4 } c := by
  have hbounds : c.tag = true → Cap.base { c with addr := c.addr + 4 } = c.base ∧
      Cap.top { c with addr := c.addr + 4 } ≤ c.top := fun htag => by
    obtain ⟨-, -, -, hspace, -⟩ := h htag
    exact Cap.advance_bounds hbase htop hspace
  refine ⟨fun htag => ?_, fun htag => ?_⟩
  · obtain ⟨hb, ht⟩ := hbounds htag
    exact ⟨htag, PermSet.subset_refl _, hb.ge, ht⟩
  · obtain ⟨hr, -, -, hspace, hmax⟩ := h htag
    exact ⟨hr, (hbounds htag).2.trans hspace, hmax⟩

/-! ### One instruction -/

/-- A state an instruction runs in: its registers are sound, and its `pcc` is sound and passed the fetch check. -/
structure State.Running (s : State) : Prop where
  regs : ∀ i : RegIdx, (s.readReg i).sound
  pcc : s.pcc.sound
  base : s.pcc.base ≤ s.pc.toNat
  top : s.pc.toNat + 4 ≤ s.pcc.top

theorem State.Sound.running {s : State} (h : s.Sound) (hcheck : s.fetchCheck = none) : s.Running := by
  obtain ⟨huse, -, -⟩ := s.fetchCheck_eq_none_iff.mp hcheck
  obtain ⟨-, -, -, hbase, htop⟩ := (s.pcc.useCheck_eq_none_iff ..).mp huse
  refine ⟨h.regs, fun htag => ?_, hbase, htop⟩
  obtain ⟨hr, hspace, hmax⟩ := h.pcc htag
  have hbt : s.pcc.base ≤ s.pcc.top := by omega
  exact ⟨hr, hbase, hbt, hspace, hmax⟩

theorem State.writeReg_advancePc_eq (s : State) (rd : RegIdx) (c : Cap) :
    (s.writeReg rd c).advancePc =
      { s.writeReg rd c with pcc := { s.pcc with addr := s.pc + 4 }, mie := (s.writeReg rd c).mie } := by
  rw [State.advancePc, State.nextPc, State.writeReg_pcc]
  rfl

/-- Every instruction enters a trap, or writes one register and `pcc`, each derived from a capability the machine held
(R115). -/
theorem exec_derives {i : Instr} {s t : State} (h : s.Running) (hexec : exec i s = .next t) :
    (∃ cause tval, t = s.trapEntry cause tval) ∨
    ∃ rd c pcc mie, t = { s.writeReg rd c with pcc := pcc, mie := mie } ∧
      (∃ d, s.holds d ∧ c.DerivedFrom d) ∧ ∃ d, s.holds d ∧ pcc.PcDerivedFrom d := by
  have hreg : ∀ r, s.holds (s.readReg r) := fun r => .inl ⟨r, rfl⟩
  have hpcc : s.holds s.pcc := .inr (.inl rfl)
  have hadvance : ∃ d, s.holds d ∧ Cap.PcDerivedFrom { s.pcc with addr := s.pc + 4 } d :=
    ⟨_, hpcc, Cap.pcDerivedFrom_advance h.pcc h.base h.top⟩
  have hlink : ∀ rd, ∃ d, s.holds d ∧ (s.linkCap rd).DerivedFrom d := fun rd =>
    ⟨_, hpcc, (Cap.derivedFrom_setAddr h.pcc _).withType _⟩
  cases i with
  | auipc rd imm =>
    rw [exec_auipc, State.writeReg_advancePc_eq] at hexec
    cases hexec
    exact .inr ⟨_, _, _, _, rfl, ⟨_, hpcc, Cap.derivedFrom_setAddr h.pcc _⟩, hadvance⟩
  | addiy rd rs1 imm =>
    rw [exec_addiy, State.writeReg_advancePc_eq] at hexec
    cases hexec
    exact .inr ⟨_, _, _, _, rfl, ⟨_, hreg rs1, Cap.derivedFrom_addiyResult (h.regs rs1) imm⟩, hadvance⟩
  | scbnds rd rs1 rs2 =>
    rw [exec_scbnds, State.writeReg_advancePc_eq] at hexec
    cases hexec
    exact .inr ⟨_, _, _, _, rfl, ⟨_, hreg rs1, Cap.derivedFrom_scbndsResult (h.regs rs1) _⟩, hadvance⟩
  | clrperm rd rs1 rs2 =>
    rw [exec_clrperm, State.writeReg_advancePc_eq] at hexec
    cases hexec
    exact .inr ⟨_, _, _, _, rfl, ⟨_, hreg rs1, Cap.derivedFrom_clrpermResult (h.regs rs1) _⟩, hadvance⟩
  | gcperm rd rs1 =>
    rw [exec_gcperm, State.writeReg_advancePc_eq] at hexec
    cases hexec
    exact .inr ⟨_, _, _, _, rfl, ⟨_, hpcc, Cap.derivedFrom_of_untagged _ rfl⟩, hadvance⟩
  | jal rd imm =>
    by_cases halign : jalTarget s imm &&& 3 = 0
    · rw [exec_jal_aligned halign] at hexec
      cases hexec
      exact .inr ⟨_, _, _, (s.writeReg rd (s.linkCap rd)).mie, rfl, hlink rd, _, hpcc,
        (Cap.derivedFrom_setAddr h.pcc _).pc⟩
    · rw [exec_jal_misaligned halign] at hexec
      cases hexec
      exact .inl ⟨_, _, rfl⟩
  | jalr rd rs1 imm =>
    by_cases halign : jalrTarget (s.readReg rs1) imm &&& 3 = 0
    · rw [exec_jalr_aligned halign] at hexec
      cases hexec
      exact .inr ⟨_, _, _, _, rfl, hlink rd, _, hreg rs1, (Cap.derivedFrom_jalrPcc (h.regs rs1) ..).pc⟩
    · rw [exec_jalr_misaligned halign] at hexec
      cases hexec
      exact .inl ⟨_, _, rfl⟩

/-! ### One step -/

/-- Of a sound state every step enters a trap, or writes one register and `pcc`, each derived from a capability the
machine held (R115, R121). -/
theorem step_derives {s t : State} (h : s.Sound) (hstep : step s = .next t) :
    ∃ irq draws, (∃ cause tval, t = (s.withOracle irq draws).trapEntry cause tval) ∨
      ∃ rd c pcc mie, t = { (s.withOracle irq draws).writeReg rd c with pcc := pcc, mie := mie } ∧
        (∃ d, s.holds d ∧ c.DerivedFrom d) ∧ ∃ d, s.holds d ∧ pcc.PcDerivedFrom d := by
  obtain ⟨irq, draws, htrap | ⟨w, i, -, hcheck, -, hexec⟩⟩ := stepWith_inversion hstep
  · exact ⟨irq, draws, .inl htrap⟩
  · have hrunning : (s.withOracle irq draws).Running := by
      obtain ⟨hregs, hpcc, hbase, htop⟩ := h.running hcheck
      exact ⟨hregs, hpcc, hbase, htop⟩
    exact ⟨irq, draws, exec_derives hrunning hexec⟩

/-- The registers after a write read as before, or as what was written. -/
theorem State.readReg_writeReg_cases (s : State) (rd : RegIdx) (c : Cap) (j : RegIdx) :
    (s.writeReg rd c).readReg j = s.readReg j ∨ (s.writeReg rd c).readReg j = c := by
  by_cases hj : j = rd
  · subst hj
    rw [State.readReg_writeReg_same]
    split
    · next hzr => exact .inl (by rw [hzr, State.readReg_zr])
    · exact .inr rfl
  · exact .inl (s.readReg_writeReg_of_ne hj c)

/-- Settles O52: a trap saves `pcc` and installs a vector derived from a sound one, and an instruction writes only
derived capabilities. -/
theorem stepKeepsCapabilitiesSound : Obligations.StepKeepsCapabilitiesSound := by
  intro s t h hstep
  have hsame := step_sameStorage hstep
  have hmem : t.memCaps = s.memCaps := State.memCaps_congr hsame.mem hsame.tags hsame.plat
  obtain ⟨irq, draws, ⟨cause, tval, rfl⟩ | ⟨rd, c, pcc, mie, rfl, ⟨d, -, -, hc⟩, ⟨e, -, -, hpcc⟩⟩⟩ := step_derives h hstep
  · exact ⟨h.regs, (Cap.derivedFrom_clearLow h.mtvec 3).2.pcSound, h.pcc, h.mtvec, h.mscratch, h.mtidc, h.mem⟩
  · refine ⟨fun j => ?_, hpcc, ?_, hsame.mtvec ▸ h.mtvec, hsame.mscratch ▸ h.mscratch, hsame.mtidc ▸ h.mtidc,
      hmem ▸ h.mem⟩
    · obtain hj | hj := (s.withOracle irq draws).readReg_writeReg_cases rd c j
      · show (((s.withOracle irq draws).writeReg rd c).readReg j).sound
        rw [hj]
        exact h.regs j
      · show (((s.withOracle irq draws).writeReg rd c).readReg j).sound
        rw [hj]
        exact hc
    · have hmepc : ((s.withOracle irq draws).writeReg rd c).mepc = s.mepc := State.writeReg_mepc ..
      exact hmepc ▸ h.mepc

/-- Settles O54: what the machine holds after a step it held before, or it was derived from what it held. -/
theorem stepDerivesEveryCapability : Obligations.StepDerivesEveryCapability := by
  intro s t h hstep c hheld htag
  have hsame := step_sameStorage hstep
  have hmem : t.memCaps = s.memCaps := State.memCaps_congr hsame.mem hsame.tags hsame.plat
  have hkept : s.holds c → ∃ d, s.holds d ∧ d.tag = true ∧ c.within d := fun hc => ⟨c, hc, htag, c.within_refl⟩
  have hderived : ∀ {d}, s.holds d → (c.tag = true → d.tag = true ∧ c.within d) →
      ∃ d, s.holds d ∧ d.tag = true ∧ c.within d := fun hd hfrom => ⟨_, hd, hfrom htag⟩
  obtain ⟨irq, draws, ⟨cause, tval, rfl⟩ | ⟨rd, w, pcc, mie, rfl, ⟨d, hd, hw, -⟩, ⟨e, he, hpcc, -⟩⟩⟩ := step_derives h hstep
  · obtain ⟨i, rfl⟩ | rfl | rfl | rfl | rfl | rfl | hc := hheld
    · exact hkept (.inl ⟨i, rfl⟩)
    · exact hderived (.inr (.inr (.inr (.inl rfl)))) (Cap.derivedFrom_clearLow h.mtvec 3).1
    · exact hkept (.inr (.inl rfl))
    · exact hkept (.inr (.inr (.inr (.inl rfl))))
    · exact hkept (.inr (.inr (.inr (.inr (.inl rfl)))))
    · exact hkept (.inr (.inr (.inr (.inr (.inr (.inl rfl))))))
    · exact hkept (.inr (.inr (.inr (.inr (.inr (.inr (hmem ▸ hc)))))))
  · obtain ⟨i, hc⟩ | hc | hc | hc | hc | hc | hc := hheld
    · obtain hi | hi := (s.withOracle irq draws).readReg_writeReg_cases rd w i
      · exact hkept (.inl ⟨i, hc.trans hi⟩)
      · obtain rfl : c = w := hc.trans hi
        exact hderived hd hw
    · obtain rfl : c = pcc := hc
      exact hderived he hpcc
    · exact hkept (.inr (.inr (.inl (hc.trans (State.writeReg_mepc ..)))))
    · exact hkept (.inr (.inr (.inr (.inl (hc.trans hsame.mtvec)))))
    · exact hkept (.inr (.inr (.inr (.inr (.inl (hc.trans hsame.mscratch))))))
    · exact hkept (.inr (.inr (.inr (.inr (.inr (.inl (hc.trans hsame.mtidc)))))))
    · exact hkept (.inr (.inr (.inr (.inr (.inr (.inr (hmem ▸ hc)))))))

end Sys2Proof.Machine
end
